-- ==== Sys2Proof/Word.lean ====
section
/-! DEFINITION. The word types of LZW-CORE (10_state.md, 30_encoding.md rule R54) and nothing else. -/

namespace Sys2Proof

/-- BYTE8 (R54): one source or sink byte. -/
abbrev Byte := BitVec 8

/-- CODE12 (R55): one wire code; also the payload of a queue element. -/
abbrev Code := BitVec 12

/-- ELEM13 (R56): one queue element, TAG in bit 12 and PAYLOAD in bits 11:0. -/
abbrev Elem13 := BitVec 13

/-- SRCRESP (R57): one source response, kind in bits 9:8 and data in bits 7:0. -/
abbrev SrcWord := BitVec 10

/-- SNKRESP (R57): one sink answer. -/
abbrev SnkWord := BitVec 1

/-- The 16-bit bit buffers rd.acc and wr.acc (R28, R33). -/
abbrev BitBuf := BitVec 16

/-- The 5-bit bit counts rd.nbits and wr.nbits (R28, R33). -/
abbrev BitCount := BitVec 5

/-- The 13-bit register eng.next_code (R30). -/
abbrev Counter := BitVec 13

/-- A byte string (R14). -/
abbrev Str := List Byte

end Sys2Proof
end

