-- ==== Sys2Proof/Syntax.lean ====
section
/-! DEFINITION. The named values of the registers (10_state.md), and the syntax: `Instr` has one constructor for
every row of spec/opcode_table.json, in the table's order. -/

namespace Sys2Proof

/-- core.mode and MODE_IN (R3, R22). -/
inductive Mode where
  | compress
  | decompress
deriving DecidableEq, Repr, Inhabited

/-- core.status (R21). -/
inductive Status where
  | idle
  | running
  | done
  | aborted
deriving DecidableEq, Repr, Inhabited

/-- core.err_code (R23). -/
inductive ErrCode where
  | none
  | corrupt
  | ioSource
  | ioSink
deriving DecidableEq, Repr, Inhabited

/-- core.err_reason (R23). -/
inductive ErrReason where
  | none
  | range
  | fresh
  | overflow
deriving DecidableEq, Repr, Inhabited

/-- rd.state (R25): R_IDLE, R_READ, R_PUT, R_EOS, R_DONE. -/
inductive RdState where
  | idle
  | read
  | put
  | eos
  | done
deriving DecidableEq, Repr, Inhabited

/-- eng.state (R25): E_IDLE, the C_ states, the D_ states, E_DONE. -/
inductive EngState where
  | idle
  | cFetch
  | cMatch
  | cEmit
  | cReset
  | cFinal
  | cEos
  | dFetch
  | dEmit
  | dEos
  | done
deriving DecidableEq, Repr, Inhabited

/-- wr.state (R25): W_IDLE, W_GET, W_EMIT, W_PAD, W_DONE. -/
inductive WrState where
  | idle
  | get
  | emit
  | pad
  | done
deriving DecidableEq, Repr, Inhabited

/-- A Node (R17): ROOT, the empty prefix, or a code. -/
inductive Node where
  | root
  | code (c : Code)
deriving DecidableEq, Repr, Inhabited

/-- The two queues (R2, R26): QA and QB. -/
inductive QueueId where
  | a
  | b
deriving DecidableEq, Repr, Inhabited

/-- A sink response (R17, R57). -/
inductive SinkAnswer where
  | ok
  | error
deriving DecidableEq, Repr, Inhabited

/-- The operations of LZW-CORE: the rows of spec/opcode_table.json, one constructor each, in the table's order.
A row's operands are what its item carries (R59): the byte or kind of a source response, the payload of a queue
element, the sink's answer, MODE_IN. An item field the spec says is ignored (the data of END and ERROR, the payload of
EOS) is no operand. A row the table marks for either mode carries the mode bit `m` of its pattern. -/
inductive Instr where
  /-- Q.INIT(q), R68. -/
  | qInit (q : QueueId)
  /-- Q.PUT(q, e), R69. -/
  | qPut (q : QueueId) (e : Elem13)
  /-- Q.GET(q), R70. -/
  | qGet (q : QueueId)
  /-- DICT.INIT, R80. -/
  | dictInit
  /-- DICT.FIND(n, x), R81. -/
  | dictFind (n : Node) (x : Byte)
  /-- DICT.ADD(n, x), R82; its n is a code, never ROOT. -/
  | dictAdd (n : Code) (x : Byte)
  /-- DICT.RESET, R83. -/
  | dictReset
  /-- D_ADD(p), R119, for the non-empty string p = first :: rest. -/
  | dAdd (first : Byte) (rest : Str)
  /-- RD.RAW_BYTE, R129, on the source response BYTE(b). -/
  | rdRawByte (b : Byte)
  /-- RD.RAW_END, R130. -/
  | rdRawEnd
  /-- RD.SRC_ERROR, R131, in either mode. -/
  | rdSrcError (m : Mode)
  /-- UNPACK.BYTE, R91, on the source response BYTE(b). -/
  | unpackByte (b : Byte)
  /-- UNPACK.END, R92. -/
  | unpackEnd
  /-- RD.PUT, R132, in either mode. -/
  | rdPut (m : Mode)
  /-- RD.EOS, R133, in either mode. -/
  | rdEos (m : Mode)
  /-- C.FETCH_SYM, R96, on ITEM(v). -/
  | cFetchSym (v : Code)
  /-- C.FETCH_EOS, R97. -/
  | cFetchEos
  /-- C.MATCH_HIT, R98. -/
  | cMatchHit
  /-- C.MATCH_MISS, R99. -/
  | cMatchMiss
  /-- C.EMIT_ADD, R100. -/
  | cEmitAdd
  /-- C.EMIT_FULL, R101. -/
  | cEmitFull
  /-- C.RESET, R102. -/
  | cReset
  /-- C.FINAL, R103. -/
  | cFinal
  /-- C.EOS, R104. -/
  | cEos
  /-- D.EOS_IN, R111. -/
  | dEosIn
  /-- D.ERR_FRESH, R112, on ITEM(c). -/
  | dErrFresh (c : Code)
  /-- D.RESET, R113, on ITEM(256). -/
  | dReset
  /-- D.ERR_RANGE, R114, on ITEM(c). -/
  | dErrRange (c : Code)
  /-- D.ERR_OVERFLOW, R115, on ITEM(c). -/
  | dErrOverflow (c : Code)
  /-- D.LIT, R116, on ITEM(c) with c = b. -/
  | dLit (b : Byte)
  /-- D.SEQ, R117, on ITEM(c). -/
  | dSeq (c : Code)
  /-- D.KWK, R118, on ITEM(c). -/
  | dKwk (c : Code)
  /-- D.EMIT, R120. -/
  | dEmit
  /-- D.EOS_OUT, R121. -/
  | dEosOut
  /-- PACK.CODE, R87, on ITEM(c). -/
  | packCode (c : Code)
  /-- PACK.EOS, R89. -/
  | packEos
  /-- PACK.EMIT, R88, with the sink's answer. -/
  | packEmit (r : SinkAnswer)
  /-- PACK.FLUSH, R90, with the sink's answer. -/
  | packFlush (r : SinkAnswer)
  /-- WR.RAW_BYTE, R134, on ITEM(v). -/
  | wrRawByte (v : Code)
  /-- WR.RAW_EOS, R135. -/
  | wrRawEos
  /-- WR.RAW_EMIT, R136, with the sink's answer. -/
  | wrRawEmit (r : SinkAnswer)
  /-- START, R127, with MODE_IN. -/
  | start (m : Mode)
  /-- RST, R161. -/
  | rst
  /-- DONE, R128: the detection that ends every stage step. -/
  | done
  /-- HOST.SRC_ANSWER, R137: the response kind and data. -/
  | hostSrcAnswer (kind : BitVec 2) (data : Byte)
  /-- HOST.SNK_ANSWER, R138. -/
  | hostSnkAnswer (r : SinkAnswer)
deriving DecidableEq, Repr

end Sys2Proof
end

