-- ==== Sys2Proof/Config.lean ====
section
/-! DEFINITION. What is fixed for the machine: the constants of 00_scope.md rules R8 to R11, the alphabet of the
schedule, and the FREE VALUES, each an `opaque` constant with no body: nothing can be proved of the value of one. -/

namespace Sys2Proof

/-- FIRST_CODE = RADIX + 1 (R9). -/
abbrev firstCode : Nat := 257

/-- RESET_CODE = RADIX (R9). -/
abbrev resetCode : Code := 256

/-- MAX_CODE = 2^WIDTH - 1 (R9). -/
abbrev maxCode : Nat := 4095

/-- OBUF_DEPTH (R11): the longest string a code can stand for. -/
abbrev obufDepth : Nat := 3840

/-- The document's example queue capacity (R10): not a value of the hardware, see notes/assumptions/3.md. -/
abbrev exampleQcap : Nat := 5096

/-- Whose atomic step comes next (R7, R16, R18). READER, ENGINE and WRITER take the step their own registers name; a
READER in R_READ and a WRITER at a sink write take theirs together with the HOST's next answer. The other turns are
the HOST's own: START with MODE_IN, RST, and an answer the HOST gives of its own accord (R139).
DESIGN CHOICE (notes/assumptions/1.md): the interleaving the spec leaves free is data. -/
inductive Turn where
  | reader
  | engine
  | writer
  | start (m : Mode)
  | rst
  | srcAnswer (w : SrcWord)
  | snkAnswer (r : SinkAnswer)
deriving DecidableEq, Repr, Inhabited

/-- The registers that hold an unspecified value after RST, and some of them after START (R37, R38). -/
inductive FreeReg where
  | qaHead
  | qaTail
  | qaFree
  | qaFilled
  | qbHead
  | qbTail
  | qbFree
  | qbFilled
  | rdAcc
  | rdNbits
  | rdLatch
  | engCur
  | engSym
  | engNextCode
  | engPrev
  | engFresh
  | engObuf
  | engOidx
  | wrAcc
  | wrNbits
  | wrByte
deriving DecidableEq, Repr, Inhabited

/-- A dictionary entry (R30): DICT[k] = (parent, symbol), 20 bits. -/
structure DictEntry where
  parent : Code
  symbol : Byte
deriving DecidableEq, Repr, Inhabited

namespace Config

/-- Free value (log 5): `w` bits for register `r` at draw `n`. -/
opaque freeBits (w : Nat) (r : FreeReg) (n : Nat) : BitVec w

/-- Free value (log 5): a number for register `r` at draw `n`. -/
opaque freeNat (r : FreeReg) (n : Nat) : Nat

/-- Free value (log 5): a byte string for register `r` at draw `n`. -/
opaque freeStr (r : FreeReg) (n : Nat) : Str

/-- Free value (log 6): what slot `k` of queue `q`'s buffer holds before it is written; `gen` is the draw at which the
buffer last became unspecified. -/
opaque freeElem (q : QueueId) (gen k : Nat) : Elem13

/-- Free value (log 6): what DICT[k] holds before it is written. -/
opaque freeEntry (gen k : Nat) : DictEntry

/-- Free value (log 6): what T[k] holds before it is written. -/
opaque freeTableStr (gen k : Nat) : Str

/-- Free value (log 1): whose step comes next where the state's own schedule has run out. -/
opaque freeTurn (n : Nat) : Turn

end Config

end Sys2Proof
end

