-- ==== Sys2Proof/WellFormed.lean ====
section
/-! DEFINITION. Which operands an operation can carry: what the spec says of its item, apart from the state it runs in. -/

namespace Sys2Proof

/-- ELEM13 with TAG = 1 carries PAYLOAD 0 when it is produced (R56, R64b). -/
def wfElem (e : Elem13) : Bool := e.toNat ≤ 4096

/-- A node is ROOT or a code other than 256: 256 is never a node (R77). -/
def wfNode : Node → Bool
  | .root => true
  | .code c => c != resetCode

/-- The payload of a byte item has bits 11:8 zero (R60). -/
def wfBytePayload (v : Code) : Bool := v.toNat ≤ 255

/-- A SEQ code is 257..4095 (R55). -/
def wfSeqCode (c : Code) : Bool := firstCode ≤ c.toNat

/-- Well-formed operands, constructor by constructor. -/
def WellFormed : Instr → Bool
  | .qInit _ => true
  | .qPut _ e => wfElem e
  | .qGet _ => true
  | .dictInit => true
  | .dictFind n _ => wfNode n
  | .dictAdd n _ => wfNode (.code n)
  | .dictReset => true
  | .dAdd _ rest => decide (rest.length < obufDepth)
  | .rdRawByte _ => true
  | .rdRawEnd => true
  | .rdSrcError _ => true
  | .unpackByte _ => true
  | .unpackEnd => true
  | .rdPut _ => true
  | .rdEos _ => true
  | .cFetchSym v => wfBytePayload v
  | .cFetchEos => true
  | .cMatchHit => true
  | .cMatchMiss => true
  | .cEmitAdd => true
  | .cEmitFull => true
  | .cReset => true
  | .cFinal => true
  | .cEos => true
  | .dEosIn => true
  | .dErrFresh c => decide (256 ≤ c.toNat)
  | .dReset => true
  | .dErrRange c => wfSeqCode c
  | .dErrOverflow c => c != resetCode
  | .dLit _ => true
  | .dSeq c => wfSeqCode c && decide (c.toNat < maxCode)
  | .dKwk c => wfSeqCode c
  | .dEmit => true
  | .dEosOut => true
  | .packCode _ => true
  | .packEos => true
  | .packEmit _ => true
  | .packFlush _ => true
  | .wrRawByte v => wfBytePayload v
  | .wrRawEos => true
  | .wrRawEmit _ => true
  | .start _ => true
  | .rst => true
  | .done => true
  | .hostSrcAnswer k _ => k != 3
  | .hostSnkAnswer _ => true

end Sys2Proof
end

