-- ==== Sys2Proof/Decode.lean ====
section
/-! DEFINITION. The encodings (30_encoding.md): the bits of every register value and item, the opcode tuple of rule R61,
its decoder, the encoder back, and the reading of a bare opcode-table word. -/

namespace Sys2Proof

/-! ## Items: ELEM13, SRCRESP, SNKRESP -/

/-- zext_12 of a byte (R56). -/
def zextCode (b : Byte) : Code := b.setWidth 12

/-- zext_13 of a 12-bit code, for comparison with eng.next_code. -/
def zextCounter (c : Code) : Counter := c.setWidth 13

/-- TAG, bit 12 of an ELEM13 (R56). -/
def elemTag (e : Elem13) : Bool := e.getLsbD 12

/-- PAYLOAD, bits 11:0 of an ELEM13 (R56). -/
def elemPayload (e : Elem13) : Code := e.setWidth 12

/-- v[7:0] of a payload: the byte of a byte item (R44, R59). -/
def payloadByte (v : Code) : Byte := v.setWidth 8

/-- ITEM(v): TAG = 0 (R56). -/
def itemElem (v : Code) : Elem13 := v.setWidth 13

/-- EOS: TAG = 1 and PAYLOAD = 0 (R56). -/
def eosElem : Elem13 := 4096

/-- kind, bits 9:8 of a SRCRESP (R57). -/
def srcKind (w : SrcWord) : BitVec 2 := w.extractLsb' 8 2

/-- data, bits 7:0 of a SRCRESP (R57). -/
def srcData (w : SrcWord) : Byte := w.setWidth 8

/-- The concatenation kind, data (R57). -/
def srcWord (kind : BitVec 2) (data : Byte) : SrcWord := kind ++ data

/-- SNKRESP: OK = 0, ERROR = 1 (R57). -/
def sinkBit : SinkAnswer → SnkWord
  | .ok => 0
  | .error => 1

/-- The sink answer a SNKRESP bit stands for (R57). -/
def sinkOfBit (b : SnkWord) : SinkAnswer := if b = 0 then .ok else .error

/-! ## Register values -/

/-- COMPRESS = 0, DECOMPRESS = 1 (R22). -/
def modeBit : Mode → BitVec 1
  | .compress => 0
  | .decompress => 1

/-- The mode of a mode bit (R22). -/
def modeOfBit (b : BitVec 1) : Mode := if b = 0 then .compress else .decompress

/-- The encoding of core.status (R21), as the STATUS port drives it. -/
def statusBits : Status → BitVec 2
  | .idle => 0
  | .running => 1
  | .done => 2
  | .aborted => 3

/-- The encoding of core.err_code (R23). -/
def errCodeBits : ErrCode → BitVec 2
  | .none => 0
  | .corrupt => 1
  | .ioSource => 2
  | .ioSink => 3

/-- The encoding of core.err_reason (R23). -/
def errReasonBits : ErrReason → BitVec 2
  | .none => 0
  | .range => 1
  | .fresh => 2
  | .overflow => 3

/-- The encoding of rd.state (R25). -/
def rdStateBits : RdState → BitVec 4
  | .idle => 0
  | .read => 1
  | .put => 2
  | .eos => 3
  | .done => 4

/-- The named value of an rd.state encoding; every other encoding is unused (R25). -/
def rdStateOfBits (b : BitVec 4) : Option RdState :=
  match b.toNat with
  | 0 => some .idle
  | 1 => some .read
  | 2 => some .put
  | 3 => some .eos
  | 4 => some .done
  | _ => none

/-- The encoding of eng.state (R25). -/
def engStateBits : EngState → BitVec 4
  | .idle => 0
  | .cFetch => 1
  | .cMatch => 2
  | .cEmit => 3
  | .cReset => 4
  | .cFinal => 5
  | .cEos => 6
  | .dFetch => 8
  | .dEmit => 9
  | .dEos => 10
  | .done => 15

/-- The named value of an eng.state encoding; every other encoding is unused (R25). -/
def engStateOfBits (b : BitVec 4) : Option EngState :=
  match b.toNat with
  | 0 => some .idle
  | 1 => some .cFetch
  | 2 => some .cMatch
  | 3 => some .cEmit
  | 4 => some .cReset
  | 5 => some .cFinal
  | 6 => some .cEos
  | 8 => some .dFetch
  | 9 => some .dEmit
  | 10 => some .dEos
  | 15 => some .done
  | _ => none

/-- The encoding of wr.state (R25). -/
def wrStateBits : WrState → BitVec 4
  | .idle => 0
  | .get => 1
  | .emit => 2
  | .pad => 3
  | .done => 4

/-- The named value of a wr.state encoding; every other encoding is unused (R25). -/
def wrStateOfBits (b : BitVec 4) : Option WrState :=
  match b.toNat with
  | 0 => some .idle
  | 1 => some .get
  | 2 => some .emit
  | 3 => some .pad
  | 4 => some .done
  | _ => none

/-- The 13-bit encoding of eng.cur: ROOT = 0x1000, a code as itself (R30). -/
def nodeBits : Node → BitVec 13
  | .root => 4096
  | .code c => c.setWidth 13

/-- The node of a 13-bit encoding with bit 12 as the mark of ROOT (R30; 0x1001 to 0x1FFF are unused). -/
def nodeOfBits (b : BitVec 13) : Node := if b.getLsbD 12 then .root else .code (b.setWidth 12)

/-! ## The decompressor's classes (R62) -/

/-- The eight classes of an element got in D_FETCH (R62). -/
inductive DClass where
  | eosIn
  | errFresh
  | reset
  | errRange
  | errOverflow
  | lit
  | seq
  | kwk
deriving DecidableEq, Repr

/-- R62: the first matching line wins. -/
def classify (e : Elem13) (fresh prevEmpty : Bool) (nextCode : Counter) : DClass :=
  let c := (elemPayload e).toNat
  let n := nextCode.toNat
  if elemTag e = true then .eosIn
  else if fresh = true ∧ 256 ≤ c then .errFresh
  else if c = 256 then .reset
  else if 257 ≤ c ∧ (prevEmpty = true ∨ n < c) then .errRange
  else if prevEmpty = false ∧ n = 4096 then .errOverflow
  else if c ≤ 255 then .lit
  else if c < n then .seq
  else .kwk

/-! ## The opcode tuple (R61) -/

/-- What R61 calls the guard on ENGINE's registers: the answer of DICT.FIND(eng.cur, eng.sym), eng.fresh, whether
eng.prev is empty, and eng.next_code. -/
structure Guard where
  hit : Bool
  fresh : Bool
  prevEmpty : Bool
  nextCode : Counter
deriving DecidableEq, Repr

/-- The tuple (agent, mode, FSM state, input item, guard) that selects an operation (R61), field by field in the spec's
own encodings. An item that is not there (an empty queue, a host that has not answered) is `none`. -/
inductive Opcode where
  | reader (mode : BitVec 1) (state : BitVec 4) (resp : Option SrcWord)
  | engine (mode : BitVec 1) (state : BitVec 4) (elem : Option Elem13) (guard : Guard)
  | writer (mode : BitVec 1) (state : BitVec 4) (elem : Option Elem13) (answer : Option SnkWord)
  | start (modeIn : BitVec 1)
  | rst
  | srcAnswer (w : SrcWord)
  | snkAnswer (b : SnkWord)
deriving DecidableEq, Repr

/-- Why a tuple selects no operation. -/
inductive NoOperation where
  /-- an IDLE or DONE state has no step (R61) -/
  | stateHasNoStep
  /-- an encoding R25 leaves unused -/
  | unusedState
  /-- a C_ state in DECOMPRESS mode, a D_ state or W_PAD in the mode that has none (R25, R61) -/
  | stateOfOtherMode
  /-- SRCRESP kind 3 (R64c) -/
  | unusedKind
  /-- no element to get, or no answer from the host (R16, R70, R137, R138) -/
  | itemMissing
deriving DecidableEq, Repr

/-- R61, READER in R_READ: the kind of the source response selects. -/
def decodeSource (m : Mode) (w : SrcWord) : Except NoOperation Instr :=
  match (srcKind w).toNat with
  | 0 => .ok (match m with
      | .compress => .rdRawByte (srcData w)
      | .decompress => .unpackByte (srcData w))
  | 1 => .ok (match m with
      | .compress => .rdRawEnd
      | .decompress => .unpackEnd)
  | 2 => .ok (.rdSrcError m)
  | _ => .error .unusedKind

/-- R61, READER. -/
def decodeReader (m : Mode) (st : RdState) (resp : Option SrcWord) : Except NoOperation Instr :=
  match st with
  | .idle => .error .stateHasNoStep
  | .read => match resp with
      | some w => decodeSource m w
      | none => .error .itemMissing
  | .put => .ok (.rdPut m)
  | .eos => .ok (.rdEos m)
  | .done => .error .stateHasNoStep

/-- R61 and R62, ENGINE in D_FETCH: the class of the element selects. -/
def decodeClass (e : Elem13) (g : Guard) : Instr :=
  match classify e g.fresh g.prevEmpty g.nextCode with
  | .eosIn => .dEosIn
  | .errFresh => .dErrFresh (elemPayload e)
  | .reset => .dReset
  | .errRange => .dErrRange (elemPayload e)
  | .errOverflow => .dErrOverflow (elemPayload e)
  | .lit => .dLit (payloadByte (elemPayload e))
  | .seq => .dSeq (elemPayload e)
  | .kwk => .dKwk (elemPayload e)

/-- R61, ENGINE in COMPRESS mode. -/
def decodeCompress (st : EngState) (elem : Option Elem13) (g : Guard) : Except NoOperation Instr :=
  match st with
  | .idle => .error .stateHasNoStep
  | .cFetch => match elem with
      | some e => .ok (if elemTag e = true then .cFetchEos else .cFetchSym (elemPayload e))
      | none => .error .itemMissing
  | .cMatch => .ok (if g.hit = true then .cMatchHit else .cMatchMiss)
  | .cEmit => .ok (if g.nextCode.toNat ≤ 4095 then .cEmitAdd else .cEmitFull)
  | .cReset => .ok .cReset
  | .cFinal => .ok .cFinal
  | .cEos => .ok .cEos
  | .dFetch => .error .stateOfOtherMode
  | .dEmit => .error .stateOfOtherMode
  | .dEos => .error .stateOfOtherMode
  | .done => .error .stateHasNoStep

/-- R61, ENGINE in DECOMPRESS mode. -/
def decodeDecompress (st : EngState) (elem : Option Elem13) (g : Guard) : Except NoOperation Instr :=
  match st with
  | .idle => .error .stateHasNoStep
  | .cFetch => .error .stateOfOtherMode
  | .cMatch => .error .stateOfOtherMode
  | .cEmit => .error .stateOfOtherMode
  | .cReset => .error .stateOfOtherMode
  | .cFinal => .error .stateOfOtherMode
  | .cEos => .error .stateOfOtherMode
  | .dFetch => match elem with
      | some e => .ok (decodeClass e g)
      | none => .error .itemMissing
  | .dEmit => .ok .dEmit
  | .dEos => .ok .dEosOut
  | .done => .error .stateHasNoStep

/-- R61, WRITER. -/
def decodeWriter (m : Mode) (st : WrState) (elem : Option Elem13) (answer : Option SnkWord) :
    Except NoOperation Instr :=
  match st with
  | .idle => .error .stateHasNoStep
  | .get => match elem with
      | some e => .ok (match m with
          | .compress => if elemTag e = true then .packEos else .packCode (elemPayload e)
          | .decompress => if elemTag e = true then .wrRawEos else .wrRawByte (elemPayload e))
      | none => .error .itemMissing
  | .emit => match answer with
      | some b => .ok (match m with
          | .compress => .packEmit (sinkOfBit b)
          | .decompress => .wrRawEmit (sinkOfBit b))
      | none => .error .itemMissing
  | .pad => match m with
      | .compress => match answer with
          | some b => .ok (.packFlush (sinkOfBit b))
          | none => .error .itemMissing
      | .decompress => .error .stateOfOtherMode
  | .done => .error .stateHasNoStep

/-- The decoder, total on every tuple of bits: an operation, or by name why there is none. -/
def decode : Opcode → Except NoOperation Instr
  | .reader m st resp => match rdStateOfBits st with
      | some r => decodeReader (modeOfBit m) r resp
      | none => .error .unusedState
  | .engine m st elem g => match engStateOfBits st with
      | some e => match modeOfBit m with
          | .compress => decodeCompress e elem g
          | .decompress => decodeDecompress e elem g
      | none => .error .unusedState
  | .writer m st elem answer => match wrStateOfBits st with
      | some w => decodeWriter (modeOfBit m) w elem answer
      | none => .error .unusedState
  | .start m => .ok (.start (modeOfBit m))
  | .rst => .ok .rst
  | .srcAnswer w => if srcKind w = 3 then .error .unusedKind else .ok (.hostSrcAnswer (srcKind w) (srcData w))
  | .snkAnswer b => .ok (.hostSnkAnswer (sinkOfBit b))

/-! ## The encoder -/

/-- A guard under which ENGINE's registers are as DICT.INIT leaves them (R80). -/
def plainGuard : Guard := { hit := false, fresh := false, prevEmpty := true, nextCode := 257 }

/-- The tuple of an operation, from the table's state, mode, item and guard columns. Where the guard admits several
register values, the one written is the least that selects the operation. The sub-operations and DONE have no encoding
(the table's "-"): R68 to R128 give them no step of their own. -/
def encode : Instr → Option Opcode
  | .qInit _ => none
  | .qPut _ _ => none
  | .qGet _ => none
  | .dictInit => none
  | .dictFind _ _ => none
  | .dictAdd _ _ => none
  | .dictReset => none
  | .dAdd _ _ => none
  | .rdRawByte b => some (.reader 0 1 (some (srcWord 0 b)))
  | .rdRawEnd => some (.reader 0 1 (some (srcWord 1 0)))
  | .rdSrcError m => some (.reader (modeBit m) 1 (some (srcWord 2 0)))
  | .unpackByte b => some (.reader 1 1 (some (srcWord 0 b)))
  | .unpackEnd => some (.reader 1 1 (some (srcWord 1 0)))
  | .rdPut m => some (.reader (modeBit m) 2 none)
  | .rdEos m => some (.reader (modeBit m) 3 none)
  | .cFetchSym v => some (.engine 0 1 (some (itemElem v)) plainGuard)
  | .cFetchEos => some (.engine 0 1 (some eosElem) plainGuard)
  | .cMatchHit => some (.engine 0 2 none { plainGuard with hit := true })
  | .cMatchMiss => some (.engine 0 2 none plainGuard)
  | .cEmitAdd => some (.engine 0 3 none plainGuard)
  | .cEmitFull => some (.engine 0 3 none { plainGuard with nextCode := 4096 })
  | .cReset => some (.engine 0 4 none plainGuard)
  | .cFinal => some (.engine 0 5 none plainGuard)
  | .cEos => some (.engine 0 6 none plainGuard)
  | .dEosIn => some (.engine 1 8 (some eosElem) plainGuard)
  | .dErrFresh c => some (.engine 1 8 (some (itemElem c)) { plainGuard with fresh := true })
  | .dReset => some (.engine 1 8 (some (itemElem resetCode)) plainGuard)
  | .dErrRange c => some (.engine 1 8 (some (itemElem c)) plainGuard)
  | .dErrOverflow c => some (.engine 1 8 (some (itemElem c)) { plainGuard with prevEmpty := false, nextCode := 4096 })
  | .dLit b => some (.engine 1 8 (some (itemElem (zextCode b))) plainGuard)
  | .dSeq c =>
      some (.engine 1 8 (some (itemElem c)) { plainGuard with prevEmpty := false, nextCode := zextCounter c + 1 })
  | .dKwk c => some (.engine 1 8 (some (itemElem c)) { plainGuard with prevEmpty := false, nextCode := zextCounter c })
  | .dEmit => some (.engine 1 9 none plainGuard)
  | .dEosOut => some (.engine 1 10 none plainGuard)
  | .packCode c => some (.writer 0 1 (some (itemElem c)) none)
  | .packEos => some (.writer 0 1 (some eosElem) none)
  | .packEmit r => some (.writer 0 2 none (some (sinkBit r)))
  | .packFlush r => some (.writer 0 3 none (some (sinkBit r)))
  | .wrRawByte v => some (.writer 1 1 (some (itemElem v)) none)
  | .wrRawEos => some (.writer 1 1 (some eosElem) none)
  | .wrRawEmit r => some (.writer 1 2 none (some (sinkBit r)))
  | .start m => some (.start (modeBit m))
  | .rst => some .rst
  | .done => none
  | .hostSrcAnswer k d => some (.srcAnswer (srcWord k d))
  | .hostSnkAnswer r => some (.snkAnswer (sinkBit r))

/-! ## Bare opcode-table words

A row of the table gives only its item's bits, or its (mode, state) pattern: rows of different agents, modes and guards
share a word, and R61 needs the rest of the tuple to tell them apart. Read alone, a word is taken as the FIRST row of the
table that it fits (notes/assumptions/9.md). -/

/-- A SRCRESP or ELEM13 word, in two bytes: the first rows are READER's in COMPRESS mode, R_READ; a word that is no used
SRCRESP is an ELEM13, whose first rows are ENGINE's in COMPRESS mode, C_FETCH. -/
def itemOpcode (w : Nat) : Option Opcode :=
  if w < 768 then some (.reader 0 1 (some (BitVec.ofNat 10 w)))
  else if w < 8192 then some (.engine 0 1 (some (BitVec.ofNat 13 w)) plainGuard)
  else none

/-- A pattern of (mode, state) or a port bit, in one byte: m0010 and m0011 are READER's, the rest ENGINE's; of one-bit
words START's MODE_IN comes first. -/
def patternOpcode (w : Nat) : Option Opcode :=
  match w with
  | 0 => some (.start 0)
  | 1 => some (.start 1)
  | 2 => some (.reader 0 2 none)
  | 3 => some (.reader 0 3 none)
  | 4 => some (.engine 0 4 none plainGuard)
  | 5 => some (.engine 0 5 none plainGuard)
  | 6 => some (.engine 0 6 none plainGuard)
  | 18 => some (.reader 1 2 none)
  | 19 => some (.reader 1 3 none)
  | 25 => some (.engine 1 9 none plainGuard)
  | 26 => some (.engine 1 10 none plainGuard)
  | _ => none

/-- The tuple a table word stands for: `nbits` is the row's size in whole bytes. -/
def tableOpcode (nbits w : Nat) : Option Opcode :=
  if nbits = 16 then itemOpcode w else if nbits = 8 then patternOpcode w else none

/-- The instruction the decoder reads from a table word. -/
def decodeTableWord (nbits w : Nat) : Option Instr :=
  match tableOpcode nbits w with
  | some op => match decode op with
      | .ok i => some i
      | .error _ => none
  | none => none

end Sys2Proof
end

