-- ==== Sys2Proof/Machine/State.lean ====
section
/-! DEFINITION. The state of LZW-CORE as plain data (10_state.md), the reasons a step can stop, and the state after
reset. -/

namespace Sys2Proof.Machine

/-- An internal array (20_memory.md R40): the slots written since its contents last became unspecified, as
(index, value) pairs with indexes strictly rising, and the draw `gen` at which they became so. A slot that is not
listed reads as a free value of `gen` and its index (log 6). -/
structure Slots (α : Type) where
  gen : Nat
  cells : List (Nat × α)
deriving DecidableEq, Repr

/-- The core control and status registers (R21 to R23). -/
structure CoreRegs where
  status : Status
  mode : Mode
  errCode : ErrCode
  errReason : ErrReason
  errInfo : Code
deriving DecidableEq, Repr

/-- A queue (R26). -/
structure Queue where
  buf : Slots Elem13
  head : Nat
  tail : Nat
  free : Nat
  filled : Nat
deriving DecidableEq, Repr

/-- READER's registers (R25, R28). -/
structure Reader where
  state : RdState
  acc : BitBuf
  nbits : BitCount
  latch : Code
deriving DecidableEq, Repr

/-- ENGINE's registers and tables, both modes (R25, R30, R31). -/
structure Engine where
  state : EngState
  cur : Node
  sym : Byte
  nextCode : Counter
  dict : Slots DictEntry
  table : Slots Str
  prev : Str
  fresh : Bool
  obuf : Str
  oidx : BitVec 12
deriving DecidableEq, Repr

/-- WRITER's registers (R25, R33). -/
structure Writer where
  state : WrState
  acc : BitBuf
  nbits : BitCount
  byte : Byte
deriving DecidableEq, Repr

/-- The HOST's side (R137 to R139; log 1 and log 2): the source responses and sink answers still to come, the bytes the
sink has accepted, and whose step comes next. -/
structure HostSide where
  src : List SrcWord
  snk : List SinkAnswer
  out : List Byte
  turns : List Turn
deriving DecidableEq, Repr

/-- What a sub-operation row run on its own returned (R70, R81, R82; log 7). -/
inductive SubResult where
  | none
  | elem (e : Elem13)
  | hit (k : Code)
  | miss
  | newCode (k : Code)
deriving DecidableEq, Repr

/-- Everything the spec gives the machine, with the model's own fields `draws` and `ret` and the parameter `qcap`. -/
structure State where
  core : CoreRegs
  qa : Queue
  qb : Queue
  rd : Reader
  eng : Engine
  wr : Writer
  qcap : Nat
  host : HostSide
  draws : Nat
  ret : SubResult
deriving DecidableEq, Repr

/-- Why a step can stop with a fault. LZW-CORE itself has no such stop: each fault it detects is an abort, a next state
(R149). Both reasons are an operand the spec does not define, met in no state a job reaches (log 12). -/
inductive Fault where
  /-- raised by C.EMIT_ADD, C.EMIT_FULL and C.FINAL where eng.cur = ROOT, which is no code; safe -/
  | rootHasNoCode
  /-- raised by D.EMIT where eng.oidx is at or past the end of eng.obuf, and by D.SEQ where it must take the first byte
  of an empty T[c]: s[i] is not defined there (R14); safe -/
  | stringIndex
deriving DecidableEq, Repr

/-- Why a step can be refused. -/
inductive Refusal where
  /-- raised by exec's arm of an instruction that has no meaning yet; safe -/
  | notModelled (mnemonic : String)
  /-- raised by every step, by START and by Q.INIT where QCAP = 0, which is no configuration of LZW-CORE (R148); safe -/
  | zeroCapacity
deriving DecidableEq, Repr

/-- The outcome of one step. -/
abbrev Out := Host.Outcome State Fault Refusal

/-- An array of which no slot has been written since draw `n`. -/
def Slots.unwritten {α : Type} (n : Nat) : Slots α := { gen := n, cells := [] }

/-- A queue as State.reset has it (log 4). -/
def Queue.reset : Queue :=
  { buf := Slots.unwritten 0, head := 0, tail := 0, free := exampleQcap, filled := 0 }

/-- The machine right after reset. R37 gives core.* and the three FSM state registers; every other value is the model's
own (log 3, log 4, log 6). No schedule, no source response and no sink answer stands ready. -/
def State.reset : State :=
  { core := { status := .idle, mode := .compress, errCode := .none, errReason := .none, errInfo := 0 }
    qa := Queue.reset
    qb := Queue.reset
    rd := { state := .idle, acc := 0, nbits := 0, latch := 0 }
    eng := { state := .idle, cur := .root, sym := 0, nextCode := 257, dict := Slots.unwritten 0,
             table := Slots.unwritten 0, prev := [], fresh := false, obuf := [], oidx := 0 }
    wr := { state := .idle, acc := 0, nbits := 0, byte := 0 }
    qcap := exampleQcap
    host := { src := [], snk := [], out := [], turns := [] }
    draws := 1
    ret := .none }

/-! ## Updates, one per part of the state -/

/-- Write the core registers. -/
def State.setCore (s : State) (c : CoreRegs) : State := { s with core := c }
/-- Write READER's registers. -/
def State.setRd (s : State) (r : Reader) : State := { s with rd := r }
/-- Write ENGINE's registers and tables. -/
def State.setEng (s : State) (e : Engine) : State := { s with eng := e }
/-- Write WRITER's registers. -/
def State.setWr (s : State) (w : Writer) : State := { s with wr := w }
/-- Write the HOST's side. -/
def State.setHost (s : State) (h : HostSide) : State := { s with host := h }
/-- Record what a sub-operation returned. -/
def State.setRet (s : State) (r : SubResult) : State := { s with ret := r }
/-- Write a queue. -/
def State.setQueue (s : State) : QueueId → Queue → State
  | .a, q => { s with qa := q }
  | .b, q => { s with qb := q }

/-- The queue of a name. -/
def State.queue (s : State) : QueueId → Queue
  | .a => s.qa
  | .b => s.qb

/-! ## The host-visible output ports (R24) -/

/-- STATUS. -/
def State.statusPort (s : State) : BitVec 2 := statusBits s.core.status
/-- ERR_CODE. -/
def State.errCodePort (s : State) : BitVec 2 := errCodeBits s.core.errCode
/-- ERR_REASON. -/
def State.errReasonPort (s : State) : BitVec 2 := errReasonBits s.core.errReason
/-- ERR_INFO. -/
def State.errInfoPort (s : State) : Code := s.core.errInfo

end Sys2Proof.Machine
end

