-- ==== Sys2Proof/Machine/Operands.lean ====
section
/-! DEFINITION. Operand assembly (30_encoding.md R59) and the bit-buffer arithmetic of the packer and the unpacker
(42_bitpack.md), on fixed-width words as 00_scope.md R13 allows (log 13). -/

namespace Sys2Proof.Machine

/-- `acc & (2^nbits - 1)`. -/
def keepLow (acc : BitBuf) (nbits : BitCount) : BitBuf := acc &&& ((1#16 <<< nbits.toNat) - 1#16)

/-- `(acc << 12) | c` (R87). -/
def pushCode (acc : BitBuf) (c : Code) : BitBuf := (acc <<< 12) ||| c.setWidth 16

/-- `(acc << 8) | b` (R91). -/
def pushByte (acc : BitBuf) (b : Byte) : BitBuf := (acc <<< 8) ||| b.setWidth 16

/-- The packed byte `(wr.acc >> (wr.nbits - 8)) & 0xFF`: the top 8 valid bits (R59, R88). -/
def packedByte (acc : BitBuf) (nbits : BitCount) : Byte := (acc >>> (nbits - 8).toNat).setWidth 8

/-- The final byte `(wr.acc << (8 - wr.nbits)) & 0xFF` (R90). -/
def paddedByte (acc : BitBuf) (nbits : BitCount) : Byte := (acc <<< (8 - nbits).toNat).setWidth 8

/-- The unpacked code `(rd.acc >> (rd.nbits - 12)) & 0xFFF`: the top 12 valid bits (R59, R91). -/
def unpackedCode (acc : BitBuf) (nbits : BitCount) : Code := (acc >>> (nbits - 12).toNat).setWidth 12

end Sys2Proof.Machine
end

