-- ==== Sys2Proof/Machine/Flags.lean ====
section
/-! DEFINITION. The flags of LZW-CORE (10_state.md R35): where each agent stands, the queues' full and empty conditions,
and DONE detection (45_pipeline.md R128). -/

namespace Sys2Proof.Machine

/-- READER is in `st` of a running job of mode `m` (R16, R21). -/
abbrev readerAt (s : State) (m : Mode) (st : RdState) : Prop :=
  s.core.status = .running ∧ s.core.mode = m ∧ s.rd.state = st

/-- ENGINE is in `st` of a running job of mode `m`. -/
abbrev engineAt (s : State) (m : Mode) (st : EngState) : Prop :=
  s.core.status = .running ∧ s.core.mode = m ∧ s.eng.state = st

/-- WRITER is in `st` of a running job of mode `m`. -/
abbrev writerAt (s : State) (m : Mode) (st : WrState) : Prop :=
  s.core.status = .running ∧ s.core.mode = m ∧ s.wr.state = st

/-- All three stages are in their DONE states (R128). -/
abbrev allDone (s : State) : Prop := s.rd.state = .done ∧ s.eng.state = .done ∧ s.wr.state = .done

/-- A put is enabled: `q.free > 0` (R69). -/
abbrev canPut (s : State) (q : QueueId) : Prop := 0 < (s.queue q).free

/-- A get is enabled: `q.filled > 0` (R70). -/
abbrev canGet (s : State) (q : QueueId) : Prop := 0 < (s.queue q).filled

/-- DONE detection (R128): `if rd.state = R_DONE and eng.state = E_DONE and wr.state = W_DONE then status <- DONE`. -/
def detectDone (s : State) : State :=
  if allDone s then s.setCore { s.core with status := .done } else s

end Sys2Proof.Machine
end

