-- ==== Sys2Proof/Machine/Ops.lean ====
section
/-! DEFINITION. The primitives every step is made of (00_scope.md R15): array reads and writes, the queues, the
dictionary, the string table, the two transactions with the host, and `raise Abort` (60_exceptions.md R149). -/

namespace Sys2Proof.Machine

/-! ## Internal arrays (R40) -/

/-- The value listed at index `k`. -/
def lookupCell {α : Type} : List (Nat × α) → Nat → Option α
  | [], _ => none
  | (i, v) :: rest, k => if i = k then some v else lookupCell rest k

/-- Write index `k`, keeping the indexes strictly rising. -/
def insertCell {α : Type} : List (Nat × α) → Nat → α → List (Nat × α)
  | [], k, v => [(k, v)]
  | (i, w) :: rest, k, v =>
      if k < i then (k, v) :: (i, w) :: rest
      else if k = i then (k, v) :: rest
      else (i, w) :: insertCell rest k v

/-- The canonical form: indexes strictly rising. No value is what an unlisted slot is known to read as, so every
written slot stays listed. -/
abbrev Memory.cellsWf {α : Type} (cells : List (Nat × α)) : Prop := cells.Pairwise (fun a b => a.1 < b.1)

/-- `A[k] <- v`. -/
def Slots.write {α : Type} (a : Slots α) (k : Nat) (v : α) : Slots α := { a with cells := insertCell a.cells k v }

/-- Every internal array is in its canonical form. -/
abbrev Memory.wf (s : State) : Prop :=
  Memory.cellsWf s.qa.buf.cells ∧ Memory.cellsWf s.qb.buf.cells ∧ Memory.cellsWf s.eng.dict.cells ∧
    Memory.cellsWf s.eng.table.cells

/-- Read slot `k` of queue `id`'s buffer: what was written there, or a free value. -/
def Queue.slot (id : QueueId) (q : Queue) (k : Nat) : Elem13 :=
  (lookupCell q.buf.cells k).getD (Config.freeElem id q.buf.gen k)

/-- DICT[k]. -/
def State.dictAt (s : State) (k : Nat) : DictEntry :=
  (lookupCell s.eng.dict.cells k).getD (Config.freeEntry s.eng.dict.gen k)

/-- T[k]. -/
def State.tableAt (s : State) (k : Nat) : Str :=
  (lookupCell s.eng.table.cells k).getD (Config.freeTableStr s.eng.table.gen k)

/-! ## A step that is not enabled, and the abort -/

/-- R16: a step whose enabling condition is false does not happen; the agent is blocked, and it is not faulted. -/
def noStep (s : State) : Out := .next s

/-- R149, the one fault entry: the error registers and core.status, and nothing else of the block. -/
def State.abort (s : State) (code : ErrCode) (reason : ErrReason) (info : Code) : State :=
  s.setCore { s.core with errCode := code, errReason := reason, errInfo := info, status := .aborted }

/-! ## Queues (40_queue.md) -/

/-- Q.INIT (R68); the buffer's contents become unspecified. -/
def State.qInit (s : State) (id : QueueId) : State :=
  { s.setQueue id { buf := Slots.unwritten s.draws, head := 0, tail := 0, free := s.qcap, filled := 0 } with
    draws := s.draws + 1 }

/-- Q.PUT (R69), where it is enabled. -/
def State.qPut (s : State) (id : QueueId) (e : Elem13) : State :=
  let q := s.queue id
  s.setQueue id { q with
    free := q.free - 1
    buf := q.buf.write q.tail e
    tail := (q.tail + 1) % s.qcap
    filled := q.filled + 1 }

/-- Q.GET's effect on the queue (R70), where it is enabled. -/
def State.qGet (s : State) (id : QueueId) : State :=
  let q := s.queue id
  s.setQueue id { q with
    filled := q.filled - 1
    head := (q.head + 1) % s.qcap
    free := q.free + 1 }

/-- The element Q.GET returns (R70): the one at the head. -/
def State.front (s : State) (id : QueueId) : Elem13 := (s.queue id).slot id (s.queue id).head

/-- The element a get would return, if there is one. -/
def State.peek (s : State) (id : QueueId) : Option Elem13 := if canGet s id then some (s.front id) else none

/-- The queue's contents in order (R27). -/
def State.contents (s : State) (id : QueueId) : List Elem13 :=
  (List.range (s.queue id).filled).map fun i => (s.queue id).slot id (((s.queue id).head + i) % s.qcap)

/-- The next get returns ITEM(v). -/
abbrev State.holdsItem (s : State) (id : QueueId) (v : Code) : Prop := s.peek id = some (itemElem v)

/-- The next get returns an element with TAG = 1, whatever its payload (R56). -/
abbrev State.holdsEos (s : State) (id : QueueId) : Prop := (s.peek id).map elemTag = some true

/-! ## The dictionary (41_dictionary.md) -/

/-- DICT.INIT (R80). -/
def State.dictInit (s : State) : State := s.setEng { s.eng with nextCode := 257 }

/-- DICT.RESET (R83): the entries stay in their slots, stale. -/
def State.dictReset (s : State) : State := s.setEng { s.eng with nextCode := 257 }

/-- DICT.FIND(n, x) (R81): HIT as the code, MISS as none. The first of several matching entries is taken; rule R85 says
there is at most one. -/
def State.dictFind (s : State) (n : Node) (x : Byte) : Option Code :=
  match n with
  | .root => some (zextCode x)
  | .code c =>
      ((List.range' firstCode (s.eng.nextCode.toNat - firstCode)).find? fun k =>
        decide (s.dictAt k = { parent := c, symbol := x })).map (BitVec.ofNat 12)

/-- DICT.ADD(n, x) (R82), where it is allowed. -/
def State.dictAdd (s : State) (n : Code) (x : Byte) : State :=
  s.setEng { s.eng with
    dict := s.eng.dict.write s.eng.nextCode.toNat { parent := n, symbol := x }
    nextCode := s.eng.nextCode + 1 }

/-! ## The decompressor's string table (44_decompress.md) -/

/-- D_ADD(p) (R119), where it is allowed; only p's first byte is used. -/
def State.dAdd (s : State) (first : Byte) : State :=
  if s.eng.prev = [] then s
  else s.setEng { s.eng with
    table := s.eng.table.write s.eng.nextCode.toNat (s.eng.prev ++ [first])
    nextCode := s.eng.nextCode + 1 }

/-- What D.LIT, D.SEQ and D.KWK do with the decoded string p = first :: rest (R116 to R118). -/
def State.dDecoded (s : State) (first : Byte) (rest : Str) : State :=
  let t := s.dAdd first
  t.setEng { t.eng with
    prev := first :: rest, fresh := false, obuf := first :: rest, oidx := 0, state := .dEmit }

/-- The class (R62) of the element the next D.FETCH gets, if there is one. -/
def State.dClass (s : State) : Option DClass :=
  (s.peek .a).map fun e => classify e s.eng.fresh s.eng.prev.isEmpty s.eng.nextCode

/-! ## Transactions with the host (R137, R138) -/

/-- The response SourceRead() returns when READER takes its step now. -/
def State.sourceNext (s : State) : Option SrcWord := s.host.src.head?

/-- SourceRead() consumes one position of the host's input (R47). -/
def State.sourceRead (s : State) : State := s.setHost { s.host with src := s.host.src.tail }

/-- The answer SinkWrite(b) returns when WRITER takes its step now. -/
def State.sinkNext (s : State) : Option SinkAnswer := s.host.snk.head?

/-- SinkWrite(b) answered `r` (R138): with OK the byte is appended to the output, with ERROR it is not. -/
def State.sinkWrite (s : State) (b : Byte) : SinkAnswer → State
  | .ok => s.setHost { s.host with snk := s.host.snk.tail, out := s.host.out ++ [b] }
  | .error => s.setHost { s.host with snk := s.host.snk.tail }

/-- The host gives the source response `w` now, ahead of the ones still to come. -/
def State.offerSource (s : State) (w : SrcWord) : State := s.setHost { s.host with src := w :: s.host.src }

/-- The host gives the sink answer `r` now, ahead of the ones still to come. -/
def State.offerSink (s : State) (r : SinkAnswer) : State := s.setHost { s.host with snk := r :: s.host.snk }

end Sys2Proof.Machine
end

