-- ==== Sys2Proof/Machine/Compress.lean ====
section
/-! DEFINITION. ENGINE in COMPRESS mode (43_compress.md). -/

namespace Sys2Proof.Machine

/-- C.FETCH_SYM (R96). -/
def execCFetchSym (v : Code) (s : State) : Out :=
  if engineAt s .compress .cFetch ∧ s.holdsItem .a v then
    .next (detectDone ((s.qGet .a).setEng { s.eng with sym := payloadByte v, state := .cMatch }))
  else noStep s

/-- C.FETCH_EOS (R97). -/
def execCFetchEos (s : State) : Out :=
  if engineAt s .compress .cFetch ∧ s.holdsEos .a then
    .next (detectDone ((s.qGet .a).setEng { s.eng with state := if s.eng.cur = .root then .cEos else .cFinal }))
  else noStep s

/-- C.MATCH_HIT (R98). -/
def execCMatchHit (s : State) : Out :=
  if engineAt s .compress .cMatch then
    match s.dictFind s.eng.cur s.eng.sym with
    | some k => .next (detectDone (s.setEng { s.eng with cur := .code k, state := .cFetch }))
    | none => noStep s
  else noStep s

/-- C.MATCH_MISS (R99). -/
def execCMatchMiss (s : State) : Out :=
  if engineAt s .compress .cMatch ∧ s.dictFind s.eng.cur s.eng.sym = none then
    .next (detectDone (s.setEng { s.eng with state := .cEmit }))
  else noStep s

/-- C.EMIT_ADD (R100). -/
def execCEmitAdd (s : State) : Out :=
  if engineAt s .compress .cEmit ∧ s.eng.nextCode.toNat ≤ 4095 ∧ canPut s .b then
    match s.eng.cur with
    | .root => .fault .rootHasNoCode
    | .code c =>
        let t := (s.qPut .b (itemElem c)).dictAdd c s.eng.sym
        .next (detectDone (t.setEng { t.eng with cur := .root, state := .cMatch }))
  else noStep s

/-- C.EMIT_FULL (R101). -/
def execCEmitFull (s : State) : Out :=
  if engineAt s .compress .cEmit ∧ s.eng.nextCode.toNat = 4096 ∧ canPut s .b then
    match s.eng.cur with
    | .root => .fault .rootHasNoCode
    | .code c => .next (detectDone ((s.qPut .b (itemElem c)).setEng { s.eng with state := .cReset }))
  else noStep s

/-- C.RESET (R102). -/
def execCReset (s : State) : Out :=
  if engineAt s .compress .cReset ∧ canPut s .b then
    let t := (s.qPut .b (itemElem resetCode)).dictReset
    .next (detectDone (t.setEng { t.eng with cur := .root, state := .cMatch }))
  else noStep s

/-- C.FINAL (R103). -/
def execCFinal (s : State) : Out :=
  if engineAt s .compress .cFinal ∧ canPut s .b then
    match s.eng.cur with
    | .root => .fault .rootHasNoCode
    | .code c => .next (detectDone ((s.qPut .b (itemElem c)).setEng { s.eng with state := .cEos }))
  else noStep s

/-- C.EOS (R104). -/
def execCEos (s : State) : Out :=
  if engineAt s .compress .cEos ∧ canPut s .b then
    .next (detectDone ((s.qPut .b eosElem).setEng { s.eng with state := .done }))
  else noStep s

end Sys2Proof.Machine
end

