-- ==== Sys2Proof/Machine/Decompress.lean ====
section
/-! DEFINITION. ENGINE in DECOMPRESS mode (44_decompress.md). Each D.FETCH step (R110) is the step of its class (R62). -/

namespace Sys2Proof.Machine

/-- D.FETCH is ENGINE's step and the element it gets is of class `k`. -/
abbrev fetchesClass (s : State) (k : DClass) : Prop := engineAt s .decompress .dFetch ∧ s.dClass = some k

/-- D.EOS_IN (R111). -/
def execDEosIn (s : State) : Out :=
  if fetchesClass s .eosIn then
    .next (detectDone ((s.qGet .a).setEng { s.eng with state := .dEos }))
  else noStep s

/-- D.ERR_FRESH (R112): the abort keeps no other effect, so the element is still in QA (R149). -/
def execDErrFresh (c : Code) (s : State) : Out :=
  if fetchesClass s .errFresh ∧ s.holdsItem .a c then .next (s.abort .corrupt .fresh c) else noStep s

/-- D.RESET (R113). -/
def execDReset (s : State) : Out :=
  if fetchesClass s .reset then
    .next (detectDone ((s.qGet .a).setEng
      { s.eng with nextCode := 257, prev := [], fresh := true, state := .dFetch }))
  else noStep s

/-- D.ERR_RANGE (R114). -/
def execDErrRange (c : Code) (s : State) : Out :=
  if fetchesClass s .errRange ∧ s.holdsItem .a c then .next (s.abort .corrupt .range c) else noStep s

/-- D.ERR_OVERFLOW (R115). -/
def execDErrOverflow (c : Code) (s : State) : Out :=
  if fetchesClass s .errOverflow ∧ s.holdsItem .a c then .next (s.abort .corrupt .overflow c) else noStep s

/-- D.LIT (R116): p = [c]. -/
def execDLit (b : Byte) (s : State) : Out :=
  if fetchesClass s .lit ∧ s.holdsItem .a (zextCode b) then
    .next (detectDone ((s.qGet .a).dDecoded b []))
  else noStep s

/-- D.SEQ (R117): p = T[c], read before D_ADD writes; an entry is added only below 4096 (log 21). -/
def execDSeq (c : Code) (s : State) : Out :=
  if fetchesClass s .seq ∧ s.holdsItem .a c ∧ s.eng.nextCode.toNat ≤ 4095 then
    match s.tableAt c.toNat with
    | [] => .fault .stringIndex
    | first :: rest => .next (detectDone ((s.qGet .a).dDecoded first rest))
  else noStep s

/-- D.KWK (R118): p = prev followed by prev's own first byte. -/
def execDKwk (c : Code) (s : State) : Out :=
  if fetchesClass s .kwk ∧ s.holdsItem .a c then
    match s.eng.prev with
    | [] => noStep s
    | first :: rest => .next (detectDone ((s.qGet .a).dDecoded first (rest ++ [first])))
  else noStep s

/-- D.EMIT (R120). -/
def execDEmit (s : State) : Out :=
  if engineAt s .decompress .dEmit ∧ canPut s .b then
    match s.eng.obuf[s.eng.oidx.toNat]? with
    | none => .fault .stringIndex
    | some b =>
        let oidx := s.eng.oidx + 1
        .next (detectDone ((s.qPut .b (itemElem (zextCode b))).setEng
          { s.eng with oidx := oidx, state := if oidx.toNat = s.eng.obuf.length then .dFetch else .dEmit }))
  else noStep s

/-- D.EOS_OUT (R121). -/
def execDEosOut (s : State) : Out :=
  if engineAt s .decompress .dEos ∧ canPut s .b then
    .next (detectDone ((s.qPut .b eosElem).setEng { s.eng with state := .done }))
  else noStep s

end Sys2Proof.Machine
end

