-- ==== Sys2Proof/Machine/Dictionary.lean ====
section
/-! DEFINITION. The rows DICT.INIT, DICT.FIND, DICT.ADD and DICT.RESET (41_dictionary.md) and D_ADD (44_decompress.md),
run on their own. They have no step of their own in the machine: the steps that call them use the same operations of
Ops.lean. -/

namespace Sys2Proof.Machine

/-- DICT.INIT (R80). -/
def execDictInit (s : State) : Out := .next s.dictInit

/-- DICT.FIND (R81): no side effect; HIT(k) or MISS is returned in `ret`. -/
def execDictFind (n : Node) (x : Byte) (s : State) : Out :=
  .next (s.setRet (match s.dictFind n x with
    | some k => .hit k
    | none => .miss))

/-- DICT.ADD (R82), allowed if and only if next_code is at most 4095 (log 11); the new code is returned in `ret`. -/
def execDictAdd (n : Code) (x : Byte) (s : State) : Out :=
  if s.eng.nextCode.toNat ≤ 4095 then
    .next ((s.dictAdd n x).setRet (.newCode (BitVec.ofNat 12 s.eng.nextCode.toNat)))
  else noStep s

/-- DICT.RESET (R83). -/
def execDictReset (s : State) : Out := .next s.dictReset

/-- D_ADD (R119) of p = first :: rest; next_code is at most 4095 wherever an entry is added (R115; log 11). -/
def execDAdd (first : Byte) (_rest : Str) (s : State) : Out :=
  if s.eng.prev = [] ∨ s.eng.nextCode.toNat ≤ 4095 then .next (s.dAdd first) else noStep s

end Sys2Proof.Machine
end

