-- ==== Sys2Proof/Machine/ReaderStage.lean ====
section
/-! DEFINITION. READER: the raw byte reader (45_pipeline.md R129 to R133) and the bit unpacker (42_bitpack.md R91, R92). -/

namespace Sys2Proof.Machine

/-- RD.RAW_BYTE (R129). -/
def execRdRawByte (b : Byte) (s : State) : Out :=
  if readerAt s .compress .read ∧ s.sourceNext = some (srcWord 0 b) then
    .next (detectDone (s.sourceRead.setRd { s.rd with latch := zextCode b, state := .put }))
  else noStep s

/-- RD.RAW_END (R130); the data of the response is ignored (R57). -/
def execRdRawEnd (s : State) : Out :=
  if readerAt s .compress .read ∧ s.sourceNext.map srcKind = some 1 then
    .next (detectDone (s.sourceRead.setRd { s.rd with state := .eos }))
  else noStep s

/-- RD.SRC_ERROR (R131): Abort(IO_SOURCE, NONE, 0). -/
def execRdSrcError (m : Mode) (s : State) : Out :=
  if readerAt s m .read ∧ s.sourceNext.map srcKind = some 2 then
    .next (s.sourceRead.abort .ioSource .none 0)
  else noStep s

/-- UNPACK.BYTE (R91). -/
def execUnpackByte (b : Byte) (s : State) : Out :=
  if readerAt s .decompress .read ∧ s.sourceNext = some (srcWord 0 b) then
    let acc := pushByte s.rd.acc b
    let nbits := s.rd.nbits + 8
    .next (detectDone (s.sourceRead.setRd
      (if 12 ≤ nbits.toNat then
        { latch := unpackedCode acc nbits, nbits := nbits - 12, acc := keepLow acc (nbits - 12), state := .put }
      else
        { s.rd with acc := acc, nbits := nbits, state := .read })))
  else noStep s

/-- UNPACK.END (R92). -/
def execUnpackEnd (s : State) : Out :=
  if readerAt s .decompress .read ∧ s.sourceNext.map srcKind = some 1 then
    .next (detectDone (s.sourceRead.setRd { s.rd with acc := 0, nbits := 0, state := .eos }))
  else noStep s

/-- RD.PUT (R132), enabled when `QA.free > 0`. -/
def execRdPut (m : Mode) (s : State) : Out :=
  if readerAt s m .put ∧ canPut s .a then
    .next (detectDone ((s.qPut .a (itemElem s.rd.latch)).setRd { s.rd with state := .read }))
  else noStep s

/-- RD.EOS (R133), enabled when `QA.free > 0`. -/
def execRdEos (m : Mode) (s : State) : Out :=
  if readerAt s m .eos ∧ canPut s .a then
    .next (detectDone ((s.qPut .a eosElem).setRd { s.rd with state := .done }))
  else noStep s

end Sys2Proof.Machine
end

