-- ==== Sys2Proof/Machine/WriterStage.lean ====
section
/-! DEFINITION. WRITER: the bit packer (42_bitpack.md R87 to R90) and the raw byte writer (45_pipeline.md R134 to R136). -/

namespace Sys2Proof.Machine

/-- PACK.CODE (R87). -/
def execPackCode (c : Code) (s : State) : Out :=
  if writerAt s .compress .get ∧ s.holdsItem .b c then
    .next (detectDone ((s.qGet .b).setWr
      { s.wr with acc := pushCode s.wr.acc c, nbits := s.wr.nbits + 12, state := .emit }))
  else noStep s

/-- PACK.EOS (R89). -/
def execPackEos (s : State) : Out :=
  if writerAt s .compress .get ∧ s.holdsEos .b then
    .next (detectDone ((s.qGet .b).setWr { s.wr with state := if 0 < s.wr.nbits.toNat then .pad else .done }))
  else noStep s

/-- PACK.EMIT (R88). -/
def execPackEmit (r : SinkAnswer) (s : State) : Out :=
  if writerAt s .compress .emit ∧ s.sinkNext = some r then
    let t := s.sinkWrite (packedByte s.wr.acc s.wr.nbits) r
    match r with
    | .error => .next (t.abort .ioSink .none 0)
    | .ok =>
        let nbits := s.wr.nbits - 8
        .next (detectDone (t.setWr
          { s.wr with nbits := nbits, acc := keepLow s.wr.acc nbits,
                      state := if nbits.toNat < 8 then .get else .emit }))
  else noStep s

/-- PACK.FLUSH (R90). -/
def execPackFlush (r : SinkAnswer) (s : State) : Out :=
  if writerAt s .compress .pad ∧ s.sinkNext = some r then
    let t := s.sinkWrite (paddedByte s.wr.acc s.wr.nbits) r
    match r with
    | .error => .next (t.abort .ioSink .none 0)
    | .ok => .next (detectDone (t.setWr { s.wr with acc := 0, nbits := 0, state := .done }))
  else noStep s

/-- WR.RAW_BYTE (R134). -/
def execWrRawByte (v : Code) (s : State) : Out :=
  if writerAt s .decompress .get ∧ s.holdsItem .b v then
    .next (detectDone ((s.qGet .b).setWr { s.wr with byte := payloadByte v, state := .emit }))
  else noStep s

/-- WR.RAW_EOS (R135). -/
def execWrRawEos (s : State) : Out :=
  if writerAt s .decompress .get ∧ s.holdsEos .b then
    .next (detectDone ((s.qGet .b).setWr { s.wr with state := .done }))
  else noStep s

/-- WR.RAW_EMIT (R136). -/
def execWrRawEmit (r : SinkAnswer) (s : State) : Out :=
  if writerAt s .decompress .emit ∧ s.sinkNext = some r then
    let t := s.sinkWrite s.wr.byte r
    match r with
    | .error => .next (t.abort .ioSink .none 0)
    | .ok => .next (detectDone (t.setWr { s.wr with state := .get }))
  else noStep s

end Sys2Proof.Machine
end

