-- ==== Sys2Proof/Machine/HostPort.lean ====
section
/-! DEFINITION. The HOST's operations: START (45_pipeline.md R127), RST (70_reset_and_hazards.md R161) and the two
answers (R137, R138); and DONE detection run on its own (R128). -/

namespace Sys2Proof.Machine

/-- What START does, in its pseudocode's order (R127); what R38 leaves unspecified at START becomes a free value (log 5). -/
def State.startJob (s : State) (m : Mode) : State :=
  let t := ((s.qInit .a).qInit .b).dictInit
  let n := t.draws
  { t with
    core := { status := .running, mode := m, errCode := .none, errReason := .none, errInfo := 0 }
    rd := { state := .read, acc := 0, nbits := 0, latch := Config.freeBits 12 .rdLatch n }
    eng := { state := (match m with
               | .compress => .cFetch
               | .decompress => .dFetch)
             cur := .root, sym := Config.freeBits 8 .engSym n, nextCode := t.eng.nextCode
             dict := Slots.unwritten n, table := Slots.unwritten n
             prev := [], fresh := false, obuf := [], oidx := 0 }
    wr := { state := .get, acc := 0, nbits := 0, byte := Config.freeBits 8 .wrByte n }
    draws := n + 1 }

/-- START (R127), enabled when `core.status ≠ RUNNING`; while RUNNING it has no effect and is not queued. QCAP = 0 is
refused before any job (R68, R148). -/
def execStart (m : Mode) (s : State) : Out :=
  if s.qcap = 0 then .refused .zeroCapacity
  else if s.core.status = .running then noStep s
  else .next (s.startJob m)

/-- A queue after RST: every part unspecified, within the ranges R26 gives (log 5). -/
def freeQueue (qcap n : Nat) (h t f l : FreeReg) : Queue :=
  { buf := Slots.unwritten n
    head := Config.freeNat h n % qcap
    tail := Config.freeNat t n % qcap
    free := Config.freeNat f n % (qcap + 1)
    filled := Config.freeNat l n % (qcap + 1) }

/-- What RST does (R161): core.* and the FSM state registers as R37 says, everything else of the block a free value
within the range its rule gives (R28, R30, R31, R33). The HOST's side is not the block's. -/
def State.hardReset (s : State) : State :=
  let n := s.draws
  { s with
    core := { status := .idle, mode := .compress, errCode := .none, errReason := .none, errInfo := 0 }
    qa := freeQueue s.qcap n .qaHead .qaTail .qaFree .qaFilled
    qb := freeQueue s.qcap n .qbHead .qbTail .qbFree .qbFilled
    rd := { state := .idle, acc := Config.freeBits 16 .rdAcc n
            nbits := BitVec.ofNat 5 (Config.freeNat .rdNbits n % 17), latch := Config.freeBits 12 .rdLatch n }
    eng := { state := .idle, cur := nodeOfBits (Config.freeBits 13 .engCur n), sym := Config.freeBits 8 .engSym n
             nextCode := BitVec.ofNat 13 (firstCode + Config.freeNat .engNextCode n % 3840)
             dict := Slots.unwritten n, table := Slots.unwritten n
             prev := (Config.freeStr .engPrev n).take obufDepth
             fresh := (Config.freeBits 1 .engFresh n).getLsbD 0
             obuf := (Config.freeStr .engObuf n).take obufDepth, oidx := Config.freeBits 12 .engOidx n }
    wr := { state := .idle, acc := Config.freeBits 16 .wrAcc n
            nbits := BitVec.ofNat 5 (Config.freeNat .wrNbits n % 17), byte := Config.freeBits 8 .wrByte n }
    draws := n + 1 }

/-- RST (R161), enabled at every time. -/
def execRst (s : State) : Out := .next s.hardReset

/-- DONE (R128) on its own: the last effect of a stage step, so of a running job (R16; log 18). -/
def execDone (s : State) : Out := if s.core.status = .running then .next (detectDone s) else noStep s

/-- HOST.SRC_ANSWER (R137): one atomic step of READER together with the HOST, in which READER's SourceRead() returns the
response (kind, data). Where READER makes no request there is nothing to answer; kind 3 has no step (R64c). -/
def execHostSrcAnswer (kind : BitVec 2) (data : Byte) (s : State) : Out :=
  if s.core.status = .running ∧ s.rd.state = .read then
    let t := s.offerSource (srcWord kind data)
    match kind.toNat, s.core.mode with
    | 0, .compress => execRdRawByte data t
    | 0, .decompress => execUnpackByte data t
    | 1, .compress => execRdRawEnd t
    | 1, .decompress => execUnpackEnd t
    | 2, m => execRdSrcError m t
    | _, _ => noStep s
  else noStep s

/-- HOST.SNK_ANSWER (R138): one atomic step of WRITER together with the HOST, in which WRITER's SinkWrite(b) is answered
`r`. Where WRITER offers no byte there is nothing to answer. -/
def execHostSnkAnswer (r : SinkAnswer) (s : State) : Out :=
  if s.core.status = .running then
    match s.core.mode, s.wr.state with
    | .compress, .emit => execPackEmit r (s.offerSink r)
    | .compress, .pad => execPackFlush r (s.offerSink r)
    | .decompress, .emit => execWrRawEmit r (s.offerSink r)
    | _, _ => noStep s
  else noStep s

end Sys2Proof.Machine
end

