-- ==== Sys2Proof/Machine/Queue.lean ====
section
/-! DEFINITION. The rows Q.INIT, Q.PUT and Q.GET (40_queue.md), run on their own. They have no step of their own in the
machine (R68 to R70): the steps that call them use the same operations of Ops.lean. -/

namespace Sys2Proof.Machine

/-- Q.INIT (R68): `require N >= 1`, else the configuration is refused (R148). -/
def execQInit (q : QueueId) (s : State) : Out :=
  if s.qcap = 0 then .refused .zeroCapacity else .next (s.qInit q)

/-- Q.PUT (R69), enabled when `q.free > 0`. -/
def execQPut (q : QueueId) (e : Elem13) (s : State) : Out :=
  if canPut s q then .next (s.qPut q e) else noStep s

/-- Q.GET (R70), enabled when `q.filled > 0`; the element is returned in `ret`. -/
def execQGet (q : QueueId) (s : State) : Out :=
  if canGet s q then .next ((s.qGet q).setRet (.elem (s.front q))) else noStep s

end Sys2Proof.Machine
end

