-- ==== Sys2Proof/Machine/Dispatch.lean ====
section
/-! DEFINITION. The meaning of every operation, one arm per constructor. -/

namespace Sys2Proof.Machine

/-- The meaning of every operation. -/
def exec (i : Instr) (s : State) : Host.Outcome State Fault Refusal :=
  match i with
  | .qInit q => Sys2Proof.Machine.execQInit q s
  | .qPut q e => Sys2Proof.Machine.execQPut q e s
  | .qGet q => Sys2Proof.Machine.execQGet q s
  | .dictInit => Sys2Proof.Machine.execDictInit s
  | .dictFind n x => Sys2Proof.Machine.execDictFind n x s
  | .dictAdd n x => Sys2Proof.Machine.execDictAdd n x s
  | .dictReset => Sys2Proof.Machine.execDictReset s
  | .dAdd first rest => Sys2Proof.Machine.execDAdd first rest s
  | .rdRawByte b => Sys2Proof.Machine.execRdRawByte b s
  | .rdRawEnd => Sys2Proof.Machine.execRdRawEnd s
  | .rdSrcError m => Sys2Proof.Machine.execRdSrcError m s
  | .unpackByte b => Sys2Proof.Machine.execUnpackByte b s
  | .unpackEnd => Sys2Proof.Machine.execUnpackEnd s
  | .rdPut m => Sys2Proof.Machine.execRdPut m s
  | .rdEos m => Sys2Proof.Machine.execRdEos m s
  | .cFetchSym v => Sys2Proof.Machine.execCFetchSym v s
  | .cFetchEos => Sys2Proof.Machine.execCFetchEos s
  | .cMatchHit => Sys2Proof.Machine.execCMatchHit s
  | .cMatchMiss => Sys2Proof.Machine.execCMatchMiss s
  | .cEmitAdd => Sys2Proof.Machine.execCEmitAdd s
  | .cEmitFull => Sys2Proof.Machine.execCEmitFull s
  | .cReset => Sys2Proof.Machine.execCReset s
  | .cFinal => Sys2Proof.Machine.execCFinal s
  | .cEos => Sys2Proof.Machine.execCEos s
  | .dEosIn => Sys2Proof.Machine.execDEosIn s
  | .dErrFresh c => Sys2Proof.Machine.execDErrFresh c s
  | .dReset => Sys2Proof.Machine.execDReset s
  | .dErrRange c => Sys2Proof.Machine.execDErrRange c s
  | .dErrOverflow c => Sys2Proof.Machine.execDErrOverflow c s
  | .dLit b => Sys2Proof.Machine.execDLit b s
  | .dSeq c => Sys2Proof.Machine.execDSeq c s
  | .dKwk c => Sys2Proof.Machine.execDKwk c s
  | .dEmit => Sys2Proof.Machine.execDEmit s
  | .dEosOut => Sys2Proof.Machine.execDEosOut s
  | .packCode c => Sys2Proof.Machine.execPackCode c s
  | .packEos => Sys2Proof.Machine.execPackEos s
  | .packEmit r => Sys2Proof.Machine.execPackEmit r s
  | .packFlush r => Sys2Proof.Machine.execPackFlush r s
  | .wrRawByte v => Sys2Proof.Machine.execWrRawByte v s
  | .wrRawEos => Sys2Proof.Machine.execWrRawEos s
  | .wrRawEmit r => Sys2Proof.Machine.execWrRawEmit r s
  | .start m => Sys2Proof.Machine.execStart m s
  | .rst => Sys2Proof.Machine.execRst s
  | .done => Sys2Proof.Machine.execDone s
  | .hostSrcAnswer kind data => Sys2Proof.Machine.execHostSrcAnswer kind data s
  | .hostSnkAnswer r => Sys2Proof.Machine.execHostSnkAnswer r s

end Sys2Proof.Machine
end

