-- ==== Sys2Proof/Machine/Fetch.lean ====
section
/-! DEFINITION. The next step: whose turn it is (00_scope.md R7), and the opcode tuple of that agent (30_encoding.md R61)
read from the state. -/

namespace Sys2Proof.Machine

/-- The next turn and the state with that turn taken out of the schedule; where the schedule has run out, whose turn it
is is a free value (log 1). -/
def State.nextTurn (s : State) : Turn × State :=
  match s.host.turns with
  | t :: rest => (t, s.setHost { s.host with turns := rest })
  | [] => (Config.freeTurn s.draws, { s with draws := s.draws + 1 })

/-- The guard on ENGINE's registers (R61). -/
def State.guard (s : State) : Guard :=
  { hit := (s.dictFind s.eng.cur s.eng.sym).isSome
    fresh := s.eng.fresh
    prevEmpty := s.eng.prev.isEmpty
    nextCode := s.eng.nextCode }

/-- The opcode tuple of a turn (R61). -/
def State.opcode (s : State) : Turn → Opcode
  | .reader => .reader (modeBit s.core.mode) (rdStateBits s.rd.state) s.sourceNext
  | .engine => .engine (modeBit s.core.mode) (engStateBits s.eng.state) (s.peek .a) s.guard
  | .writer => .writer (modeBit s.core.mode) (wrStateBits s.wr.state) (s.peek .b) (s.sinkNext.map sinkBit)
  | .start m => .start (modeBit m)
  | .rst => .rst
  | .srcAnswer w => .srcAnswer w
  | .snkAnswer r => .snkAnswer (sinkBit r)

/-- A running job of mode `m` in which the next turn is `t`. -/
def State.schedule (s : State) (m : BitVec 1) (t : Turn) : State :=
  (s.setCore { s.core with status := .running, mode := modeOfBit m }).setHost { s.host with turns := t :: s.host.turns }

/-- Put `e` where the next get of `id` finds it. -/
def State.placeElem (s : State) (id : QueueId) (e : Elem13) : State :=
  let q := s.queue id
  s.setQueue id (if q.filled = 0 then
      { q with buf := q.buf.write q.head e, tail := (q.head + 1) % s.qcap, free := s.qcap - 1, filled := 1 }
    else { q with buf := q.buf.write q.head e })

/-- The state in which the very next step fetches the tuple `op` and runs its operation (log 9, log 20). C.FINAL needs a
code in eng.cur and D.EMIT a byte in eng.obuf; where there is none the code 0 and the string [0] stand in. -/
def State.place (s : State) : Opcode → State
  | .reader m st resp =>
      let t := s.schedule m .reader
      (t.setRd { t.rd with state := (rdStateOfBits st).getD t.rd.state }).setHost
        { t.host with src := resp.toList ++ t.host.src }
  | .engine m st elem _ =>
      let t := match elem with
        | some e => (s.schedule m .engine).placeElem .a e
        | none => s.schedule m .engine
      t.setEng { t.eng with
        state := (engStateOfBits st).getD t.eng.state
        cur := if st = 5 ∧ t.eng.cur = .root then .code 0 else t.eng.cur
        obuf := if st = 9 ∧ t.eng.obuf = [] then [0] else t.eng.obuf }
  | .writer m st elem answer =>
      let t := match elem with
        | some e => (s.schedule m .writer).placeElem .b e
        | none => s.schedule m .writer
      (t.setWr { t.wr with state := (wrStateOfBits st).getD t.wr.state }).setHost
        { t.host with snk := (answer.map sinkOfBit).toList ++ t.host.snk }
  | .start m => s.setHost { s.host with turns := .start (modeOfBit m) :: s.host.turns }
  | .rst => s.setHost { s.host with turns := .rst :: s.host.turns }
  | .srcAnswer w => s.setHost { s.host with turns := .srcAnswer w :: s.host.turns }
  | .snkAnswer b => s.setHost { s.host with turns := .snkAnswer (sinkOfBit b) :: s.host.turns }

end Sys2Proof.Machine
end

