-- ==== Sys2Proof/Machine/Step.lean ====
section
/-! DEFINITION. One step of the machine: the next turn's opcode tuple is fetched and decoded, and its operation runs. -/

namespace Sys2Proof.Machine

/-- One step. QCAP = 0 is no configuration (R148). A tuple that selects no operation leaves its agent without a step
(R16): the turn passes. -/
def step (s : State) : Host.Outcome State Fault Refusal :=
  if s.qcap = 0 then .refused .zeroCapacity
  else match decode (s.nextTurn.2.opcode s.nextTurn.1) with
    | .ok i => exec i s.nextTurn.2
    | .error _ => noStep s.nextTurn.2

/-- The state whose very next step runs the operation of a table word (log 9, log 20). -/
def State.withFetchWord (s : State) (nbits w : Nat) : State :=
  match tableOpcode nbits w with
  | some op => s.place op
  | none => s

end Sys2Proof.Machine
end

