-- ==== Sys2Proof/Machine/Reference.lean ====
section
/-! DEFINITION. The functions the spec states its stream rules with: `encode` (43_compress.md R106), `decode`
(44_decompress.md R122), the packed stream (20_memory.md R43) and its unpacking (42_bitpack.md R91, R92). They are no part
of the step function; claims compare the machine with them. -/

namespace Sys2Proof.Machine

/-! ## encode (R106) -/

/-- The variables of `encode`: cur, next and D, a map from (parent, symbol) to code. -/
structure EncState where
  cur : Node
  next : Nat
  dict : List ((Code × Byte) × Code)
deriving DecidableEq, Repr

/-- One symbol of `encode`'s loop: the codes put out and the variables after. A miss reconsiders `x` from the root, where
it hits the literal, so its second pass is written out in place. -/
def encSymbol (st : EncState) (x : Byte) : List Code × EncState :=
  match st.cur with
  | .root => ([], { st with cur := .code (zextCode x) })
  | .code c =>
      match st.dict.lookup (c, x) with
      | some k => ([], { st with cur := .code k })
      | none =>
          if st.next ≤ 4095 then
            ([c], { cur := .code (zextCode x), next := st.next + 1,
                    dict := ((c, x), BitVec.ofNat 12 st.next) :: st.dict })
          else ([c, resetCode], { cur := .code (zextCode x), next := 257, dict := [] })

/-- The codes still to come for the symbols `xs`, the last match included. -/
def encodeFrom : EncState → List Byte → List Code
  | st, [] => match st.cur with
      | .root => []
      | .code c => [c]
  | st, x :: xs => (encSymbol st x).1 ++ encodeFrom (encSymbol st x).2 xs

/-- The variables at the start. -/
def encStart : EncState := { cur := .root, next := 257, dict := [] }

/-- `encode(X)` (R106). -/
def lzwEncode (xs : List Byte) : List Code := encodeFrom encStart xs

/-! ## decode (R122) -/

/-- The result of `decode`. -/
inductive DecResult where
  | ok (bytes : Str)
  | corrupt (reason : ErrReason) (c : Code) (before : Str)
deriving DecidableEq, Repr

/-- The bytes `decode` has put out when it returns: all of them, or those before the corrupt code. -/
def DecResult.bytes : DecResult → Str
  | .ok bytes => bytes
  | .corrupt _ _ before => before

/-- The variables of `decode` but out: prev, fresh, next and T. -/
structure DecState where
  prev : Str
  fresh : Bool
  next : Nat
  table : List (Code × Str)
deriving DecidableEq, Repr

/-- The string `p` of a legal code (R122): [c], T[c], or prev ++ [prev[0]]. -/
def decString (st : DecState) (c : Code) : Str :=
  if c.toNat ≤ 255 then [payloadByte c]
  else if c.toNat < st.next then (st.table.lookup c).getD []
  else st.prev ++ st.prev.take 1

/-- The variables after the string `p` (R122): T and next change only where prev is not empty. -/
def decAdvance (st : DecState) (p : Str) : DecState :=
  { prev := p, fresh := false
    next := if st.prev = [] then st.next else st.next + 1
    table := if st.prev = [] then st.table else (BitVec.ofNat 12 st.next, st.prev ++ p.take 1) :: st.table }

/-- The variables after a reset marker (R122). -/
def decRestart : DecState := { prev := [], fresh := true, next := 257, table := [] }

/-- The loop of `decode`, with the bytes so far. -/
def decodeFrom : DecState → Str → List Code → DecResult
  | _, out, [] => .ok out
  | st, out, c :: cs =>
      if st.fresh = true ∧ 256 ≤ c.toNat then .corrupt .fresh c out
      else if c = resetCode then decodeFrom decRestart out cs
      else if 257 ≤ c.toNat ∧ (st.prev = [] ∨ st.next < c.toNat) then .corrupt .range c out
      else if st.prev ≠ [] ∧ st.next = 4096 then .corrupt .overflow c out
      else decodeFrom (decAdvance st (decString st c)) (out ++ decString st c) cs

/-- The variables at the start. -/
def decStart : DecState := { prev := [], fresh := false, next := 257, table := [] }

/-- `decode(C)` (R122). -/
def lzwDecode (cs : List Code) : DecResult := decodeFrom decStart [] cs

/-! ## The packed stream (R43) -/

/-- Two codes make three bytes, a last single code two, its low four bits zero (R43). -/
def packBytes : List Code → List Byte
  | [] => []
  | [a] => [a.extractLsb' 4 8, a.extractLsb' 0 4 ++ 0#4]
  | a :: b :: rest => a.extractLsb' 4 8 :: (a.extractLsb' 0 4 ++ b.extractLsb' 8 4) :: b.setWidth 8 :: packBytes rest

/-- Three bytes make two codes; of one or two left over, a whole code is kept and the other bits are discarded (R91, R92). -/
def unpackCodes : List Byte → List Code
  | [] => []
  | [_] => []
  | [x, y] => [x ++ y.extractLsb' 4 4]
  | x :: y :: z :: rest => (x ++ y.extractLsb' 4 4) :: (y.extractLsb' 0 4 ++ z) :: unpackCodes rest

end Sys2Proof.Machine
end

