-- ==== Sys2Proof/Safety.lean ====
section
/-! DEFINITION. The invariants the spec states of LZW-CORE's registers, queues and tables (10_state.md R27, R29, R32, R34;
40_queue.md R74), a bound on the steps a job has left (45_pipeline.md R143), and what a schedule made of stage turns is. -/

namespace Sys2Proof.Machine

/-! ## The parts of the invariant -/

/-- R27, with every slot in the queue written. -/
structure QueueInv (qcap : Nat) (q : Queue) : Prop where
  counts : q.free + q.filled = qcap
  head : q.head < qcap
  tail : q.tail = (q.head + q.filled) % qcap
  written : ∀ i, i < q.filled → (lookupCell q.buf.cells ((q.head + i) % qcap)).isSome = true

/-- R28 and R29; in COMPRESS mode the item waiting in R_PUT is a byte item (R129). -/
structure ReaderInv (s : State) : Prop where
  notIdle : s.rd.state ≠ .idle
  bits : s.rd.acc.toNat < 2 ^ s.rd.nbits.toNat
  raw : s.core.mode = .compress → s.rd.acc = 0 ∧ s.rd.nbits = 0
  read : s.rd.state = .read → s.rd.nbits = 0 ∨ s.rd.nbits = 4 ∨ s.rd.nbits = 8
  put : s.rd.state = .put → s.rd.nbits = 0 ∨ s.rd.nbits = 4
  ended : s.rd.state = .eos ∨ s.rd.state = .done → s.rd.nbits = 0
  byteLatch : s.core.mode = .compress → s.rd.state = .put → s.rd.latch.toNat ≤ 255

/-- A valid code of the dictionary (R77), a defined code of the string table (R108). -/
abbrev validCode (s : State) (k : Nat) : Prop := k ≤ 255 ∨ (257 ≤ k ∧ k < s.eng.nextCode.toNat)

/-- The states ENGINE uses in COMPRESS mode (R25). -/
abbrev compressState (e : EngState) : Prop :=
  e = .cFetch ∨ e = .cMatch ∨ e = .cEmit ∨ e = .cReset ∨ e = .cFinal ∨ e = .cEos ∨ e = .done

/-- The states ENGINE uses in DECOMPRESS mode (R25). -/
abbrev decompressState (e : EngState) : Prop := e = .dFetch ∨ e = .dEmit ∨ e = .dEos ∨ e = .done

/-- R32, COMPRESS. -/
structure CompressInv (s : State) : Prop where
  state : compressState s.eng.state
  written : ∀ k, 257 ≤ k → k < s.eng.nextCode.toNat → (lookupCell s.eng.dict.cells k).isSome = true
  parent : ∀ k, 257 ≤ k → k < s.eng.nextCode.toNat →
    validCode s (s.dictAt k).parent.toNat ∧ (s.dictAt k).parent.toNat < k
  unique : ∀ j k, 257 ≤ j → j < s.eng.nextCode.toNat → 257 ≤ k → k < s.eng.nextCode.toNat →
    s.dictAt j = s.dictAt k → j = k
  cur : ∀ c, s.eng.cur = .code c → validCode s c.toNat
  pending : s.eng.state = .cEmit ∨ s.eng.state = .cReset ∨ s.eng.state = .cFinal → s.eng.cur ≠ .root
  full : s.eng.state = .cReset → s.eng.nextCode.toNat = 4096
  missed : s.eng.state = .cEmit → s.dictFind s.eng.cur s.eng.sym = none

/-- R32, DECOMPRESS, with R109 for the strings held. -/
structure DecompressInv (s : State) : Prop where
  state : decompressState s.eng.state
  written : ∀ k, 257 ≤ k → k < s.eng.nextCode.toNat → (lookupCell s.eng.table.cells k).isSome = true
  length : ∀ k, 257 ≤ k → k < s.eng.nextCode.toNat → 2 ≤ (s.tableAt k).length ∧ (s.tableAt k).length ≤ k - 255
  fresh : s.eng.fresh = true → s.eng.prev = []
  prevLength : s.eng.prev.length ≤ s.eng.nextCode.toNat - 256
  start : s.eng.prev = [] → s.eng.nextCode.toNat = 257
  emitting : s.eng.state = .dEmit → s.eng.oidx.toNat < s.eng.obuf.length
  obufLength : s.eng.obuf.length ≤ obufDepth

/-- R32. -/
structure EngineInv (s : State) : Prop where
  low : 257 ≤ s.eng.nextCode.toNat
  high : s.eng.nextCode.toNat ≤ 4096
  compress : s.core.mode = .compress → CompressInv s
  decompress : s.core.mode = .decompress → DecompressInv s

/-- R33 and R34; W_PAD is a state of the packer alone (R61). -/
structure WriterInv (s : State) : Prop where
  notIdle : s.wr.state ≠ .idle
  bits : s.wr.acc.toNat < 2 ^ s.wr.nbits.toNat
  raw : s.core.mode = .decompress → s.wr.acc = 0 ∧ s.wr.nbits = 0 ∧ s.wr.state ≠ .pad
  get : s.core.mode = .compress → s.wr.state = .get ∨ s.wr.state = .done → s.wr.nbits = 0 ∨ s.wr.nbits = 4
  emit : s.core.mode = .compress → s.wr.state = .emit → s.wr.nbits = 8 ∨ s.wr.nbits = 12 ∨ s.wr.nbits = 16
  pad : s.wr.state = .pad → s.wr.nbits = 4

/-- ENGINE has got EOS from QA. -/
abbrev engineGotEos (s : State) : Prop :=
  s.eng.state = .cFinal ∨ s.eng.state = .cEos ∨ s.eng.state = .dEos ∨ s.eng.state = .done

/-- WRITER has got EOS from QB. -/
abbrev writerGotEos (s : State) : Prop := s.wr.state = .pad ∨ s.wr.state = .done

/-- An element is an item, of a byte where the queue carries bytes (R26, R56, R60). -/
abbrev itemOf (bytes : Prop) (e : Elem13) : Prop := elemTag e = false ∧ (bytes → (elemPayload e).toNat ≤ 255)

/-- The end-of-stream protocol on one queue (R74): items only until the producer has put EOS, then EOS last, then nothing
once the consumer has got it. -/
structure EosInv (contents : List Elem13) (bytes putEos gotEos : Prop) : Prop where
  before : ¬ putEos → ∀ e ∈ contents, itemOf bytes e
  after : putEos → ¬ gotEos → ∃ items, contents = items ++ [eosElem] ∧ ∀ e ∈ items, itemOf bytes e
  finished : gotEos → putEos ∧ contents = []

/-- The state of a machine that waits for START (R37). -/
structure IdleInv (s : State) : Prop where
  status : s.core.status = .idle
  mode : s.core.mode = .compress
  errors : s.core.errCode = .none ∧ s.core.errReason = .none ∧ s.core.errInfo = 0
  states : s.rd.state = .idle ∧ s.eng.state = .idle ∧ s.wr.state = .idle

/-- The state of a machine with a job, running or ended. -/
structure JobInv (s : State) : Prop where
  status : s.core.status ≠ .idle
  qa : QueueInv s.qcap s.qa
  qb : QueueInv s.qcap s.qb
  reader : ReaderInv s
  engine : EngineInv s
  writer : WriterInv s
  qaEos : EosInv (s.contents .a) (s.core.mode = .compress) (s.rd.state = .done) (engineGotEos s)
  qbEos : EosInv (s.contents .b) (s.core.mode = .decompress) (s.eng.state = .done) (writerGotEos s)
  done : s.core.status = .done ↔ allDone s
  noError : s.core.status ≠ .aborted →
    s.core.errCode = .none ∧ s.core.errReason = .none ∧ s.core.errInfo = 0
  error : s.core.status = .aborted → s.core.errCode ≠ .none
  reason : s.core.errCode ≠ .corrupt → s.core.errReason = .none ∧ s.core.errInfo = 0

/-- The invariant of the machine. -/
structure Inv (s : State) : Prop where
  capacity : 1 ≤ s.qcap
  memory : Memory.wf s
  phase : IdleInv s ∨ JobInv s

/-! ## Queue updates, spelled out for claims -/

/-- A queue of capacity `n` after Q.PUT (R69). -/
def Queue.afterPut (n : Nat) (q : Queue) (e : Elem13) : Queue :=
  { buf := q.buf.write q.tail e, head := q.head, tail := (q.tail + 1) % n, free := q.free - 1, filled := q.filled + 1 }

/-- A queue of capacity `n` after Q.GET (R70). -/
def Queue.afterGet (n : Nat) (q : Queue) : Queue :=
  { buf := q.buf, head := (q.head + 1) % n, tail := q.tail, free := q.free + 1, filled := q.filled - 1 }

/-- The core registers after an abort (R149). -/
def CoreRegs.aborted (c : CoreRegs) (code : ErrCode) (reason : ErrReason) (info : Code) : CoreRegs :=
  { status := .aborted, mode := c.mode, errCode := code, errReason := reason, errInfo := info }

/-- The core registers of a running job after DONE detection, `others` being that all three stages are done (R128). -/
def CoreRegs.doneIf (c : CoreRegs) (others : Prop) [Decidable others] : CoreRegs :=
  { c with status := if others then .done else c.status }

/-! ## Schedules -/

/-- `n` steps of the machine, ending at the first fault or refusal. -/
def runSteps : Nat → State → Out
  | 0, s => .next s
  | n + 1, s => match step s with
      | .next t => runSteps n t
      | .fault f => .fault f
      | .refused r => .refused r

/-- The operations `is` run one after the other, ending at the first fault or refusal. -/
def execAll : List Instr → State → Out
  | [], s => .next s
  | i :: is, s => match exec i s with
      | .next t => execAll is t
      | .fault f => .fault f
      | .refused r => .refused r

/-- The source responses BYTE(b) for the bytes `bs`, in order (R57). -/
def byteResponses (bs : List Byte) : List SrcWord := bs.map (srcWord 0)


/-- A turn of one of the three stages. -/
abbrev stageTurn (t : Turn) : Prop := t = .reader ∨ t = .engine ∨ t = .writer

/-- A stretch of the schedule made of stage turns in which every stage has a turn. -/
abbrev fullRound (ts : List Turn) : Prop :=
  (∀ t ∈ ts, stageTurn t) ∧ Turn.reader ∈ ts ∧ Turn.engine ∈ ts ∧ Turn.writer ∈ ts

/-- The state with another schedule. -/
def State.withTurns (s : State) (ts : List Turn) : State := s.setHost { s.host with turns := ts }

/-! ## A bound on the steps a job has left (R143) -/

/-- READER's share: what the source response, the latched item or the EOS still to come can cause downstream. -/
def readerWork (s : State) : Nat :=
  20002 * s.host.src.length + match s.rd.state with
    | .idle => 0
    | .read => 0
    | .put => 20001
    | .eos => 20001
    | .done => 0

/-- ENGINE's share: the steps of the symbol or string in hand, and the elements they put on QB. -/
def engineWork (s : State) : Nat :=
  match s.eng.state with
  | .idle => 0
  | .cFetch => 0
  | .cMatch => if s.eng.cur = .root then 1 else 12
  | .cEmit => 11
  | .cReset => 6
  | .cFinal => 10
  | .cEos => 5
  | .dFetch => 0
  | .dEmit => 5 * (s.eng.obuf.length - s.eng.oidx.toNat)
  | .dEos => 5
  | .done => 0

/-- WRITER's share: the sink writes of the element in hand. -/
def writerWork (s : State) : Nat :=
  match s.wr.state with
  | .idle => 0
  | .get => 0
  | .emit => 1 + s.wr.nbits.toNat / 8
  | .pad => 1
  | .done => 0

/-- A bound on the effective stage steps the running job has left. -/
def jobWork (s : State) : Nat :=
  readerWork s + 20000 * s.qa.filled + engineWork s + 4 * s.qb.filled + writerWork s

end Sys2Proof.Machine
end

