-- ==== Sys2Proof/Certificates/Slice0/Obligations.lean ====
section
/-! DEFINITION. The statements for the provers. A state named in a conclusion is written out whole, so that each result
says its frame as well: what the record does not change is unchanged. -/

open Sys2Proof Sys2Proof.Machine

/-! ## Reset and job control -/

/-- R37, R24, R164: the machine right after reset, as the host reads it. The registers R37 leaves unspecified are not
named here (log 4). -/
def Obligations.ResetState : Prop :=
  State.reset.core = { status := .idle, mode := .compress, errCode := .none, errReason := .none, errInfo := 0 } ∧
    State.reset.rd.state = .idle ∧ State.reset.eng.state = .idle ∧ State.reset.wr.state = .idle ∧
    State.reset.statusPort = 0 ∧ State.reset.errCodePort = 0 ∧ State.reset.errReasonPort = 0 ∧
    State.reset.errInfoPort = 0

/-- The machine's invariant holds right after reset. -/
def Obligations.ResetMeetsInv : Prop := Inv State.reset

/-- R161: RST is enabled in every state and sets what R37 lists; what the sink accepted stays with the host. The model's
reading, not R161's: QCAP is not touched (log 26), and `no value` in the arrays is that no slot is listed as written, so
that each reads a free value (log 5, log 6). Every other register is left open: nothing is claimed of it. -/
def Obligations.RstResets : Prop :=
  ∀ s : State, ∃ t, exec .rst s = .next t ∧
    t.core = { status := .idle, mode := .compress, errCode := .none, errReason := .none, errInfo := 0 } ∧
    t.rd.state = .idle ∧ t.eng.state = .idle ∧ t.wr.state = .idle ∧
    t.qa.buf.cells = [] ∧ t.qb.buf.cells = [] ∧ t.eng.dict.cells = [] ∧ t.eng.table.cells = [] ∧
    t.qcap = s.qcap ∧ t.host.out = s.host.out

/-- R127, R38: START while not RUNNING loads every value the rules give; START while RUNNING has no effect. The model's
reading, not R127's: the host's side is not touched, so that responses and answers not used up stand ready for the new job
(log 14) and the bytes accepted earlier stay in host.out (log 2). -/
def Obligations.StartBeginsJob : Prop :=
  ∀ (s : State) (m : Mode), 1 ≤ s.qcap →
    (s.core.status ≠ .running → ∃ t, exec (.start m) s = .next t ∧
      t.core = { status := .running, mode := m, errCode := .none, errReason := .none, errInfo := 0 } ∧
      (t.qa.head = 0 ∧ t.qa.tail = 0 ∧ t.qa.free = s.qcap ∧ t.qa.filled = 0) ∧
      (t.qb.head = 0 ∧ t.qb.tail = 0 ∧ t.qb.free = s.qcap ∧ t.qb.filled = 0) ∧
      (t.rd.state = .read ∧ t.rd.acc = 0 ∧ t.rd.nbits = 0) ∧
      t.eng.state = (if m = .compress then .cFetch else .dFetch) ∧
      (t.eng.cur = .root ∧ t.eng.nextCode = 257 ∧ t.eng.prev = [] ∧ t.eng.fresh = false ∧ t.eng.obuf = [] ∧
        t.eng.oidx = 0) ∧
      (t.wr.state = .get ∧ t.wr.acc = 0 ∧ t.wr.nbits = 0) ∧
      t.qcap = s.qcap ∧ t.host = s.host) ∧
    (s.core.status = .running → exec (.start m) s = .next s)

/-- The row DONE run on its own (log 18): in a running job it sets DONE exactly where all three stages are in their DONE
states, and changes nothing else. -/
def Obligations.DoneRow : Prop :=
  ∀ s : State, s.core.status = .running →
    exec .done s = .next { s with core := s.core.doneIf (allDone s) }

/-- R148: where QCAP = 0 no job can run, no state is defined and nothing is reported. -/
def Obligations.ZeroCapacityRefused : Prop :=
  ∀ (s : State) (m : Mode) (q : QueueId), s.qcap = 0 →
    step s = .refused .zeroCapacity ∧ exec (.start m) s = .refused .zeroCapacity ∧
      exec (.qInit q) s = .refused .zeroCapacity

/-! ## The queues -/

/-- R68: Q.INIT empties the queue, for every capacity of at least 1, and touches nothing else. -/
def Obligations.QInitEmpties : Prop :=
  ∀ (s : State) (q : QueueId), 1 ≤ s.qcap → ∃ t, exec (.qInit q) s = .next t ∧
    ((t.queue q).head = 0 ∧ (t.queue q).tail = 0 ∧ (t.queue q).free = s.qcap ∧ (t.queue q).filled = 0 ∧
      t.contents q = []) ∧
    (∀ other, other ≠ q → t.queue other = s.queue other) ∧
    t.core = s.core ∧ t.rd = s.rd ∧ t.eng = s.eng ∧ t.wr = s.wr ∧ t.qcap = s.qcap ∧ t.host = s.host ∧ t.ret = s.ret

/-- R69: Q.PUT where a slot is free, and the block where none is. Every slot but the one at the tail reads as before. -/
def Obligations.QPutInserts : Prop :=
  ∀ (s : State) (q : QueueId) (e : Elem13),
    (0 < (s.queue q).free → exec (.qPut q e) s = .next (s.setQueue q ((s.queue q).afterPut s.qcap e)) ∧
      ∀ k, ((s.queue q).afterPut s.qcap e).slot q k = if k = (s.queue q).tail then e else (s.queue q).slot q k) ∧
    ((s.queue q).free = 0 → exec (.qPut q e) s = .next s)

/-- R70: Q.GET where an element is there, and the block where none is. Every slot reads as before. -/
def Obligations.QGetRemoves : Prop :=
  ∀ (s : State) (q : QueueId),
    (0 < (s.queue q).filled → exec (.qGet q) s =
      .next { s.setQueue q ((s.queue q).afterGet s.qcap) with ret := .elem ((s.queue q).slot q (s.queue q).head) }) ∧
    ((s.queue q).filled = 0 → exec (.qGet q) s = .next s)

/-- R76: with QCAP = 1 a put is enabled exactly where a get is not, and each enables the other. -/
def Obligations.CapacityOneAlternates : Prop :=
  ∀ (s : State) (q : QueueId), s.qcap = 1 → QueueInv s.qcap (s.queue q) →
    (canPut s q ↔ ¬ canGet s q) ∧
    (canPut s q → ∀ e, ∃ t, exec (.qPut q e) s = .next t ∧ ¬ canPut t q ∧ canGet t q) ∧
    (canGet s q → ∃ t, exec (.qGet q) s = .next t ∧ canPut t q ∧ ¬ canGet t q)

/-- R72, R50(a): put `es` into a queue with room for them, then get: the gets return the elements that were there and then
`es`, in order, each once. -/
def Obligations.QueueIsFifo : Prop :=
  ∀ (s : State) (q : QueueId) (es : List Elem13), QueueInv s.qcap (s.queue q) → es.length ≤ (s.queue q).free →
    ∃ full, execAll (es.map (Instr.qPut q)) s = .next full ∧
      ∀ k e, (s.contents q ++ es)[k]? = some e →
        ∃ t, execAll (List.replicate (k + 1) (.qGet q)) full = .next t ∧ t.ret = .elem e ∧
          t.contents q = (s.contents q ++ es).drop (k + 1)

/-! ## The dictionary and the string table -/

/-- R80, R83: both leave next_code = 257 and every slot as it is, so that FIND misses at every code. -/
def Obligations.DictInitAndReset : Prop :=
  ∀ s : State,
    exec .dictInit s = .next { s with eng := { s.eng with nextCode := 257 } } ∧
    exec .dictReset s = .next { s with eng := { s.eng with nextCode := 257 } } ∧
    ∀ (c : Code) (x : Byte), State.dictFind { s with eng := { s.eng with nextCode := 257 } } (.code c) x = none

/-- R81: the root always hits the literal; a code hits an entry below next_code with that parent and symbol where there
is one, and misses where there is none. Nothing but the returned value changes. -/
def Obligations.DictFindAnswers : Prop :=
  ∀ (s : State) (n : Node) (x : Byte), s.eng.nextCode.toNat ≤ 4096 →
    ∃ r, exec (.dictFind n x) s = .next { s with ret := r } ∧
      (n = .root → r = .hit (zextCode x)) ∧
      (∀ c, n = .code c →
        (∀ j, 257 ≤ j → j < s.eng.nextCode.toNat → s.dictAt j = { parent := c, symbol := x } →
          ∃ k : Code, r = .hit k ∧ 257 ≤ k.toNat ∧ k.toNat < s.eng.nextCode.toNat ∧
            s.dictAt k.toNat = { parent := c, symbol := x }) ∧
        ((∀ j, 257 ≤ j → j < s.eng.nextCode.toNat → s.dictAt j ≠ { parent := c, symbol := x }) → r = .miss))

/-- R82: DICT.ADD writes the entry at next_code, counts next_code up without wrapping and returns the code; every other
slot reads as before. R82 gives it under the preconditions FIND(n, x) = MISS and n a valid code; that it does the same
without them, wherever next_code ≤ 4095, is the model's choice (log 11). -/
def Obligations.DictAddWrites : Prop :=
  ∀ (s : State) (c : Code) (x : Byte), s.eng.nextCode.toNat ≤ 4095 →
    ∃ t, exec (.dictAdd c x) s = .next t ∧
      t = { s with
        eng := { s.eng with
          dict := s.eng.dict.write s.eng.nextCode.toNat { parent := c, symbol := x }
          nextCode := s.eng.nextCode + 1 }
        ret := .newCode (s.eng.nextCode.setWidth 12) } ∧
      t.eng.nextCode.toNat = s.eng.nextCode.toNat + 1 ∧
      ∀ k, t.dictAt k = if k = s.eng.nextCode.toNat then { parent := c, symbol := x } else s.dictAt k

/-- R119: D_ADD adds nothing while prev = [], and otherwise prev ++ [p[0]] at next_code; every other slot of T reads as
before. -/
def Obligations.DAddAppends : Prop :=
  ∀ (s : State) (first : Byte) (rest : Str),
    (s.eng.prev = [] → exec (.dAdd first rest) s = .next s) ∧
    (s.eng.prev ≠ [] → s.eng.nextCode.toNat ≤ 4095 → ∃ t, exec (.dAdd first rest) s = .next t ∧
      t = { s with eng := { s.eng with
        table := s.eng.table.write s.eng.nextCode.toNat (s.eng.prev ++ [first])
        nextCode := s.eng.nextCode + 1 } } ∧
      t.eng.nextCode.toNat = s.eng.nextCode.toNat + 1 ∧
      ∀ k, t.tableAt k = if k = s.eng.nextCode.toNat then s.eng.prev ++ [first] else s.tableAt k)

/-! ## READER -/

/-- R129, R130, R131 with R149: the raw reader on BYTE(b) and on END, whatever data END carries; a source ERROR aborts the job
in either mode and changes no queue, register or FSM state. The response itself is consumed (log 14). -/
def Obligations.SourceReads : Prop :=
  ∀ (s : State) (rest : List SrcWord), s.core.status = .running → s.rd.state = .read →
    (∀ b, s.core.mode = .compress → s.host.src = srcWord 0 b :: rest → exec (.rdRawByte b) s =
      .next { s with rd := { s.rd with latch := zextCode b, state := .put }, host := { s.host with src := rest } }) ∧
    (∀ d, s.core.mode = .compress → s.host.src = srcWord 1 d :: rest → exec .rdRawEnd s =
      .next { s with rd := { s.rd with state := .eos }, host := { s.host with src := rest } }) ∧
    (∀ m d, s.core.mode = m → s.host.src = srcWord 2 d :: rest → exec (.rdSrcError m) s =
      .next { s with core := s.core.aborted .ioSource .none 0, host := { s.host with src := rest } })

/-- R91, R92: the unpacker on BYTE(b), as numbers, for every bit buffer R29 allows in R_READ; and on END, where it discards
the leftover bits, whatever they are. -/
def Obligations.UnpackerReads : Prop :=
  ∀ s : State, s.core.status = .running → s.core.mode = .decompress → s.rd.state = .read →
    (∀ b rest, s.rd.acc.toNat < 2 ^ s.rd.nbits.toNat → s.rd.nbits = 0 ∨ s.rd.nbits = 4 ∨ s.rd.nbits = 8 →
      s.host.src = srcWord 0 b :: rest →
      let acc := s.rd.acc.toNat * 256 + b.toNat
      let nbits := s.rd.nbits.toNat + 8
      exec (.unpackByte b) s = .next { s with
        rd := if 12 ≤ nbits then
            { latch := BitVec.ofNat 12 (acc / 2 ^ (nbits - 12)), nbits := BitVec.ofNat 5 (nbits - 12),
              acc := BitVec.ofNat 16 (acc % 2 ^ (nbits - 12)), state := .put }
          else { s.rd with acc := BitVec.ofNat 16 acc, nbits := BitVec.ofNat 5 nbits, state := .read }
        host := { s.host with src := rest } }) ∧
    (∀ d rest, s.host.src = srcWord 1 d :: rest → exec .unpackEnd s =
      .next { s with rd := { s.rd with acc := 0, nbits := 0, state := .eos }, host := { s.host with src := rest } })

/-- R132, R133: READER puts the latched item or EOS on QA where a slot is free, and is blocked where none is. -/
def Obligations.ReaderPuts : Prop :=
  ∀ (s : State) (m : Mode), s.core.status = .running → s.core.mode = m →
    (s.rd.state = .put →
      (0 < s.qa.free → exec (.rdPut m) s = .next { s with
        qa := s.qa.afterPut s.qcap (itemElem s.rd.latch), rd := { s.rd with state := .read } }) ∧
      (s.qa.free = 0 → exec (.rdPut m) s = .next s)) ∧
    (s.rd.state = .eos →
      (0 < s.qa.free → exec (.rdEos m) s = .next { s with
        core := s.core.doneIf (s.eng.state = .done ∧ s.wr.state = .done)
        qa := s.qa.afterPut s.qcap eosElem, rd := { s.rd with state := .done } }) ∧
      (s.qa.free = 0 → exec (.rdEos m) s = .next s))

/-! ## ENGINE, COMPRESS -/

/-- R96, R97: C.FETCH on an item, on an element with TAG = 1 whatever its payload, and on an empty QA. R96 has v[11:8] = 0
in the item; that an item with other bits there is run as well, by R59's operand rule, is the model's choice (log 15). -/
def Obligations.CompressFetches : Prop :=
  ∀ s : State, s.core.status = .running → s.core.mode = .compress → s.eng.state = .cFetch →
    (0 < s.qa.filled → ∀ v, s.qa.slot .a s.qa.head = itemElem v → exec (.cFetchSym v) s = .next { s with
      qa := s.qa.afterGet s.qcap, eng := { s.eng with sym := payloadByte v, state := .cMatch } }) ∧
    (0 < s.qa.filled → elemTag (s.qa.slot .a s.qa.head) = true → exec .cFetchEos s = .next { s with
      qa := s.qa.afterGet s.qcap
      eng := { s.eng with state := if s.eng.cur = .root then .cEos else .cFinal } }) ∧
    (s.qa.filled = 0 → (∀ v, exec (.cFetchSym v) s = .next s) ∧ exec .cFetchEos s = .next s)

/-- R98, R99: C.MATCH on a hit and on a miss. No queue is touched. -/
def Obligations.CompressMatches : Prop :=
  ∀ s : State, s.core.status = .running → s.core.mode = .compress → s.eng.state = .cMatch →
    (∀ k, s.dictFind s.eng.cur s.eng.sym = some k → exec .cMatchHit s =
      .next { s with eng := { s.eng with cur := .code k, state := .cFetch } }) ∧
    (s.dictFind s.eng.cur s.eng.sym = none → exec .cMatchMiss s =
      .next { s with eng := { s.eng with state := .cEmit } })

/-- R100: C.EMIT_ADD puts the matched code, adds the new entry and reconsiders the symbol from the root. -/
def Obligations.CompressEmitsAndAdds : Prop :=
  ∀ (s : State) (c : Code), s.core.status = .running → s.core.mode = .compress → s.eng.state = .cEmit →
    s.eng.nextCode.toNat ≤ 4095 → s.eng.cur = .code c →
    (0 < s.qb.free → exec .cEmitAdd s = .next { s with
      qb := s.qb.afterPut s.qcap (itemElem c)
      eng := { s.eng with
        dict := s.eng.dict.write s.eng.nextCode.toNat { parent := c, symbol := s.eng.sym }
        nextCode := s.eng.nextCode + 1, cur := .root, state := .cMatch } }) ∧
    (s.qb.free = 0 → exec .cEmitAdd s = .next s)

/-- R101, R102: with next_code = 4096 C.EMIT_FULL puts the matched code and adds no entry; C.RESET then puts the reset
marker, empties the dictionary and keeps the symbol. -/
def Obligations.CompressFullAndReset : Prop :=
  ∀ s : State, s.core.status = .running → s.core.mode = .compress →
    (∀ c, s.eng.state = .cEmit → s.eng.nextCode = 4096 → s.eng.cur = .code c →
      (0 < s.qb.free → exec .cEmitFull s = .next { s with
        qb := s.qb.afterPut s.qcap (itemElem c), eng := { s.eng with state := .cReset } }) ∧
      (s.qb.free = 0 → exec .cEmitFull s = .next s)) ∧
    (s.eng.state = .cReset →
      (0 < s.qb.free → exec .cReset s = .next { s with
        qb := s.qb.afterPut s.qcap (itemElem 256)
        eng := { s.eng with nextCode := 257, cur := .root, state := .cMatch } }) ∧
      (s.qb.free = 0 → exec .cReset s = .next s))

/-- R103, R104: C.FINAL puts the last code and adds no entry; C.EOS puts EOS. -/
def Obligations.CompressEnds : Prop :=
  ∀ s : State, s.core.status = .running → s.core.mode = .compress →
    (∀ c, s.eng.state = .cFinal → s.eng.cur = .code c →
      (0 < s.qb.free → exec .cFinal s = .next { s with
        qb := s.qb.afterPut s.qcap (itemElem c), eng := { s.eng with state := .cEos } }) ∧
      (s.qb.free = 0 → exec .cFinal s = .next s)) ∧
    (s.eng.state = .cEos →
      (0 < s.qb.free → exec .cEos s = .next { s with
        core := s.core.doneIf (s.rd.state = .done ∧ s.wr.state = .done)
        qb := s.qb.afterPut s.qcap eosElem, eng := { s.eng with state := .done } }) ∧
      (s.qb.free = 0 → exec .cEos s = .next s))

/-! ## ENGINE, DECOMPRESS -/

/-- R111, R121: D.EOS_IN takes an element with TAG = 1 and goes on to D_EOS, fresh or not; D.EOS_OUT puts EOS. -/
def Obligations.DecompressEnds : Prop :=
  ∀ s : State, s.core.status = .running → s.core.mode = .decompress →
    (s.eng.state = .dFetch → 0 < s.qa.filled → elemTag (s.qa.slot .a s.qa.head) = true → exec .dEosIn s =
      .next { s with qa := s.qa.afterGet s.qcap, eng := { s.eng with state := .dEos } }) ∧
    (s.eng.state = .dEos →
      (0 < s.qb.free → exec .dEosOut s = .next { s with
        core := s.core.doneIf (s.rd.state = .done ∧ s.wr.state = .done)
        qb := s.qb.afterPut s.qcap eosElem, eng := { s.eng with state := .done } }) ∧
      (s.qb.free = 0 → exec .dEosOut s = .next s))

/-- R112, R114, R115, R149: each error class aborts with its reason and the code, and changes nothing else: the element
is still in QA. -/
def Obligations.CorruptCodesAbort : Prop :=
  ∀ (s : State) (c : Code), s.core.status = .running → s.core.mode = .decompress → s.eng.state = .dFetch →
    0 < s.qa.filled → s.qa.slot .a s.qa.head = itemElem c →
    (s.eng.fresh = true → 256 ≤ c.toNat →
      exec (.dErrFresh c) s = .next { s with core := s.core.aborted .corrupt .fresh c }) ∧
    (s.eng.fresh = false → 257 ≤ c.toNat → s.eng.prev = [] ∨ s.eng.nextCode.toNat < c.toNat →
      exec (.dErrRange c) s = .next { s with core := s.core.aborted .corrupt .range c }) ∧
    (s.eng.fresh = false ∨ c.toNat ≤ 255 → c.toNat ≠ 256 → s.eng.prev ≠ [] → s.eng.nextCode = 4096 →
      exec (.dErrOverflow c) s = .next { s with core := s.core.aborted .corrupt .overflow c })

/-- R113: D.RESET takes the marker, whatever next_code is, and empties the table. -/
def Obligations.DecompressResets : Prop :=
  ∀ s : State, s.core.status = .running → s.core.mode = .decompress → s.eng.state = .dFetch → 0 < s.qa.filled →
    s.qa.slot .a s.qa.head = itemElem 256 → s.eng.fresh = false →
    exec .dReset s = .next { s with
      qa := s.qa.afterGet s.qcap
      eng := { s.eng with nextCode := 257, prev := [], fresh := true, state := .dFetch } }

/-- R116 with R119: D.LIT, where no error class applies. -/
def Obligations.LiteralDecodes : Prop :=
  ∀ (s : State) (b : Byte), s.core.status = .running → s.core.mode = .decompress → s.eng.state = .dFetch →
    0 < s.qa.filled → s.qa.slot .a s.qa.head = itemElem (zextCode b) →
    s.eng.prev = [] ∨ s.eng.nextCode.toNat ≠ 4096 →
    exec (.dLit b) s = .next { s with
      qa := s.qa.afterGet s.qcap
      eng := { s.eng with
        table := if s.eng.prev = [] then s.eng.table
          else s.eng.table.write s.eng.nextCode.toNat (s.eng.prev ++ [b])
        nextCode := if s.eng.prev = [] then s.eng.nextCode else s.eng.nextCode + 1
        prev := [b], fresh := false, obuf := [b], oidx := 0, state := .dEmit } }

/-- R117 with R119: D.SEQ, where no error class applies and T[c] is a non-empty string (R109): it is read before D_ADD
writes. -/
def Obligations.SequenceDecodes : Prop :=
  ∀ (s : State) (c : Code) (first : Byte) (rest : Str), s.core.status = .running → s.core.mode = .decompress →
    s.eng.state = .dFetch → 0 < s.qa.filled → s.qa.slot .a s.qa.head = itemElem c →
    257 ≤ c.toNat → c.toNat < s.eng.nextCode.toNat → s.eng.nextCode.toNat ≤ 4095 → s.eng.prev ≠ [] →
    s.eng.fresh = false → s.tableAt c.toNat = first :: rest →
    exec (.dSeq c) s = .next { s with
      qa := s.qa.afterGet s.qcap
      eng := { s.eng with
        table := s.eng.table.write s.eng.nextCode.toNat (s.eng.prev ++ [first])
        nextCode := s.eng.nextCode + 1
        prev := first :: rest, fresh := false, obuf := first :: rest, oidx := 0, state := .dEmit } }

/-- R118 with R119: D.KWK, a code equal to next_code ≤ 4095: the string is prev and prev's own first byte, and T[c] is
that string. -/
def Obligations.KwkwkDecodes : Prop :=
  ∀ (s : State) (c : Code) (first : Byte) (rest : Str), s.core.status = .running → s.core.mode = .decompress →
    s.eng.state = .dFetch → 0 < s.qa.filled → s.qa.slot .a s.qa.head = itemElem c →
    257 ≤ c.toNat → s.eng.nextCode.toNat = c.toNat → s.eng.prev = first :: rest → s.eng.fresh = false →
    ∃ t, exec (.dKwk c) s = .next t ∧
      t = { s with
        qa := s.qa.afterGet s.qcap
        eng := { s.eng with
          table := s.eng.table.write c.toNat (s.eng.prev ++ [first])
          nextCode := s.eng.nextCode + 1
          prev := s.eng.prev ++ [first], fresh := false, obuf := s.eng.prev ++ [first], oidx := 0
          state := .dEmit } } ∧
      t.tableAt c.toNat = s.eng.prev ++ [first]

/-- R120: D.EMIT puts the next byte of the string, zero-extended, and goes back to D_FETCH after the last one. -/
def Obligations.DecompressEmits : Prop :=
  ∀ (s : State) (b : Byte), s.core.status = .running → s.core.mode = .decompress → s.eng.state = .dEmit →
    s.eng.obuf[s.eng.oidx.toNat]? = some b → s.eng.obuf.length ≤ 3840 →
    (0 < s.qb.free → exec .dEmit s = .next { s with
      qb := s.qb.afterPut s.qcap (itemElem (zextCode b))
      eng := { s.eng with
        oidx := s.eng.oidx + 1
        state := if s.eng.oidx.toNat + 1 = s.eng.obuf.length then .dFetch else .dEmit } }) ∧
    (s.qb.free = 0 → exec .dEmit s = .next s)

/-! ## WRITER -/

/-- R87, R89: the packer takes a code, as numbers, for every bit buffer R34 allows in W_GET, or EOS, or waits. -/
def Obligations.PackerTakes : Prop :=
  ∀ s : State, s.core.status = .running → s.core.mode = .compress → s.wr.state = .get →
    (0 < s.qb.filled → ∀ c, s.qb.slot .b s.qb.head = itemElem c → s.wr.nbits.toNat ≤ 4 → s.wr.acc.toNat < 16 →
      exec (.packCode c) s = .next { s with
        qb := s.qb.afterGet s.qcap
        wr := { s.wr with acc := BitVec.ofNat 16 (s.wr.acc.toNat * 4096 + c.toNat)
                          nbits := BitVec.ofNat 5 (s.wr.nbits.toNat + 12), state := .emit } }) ∧
    (0 < s.qb.filled → elemTag (s.qb.slot .b s.qb.head) = true → exec .packEos s = .next { s with
      core := s.core.doneIf (s.wr.nbits = 0 ∧ s.rd.state = .done ∧ s.eng.state = .done)
      qb := s.qb.afterGet s.qcap, wr := { s.wr with state := if s.wr.nbits = 0 then .done else .pad } }) ∧
    (s.qb.filled = 0 → (∀ c, exec (.packCode c) s = .next s) ∧ exec .packEos s = .next s)

/-- R88, R90: the packer's sink writes, as numbers, with either answer; without an answer WRITER waits. -/
def Obligations.PackerWrites : Prop :=
  ∀ (s : State) (rest : List SinkAnswer), s.core.status = .running → s.core.mode = .compress →
    s.wr.acc.toNat < 2 ^ s.wr.nbits.toNat →
    (s.wr.state = .emit → 8 ≤ s.wr.nbits.toNat → s.wr.nbits.toNat ≤ 16 →
      (s.host.snk = .ok :: rest → exec (.packEmit .ok) s = .next { s with
        wr := { s.wr with
          nbits := BitVec.ofNat 5 (s.wr.nbits.toNat - 8)
          acc := BitVec.ofNat 16 (s.wr.acc.toNat % 2 ^ (s.wr.nbits.toNat - 8))
          state := if s.wr.nbits.toNat - 8 < 8 then .get else .emit }
        host := { s.host with
          snk := rest
          out := s.host.out ++ [BitVec.ofNat 8 (s.wr.acc.toNat / 2 ^ (s.wr.nbits.toNat - 8))] } }) ∧
      (s.host.snk = .error :: rest → exec (.packEmit .error) s =
        .next { s with core := s.core.aborted .ioSink .none 0, host := { s.host with snk := rest } }) ∧
      (s.host.snk = [] → ∀ r, exec (.packEmit r) s = .next s)) ∧
    (s.wr.state = .pad → s.wr.nbits = 4 →
      (s.host.snk = .ok :: rest → exec (.packFlush .ok) s = .next { s with
        core := s.core.doneIf (s.rd.state = .done ∧ s.eng.state = .done)
        wr := { s.wr with acc := 0, nbits := 0, state := .done }
        host := { s.host with snk := rest, out := s.host.out ++ [BitVec.ofNat 8 (s.wr.acc.toNat * 16)] } }) ∧
      (s.host.snk = .error :: rest → exec (.packFlush .error) s =
        .next { s with core := s.core.aborted .ioSink .none 0, host := { s.host with snk := rest } }) ∧
      (s.host.snk = [] → ∀ r, exec (.packFlush r) s = .next s))

/-- R134, R135, R136: the raw writer takes a byte item or EOS, writes its byte with either answer, and waits otherwise. -/
def Obligations.RawWriterSteps : Prop :=
  ∀ s : State, s.core.status = .running → s.core.mode = .decompress →
    (s.wr.state = .get →
      (0 < s.qb.filled → ∀ v, s.qb.slot .b s.qb.head = itemElem v → exec (.wrRawByte v) s = .next { s with
        qb := s.qb.afterGet s.qcap, wr := { s.wr with byte := payloadByte v, state := .emit } }) ∧
      (0 < s.qb.filled → elemTag (s.qb.slot .b s.qb.head) = true → exec .wrRawEos s = .next { s with
        core := s.core.doneIf (s.rd.state = .done ∧ s.eng.state = .done)
        qb := s.qb.afterGet s.qcap, wr := { s.wr with state := .done } }) ∧
      (s.qb.filled = 0 → (∀ v, exec (.wrRawByte v) s = .next s) ∧ exec .wrRawEos s = .next s)) ∧
    (s.wr.state = .emit →
      (∀ rest, s.host.snk = .ok :: rest → exec (.wrRawEmit .ok) s = .next { s with
        wr := { s.wr with state := .get }
        host := { s.host with snk := rest, out := s.host.out ++ [s.wr.byte] } }) ∧
      (∀ rest, s.host.snk = .error :: rest → exec (.wrRawEmit .error) s =
        .next { s with core := s.core.aborted .ioSink .none 0, host := { s.host with snk := rest } }) ∧
      (s.host.snk = [] → ∀ r, exec (.wrRawEmit r) s = .next s))

/-! ## The host's answers -/

/-- R137: an answer to a source read is READER's own step on that response, ahead of the responses still to come, which
stay (log 17); where READER makes no request, and for kind 3 (R64c), nothing happens. -/
def Obligations.SourceAnswerIsReaderStep : Prop :=
  ∀ (s : State) (d : Byte),
    (s.core.status = .running → s.rd.state = .read →
      (s.core.mode = .compress →
        exec (.hostSrcAnswer 0 d) s = .next { s with rd := { s.rd with latch := zextCode d, state := .put } } ∧
        exec (.hostSrcAnswer 1 d) s = .next { s with rd := { s.rd with state := .eos } }) ∧
      (s.core.mode = .decompress →
        (∃ t, exec (.unpackByte d) { s with host := { s.host with src := srcWord 0 d :: s.host.src } } = .next t ∧
          exec (.hostSrcAnswer 0 d) s = .next t ∧ t.host = s.host) ∧
        exec (.hostSrcAnswer 1 d) s =
          .next { s with rd := { s.rd with acc := 0, nbits := 0, state := .eos } }) ∧
      exec (.hostSrcAnswer 2 d) s = .next { s with core := s.core.aborted .ioSource .none 0 } ∧
      exec (.hostSrcAnswer 3 d) s = .next s) ∧
    (s.core.status ≠ .running ∨ s.rd.state ≠ .read → ∀ k, exec (.hostSrcAnswer k d) s = .next s)

/-- R138: an answer to a sink write is WRITER's own step with that answer, ahead of the answers still to come, which stay
(log 17): OK appends WRITER's byte to the output, ERROR appends nothing; where WRITER offers no byte nothing happens. -/
def Obligations.SinkAnswerIsWriterStep : Prop :=
  ∀ (s : State) (r : SinkAnswer),
    (s.core.status = .running → s.core.mode = .compress → s.wr.state = .emit →
      ∃ t, exec (.packEmit r) { s with host := { s.host with snk := r :: s.host.snk } } = .next t ∧
        exec (.hostSnkAnswer r) s = .next t ∧ t.host = { s.host with
          out := if r = .ok then s.host.out ++ [packedByte s.wr.acc s.wr.nbits] else s.host.out }) ∧
    (s.core.status = .running → s.core.mode = .compress → s.wr.state = .pad →
      ∃ t, exec (.packFlush r) { s with host := { s.host with snk := r :: s.host.snk } } = .next t ∧
        exec (.hostSnkAnswer r) s = .next t ∧ t.host = { s.host with
          out := if r = .ok then s.host.out ++ [paddedByte s.wr.acc s.wr.nbits] else s.host.out }) ∧
    (s.core.status = .running → s.core.mode = .decompress → s.wr.state = .emit →
      ∃ t, exec (.wrRawEmit r) { s with host := { s.host with snk := r :: s.host.snk } } = .next t ∧
        exec (.hostSnkAnswer r) s = .next t ∧ t.host = { s.host with
          out := if r = .ok then s.host.out ++ [s.wr.byte] else s.host.out }) ∧
    (s.core.status ≠ .running ∨ (s.wr.state ≠ .emit ∧ (s.wr.state ≠ .pad ∨ s.core.mode = .decompress)) → exec (.hostSnkAnswer r) s = .next s)

/-! ## Steps and decoding -/

/-- A step takes the first turn out of the schedule and runs the operation that turn's opcode tuple decodes to; where it
decodes to none, the turn passes. With no turn left the turn is a free value (log 1). -/
def Obligations.StepRunsDecoded : Prop :=
  ∀ s : State, 1 ≤ s.qcap →
    (∀ u rest, s.host.turns = u :: rest →
      (∀ i, decode (State.opcode { s with host := { s.host with turns := rest } } u) = .ok i →
        step s = exec i { s with host := { s.host with turns := rest } }) ∧
      (∀ e, decode (State.opcode { s with host := { s.host with turns := rest } } u) = .error e →
        step s = .next { s with host := { s.host with turns := rest } })) ∧
    (s.host.turns = [] → ∃ u : Turn,
      (∀ i, decode (State.opcode { s with draws := s.draws + 1 } u) = .ok i →
        step s = exec i { s with draws := s.draws + 1 }) ∧
      (∀ e, decode (State.opcode { s with draws := s.draws + 1 } u) = .error e →
        step s = .next { s with draws := s.draws + 1 }))

/-- Words written out from the encodings: SRCRESP 00_01000001 is BYTE(0x41), 01_… END, 10_… ERROR; ELEM13 0_…041 is an
item, 1_… EOS; the D.FETCH examples of R110 to R118. -/
def Obligations.WordsDecode : Prop :=
  decode (.reader 0b0 0b0001 (some 0b0001000001)) = .ok (.rdRawByte 0x41) ∧
  decode (.reader 0b1 0b0001 (some 0b0000000100)) = .ok (.unpackByte 0x04) ∧
  decode (.reader 0b1 0b0001 (some 0b0100000000)) = .ok .unpackEnd ∧
  decode (.reader 0b1 0b0001 (some 0b1000000000)) = .ok (.rdSrcError .decompress) ∧
  decode (.engine 0b0 0b0001 (some 0b0000001000001) plainGuard) = .ok (.cFetchSym 0x041) ∧
  decode (.engine 0b0 0b0001 (some 0b1000000000000) plainGuard) = .ok .cFetchEos ∧
  decode (.engine 0b1 0b1000 (some 0b0000100000001)
    { hit := false, fresh := false, prevEmpty := false, nextCode := 257 }) = .ok (.dKwk 0x101) ∧
  decode (.engine 0b1 0b1000 (some 0b0111111111111)
    { hit := false, fresh := false, prevEmpty := false, nextCode := 257 }) = .ok (.dErrRange 0xFFF) ∧
  decode (.engine 0b1 0b1000 (some 0b0111111111111)
    { hit := false, fresh := true, prevEmpty := true, nextCode := 257 }) = .ok (.dErrFresh 0xFFF) ∧
  decode (.writer 0b0 0b0001 (some 0b0000100000000) none) = .ok (.packCode 0x100) ∧
  decode (.writer 0b0 0b0011 none (some 0b1)) = .ok (.packFlush .error) ∧
  decode (.writer 0b1 0b0011 none (some 0b0)) = .error .stateOfOtherMode ∧
  decode (.start 0b1) = .ok (.start .decompress)

/-- The model's two faults (log 12), each at an operand the spec does not define: ROOT has no code to put, and s[i] is not
defined at or past the end (R14). -/
def Obligations.FaultForms : Prop :=
  ∀ s : State, s.core.status = .running →
    (s.core.mode = .compress → s.eng.cur = .root → 0 < s.qb.free →
      (s.eng.state = .cEmit → s.eng.nextCode.toNat ≤ 4095 → exec .cEmitAdd s = .fault .rootHasNoCode) ∧
      (s.eng.state = .cEmit → s.eng.nextCode = 4096 → exec .cEmitFull s = .fault .rootHasNoCode) ∧
      (s.eng.state = .cFinal → exec .cFinal s = .fault .rootHasNoCode)) ∧
    (s.core.mode = .decompress →
      (s.eng.state = .dEmit → 0 < s.qb.free → s.eng.obuf.length ≤ s.eng.oidx.toNat →
        exec .dEmit s = .fault .stringIndex) ∧
      (∀ c : Code, s.eng.state = .dFetch → 0 < s.qa.filled → s.qa.slot .a s.qa.head = itemElem c →
        257 ≤ c.toNat → c.toNat < s.eng.nextCode.toNat → s.eng.nextCode.toNat ≤ 4095 → s.eng.prev ≠ [] →
        s.eng.fresh = false → s.tableAt c.toNat = [] → exec (.dSeq c) s = .fault .stringIndex))

/-- R61: the operation map, line by line, for the tuple the state gives on each agent's turn; a state that is IDLE or DONE
has no step. (D_FETCH is R62's, below.) -/
def Obligations.OperationMap : Prop :=
  ∀ s : State,
    (∀ w, s.rd.state = .read → s.host.src.head? = some w →
      (srcKind w = 0 → decode (s.opcode .reader) = .ok (match s.core.mode with
        | .compress => .rdRawByte (srcData w)
        | .decompress => .unpackByte (srcData w))) ∧
      (srcKind w = 1 → decode (s.opcode .reader) = .ok (match s.core.mode with
        | .compress => .rdRawEnd
        | .decompress => .unpackEnd)) ∧
      (srcKind w = 2 → decode (s.opcode .reader) = .ok (.rdSrcError s.core.mode))) ∧
    (s.rd.state = .put → decode (s.opcode .reader) = .ok (.rdPut s.core.mode)) ∧
    (s.rd.state = .eos → decode (s.opcode .reader) = .ok (.rdEos s.core.mode)) ∧
    (s.core.mode = .compress →
      (∀ e, s.eng.state = .cFetch → s.peek .a = some e → decode (s.opcode .engine) =
        .ok (if elemTag e = true then .cFetchEos else .cFetchSym (elemPayload e))) ∧
      (s.eng.state = .cMatch → decode (s.opcode .engine) =
        .ok (if s.dictFind s.eng.cur s.eng.sym = none then .cMatchMiss else .cMatchHit)) ∧
      (s.eng.state = .cEmit → decode (s.opcode .engine) =
        .ok (if s.eng.nextCode.toNat ≤ 4095 then .cEmitAdd else .cEmitFull)) ∧
      (s.eng.state = .cReset → decode (s.opcode .engine) = .ok .cReset) ∧
      (s.eng.state = .cFinal → decode (s.opcode .engine) = .ok .cFinal) ∧
      (s.eng.state = .cEos → decode (s.opcode .engine) = .ok .cEos) ∧
      (∀ e, s.wr.state = .get → s.peek .b = some e → decode (s.opcode .writer) =
        .ok (if elemTag e = true then .packEos else .packCode (elemPayload e))) ∧
      (∀ r, s.wr.state = .emit → s.host.snk.head? = some r → decode (s.opcode .writer) = .ok (.packEmit r)) ∧
      (∀ r, s.wr.state = .pad → s.host.snk.head? = some r → decode (s.opcode .writer) = .ok (.packFlush r))) ∧
    (s.core.mode = .decompress →
      (∀ e, s.eng.state = .dFetch → s.peek .a = some e → ∃ i, decode (s.opcode .engine) = .ok i) ∧
      (s.eng.state = .dEmit → decode (s.opcode .engine) = .ok .dEmit) ∧
      (s.eng.state = .dEos → decode (s.opcode .engine) = .ok .dEosOut) ∧
      (∀ e, s.wr.state = .get → s.peek .b = some e → decode (s.opcode .writer) =
        .ok (if elemTag e = true then .wrRawEos else .wrRawByte (elemPayload e))) ∧
      (∀ r, s.wr.state = .emit → s.host.snk.head? = some r → decode (s.opcode .writer) = .ok (.wrRawEmit r))) ∧
    (∀ m, decode (s.opcode (.start m)) = .ok (.start m)) ∧ decode (s.opcode .rst) = .ok .rst ∧
    (∀ w, srcKind w ≠ 3 → decode (s.opcode (.srcAnswer w)) = .ok (.hostSrcAnswer (srcKind w) (srcData w))) ∧
    (∀ r, decode (s.opcode (.snkAnswer r)) = .ok (.hostSnkAnswer r)) ∧
    (s.rd.state = .idle ∨ s.rd.state = .done → ∀ i, decode (s.opcode .reader) ≠ .ok i) ∧
    (s.eng.state = .idle ∨ s.eng.state = .done → ∀ i, decode (s.opcode .engine) ≠ .ok i) ∧
    (s.wr.state = .idle ∨ s.wr.state = .done → ∀ i, decode (s.opcode .writer) ≠ .ok i)

/-- R62: the eight lines in order, the first that matches wins; the last one is c = next_code. -/
def Obligations.ClassesOfFetch : Prop :=
  ∀ (s : State) (e : Elem13), s.core.mode = .decompress → s.eng.state = .dFetch → s.peek .a = some e →
    let c := elemPayload e
    let n := s.eng.nextCode.toNat
    let l1 := elemTag e = true
    let l2 := s.eng.fresh = true ∧ 256 ≤ c.toNat
    let l3 := c.toNat = 256
    let l4 := 257 ≤ c.toNat ∧ (s.eng.prev = [] ∨ n < c.toNat)
    let l5 := s.eng.prev ≠ [] ∧ n = 4096
    let l6 := c.toNat ≤ 255
    let l7 := c.toNat < n
    (l1 → decode (s.opcode .engine) = .ok .dEosIn) ∧
    (¬l1 → l2 → decode (s.opcode .engine) = .ok (.dErrFresh c)) ∧
    (¬l1 → ¬l2 → l3 → decode (s.opcode .engine) = .ok .dReset) ∧
    (¬l1 → ¬l2 → ¬l3 → l4 → decode (s.opcode .engine) = .ok (.dErrRange c)) ∧
    (¬l1 → ¬l2 → ¬l3 → ¬l4 → l5 → decode (s.opcode .engine) = .ok (.dErrOverflow c)) ∧
    (¬l1 → ¬l2 → ¬l3 → ¬l4 → ¬l5 → l6 → decode (s.opcode .engine) = .ok (.dLit (payloadByte c))) ∧
    (¬l1 → ¬l2 → ¬l3 → ¬l4 → ¬l5 → ¬l6 → l7 → decode (s.opcode .engine) = .ok (.dSeq c)) ∧
    (¬l1 → ¬l2 → ¬l3 → ¬l4 → ¬l5 → ¬l6 → ¬l7 → decode (s.opcode .engine) = .ok (.dKwk c) ∧ c.toNat = n)

/-- Decoding the opcode tuple of a well-formed operation gives the operation back, with every operand at every value; the
operations with no tuple are the eight sub-operations and DONE, which have no step of their own. -/
def Obligations.EncodingRoundTrips : Prop :=
  ∀ i : Instr,
    (WellFormed i = true → ∀ op, encode i = some op → decode op = .ok i) ∧
    (encode i = none ↔ i = .done ∨ i = .dictInit ∨ i = .dictReset ∨ (∃ q, i = .qInit q) ∨ (∃ q e, i = .qPut q e) ∨
      (∃ q, i = .qGet q) ∨ (∃ n x, i = .dictFind n x) ∨ (∃ n x, i = .dictAdd n x) ∨ (∃ b p, i = .dAdd b p))

/-! ## Whole-machine rules -/

/-- R21: the encodings; core.status is written by RST, START, completion and abort alone, in the ways the rule says; and
outside RUNNING no turn of a stage, and no answer of the host, does anything. -/
def Obligations.StatusWriters : Prop :=
  (statusBits .idle = 0 ∧ statusBits .running = 1 ∧ statusBits .done = 2 ∧ statusBits .aborted = 3) ∧
  ∀ s t : State, step s = .next t →
    (t.core.status ≠ s.core.status →
      (s.nextTurn.1 = .rst ∧ t.core.status = .idle) ∨
      ((∃ m, s.nextTurn.1 = .start m) ∧ s.core.status ≠ .running ∧ t.core.status = .running) ∨
      (s.core.status = .running ∧ t.core.status = .done ∧ allDone t) ∨
      (s.core.status = .running ∧ t.core.status = .aborted ∧ t.core.errCode ≠ .none)) ∧
    (s.nextTurn.1 = .rst → t.core.status = .idle) ∧
    (∀ m, s.nextTurn.1 = .start m → t.core.status = .running) ∧
    (s.core.status ≠ .running → s.nextTurn.1 ≠ .rst → (∀ m, s.nextTurn.1 ≠ .start m) → t = s.nextTurn.2)

/-- R22: the encodings; START loads core.mode from MODE_IN, and while RUNNING nothing but RST changes it. -/
def Obligations.ModeIsStable : Prop :=
  (modeBit .compress = 0 ∧ modeBit .decompress = 1) ∧
  ∀ s t : State, step s = .next t →
    (s.core.status = .running → s.nextTurn.1 ≠ .rst → t.core.mode = s.core.mode) ∧
    (∀ m, s.core.status ≠ .running → s.nextTurn.1 = .start m → t.core.mode = m)

/-- R23: the encodings; the error registers change in DONE and ABORTED by START and RST alone, START and RST clear them,
and while RUNNING only a step that aborts the job writes them. -/
def Obligations.ErrorRegistersHold : Prop :=
  (errCodeBits .none = 0 ∧ errCodeBits .corrupt = 1 ∧ errCodeBits .ioSource = 2 ∧ errCodeBits .ioSink = 3) ∧
  (errReasonBits .none = 0 ∧ errReasonBits .range = 1 ∧ errReasonBits .fresh = 2 ∧ errReasonBits .overflow = 3) ∧
  ∀ s t : State, step s = .next t →
    (t.core.errCode = s.core.errCode ∧ t.core.errReason = s.core.errReason ∧ t.core.errInfo = s.core.errInfo) ∨
    (s.core.status = .running ∧ t.core.status = .aborted ∧
      (t.core.errCode ≠ .corrupt → t.core.errReason = .none ∧ t.core.errInfo = 0)) ∨
    ((s.nextTurn.1 = .rst ∨ ∃ m, s.nextTurn.1 = .start m) ∧
      t.core.errCode = .none ∧ t.core.errReason = .none ∧ t.core.errInfo = 0)

/-- R126, the writes, with R27 and R73: a turn of a stage leaves the other stages' registers, the queue it is not wired to
and the other stage's host port alone, and touches a queue only by the one put or get its wiring allows; and no step, of a
stage or of the HOST, changes QCAP (that RST does not is the model's reading, log 26). -/
def Obligations.StagesWriteTheirOwn : Prop :=
  ∀ s t : State, step s = .next t →
    t.qcap = s.qcap ∧
    (s.nextTurn.1 = .reader → t.eng = s.eng ∧ t.wr = s.wr ∧ t.qb = s.qb ∧ t.host.snk = s.host.snk ∧
      t.host.out = s.host.out ∧ (t.qa = s.qa ∨ (canPut s .a ∧ ∃ e, t.qa = s.qa.afterPut s.qcap e))) ∧
    (s.nextTurn.1 = .engine → t.rd = s.rd ∧ t.wr = s.wr ∧ t.host.src = s.host.src ∧ t.host.snk = s.host.snk ∧
      t.host.out = s.host.out ∧ (t.qa = s.qa ∨ (canGet s .a ∧ t.qa = s.qa.afterGet s.qcap)) ∧
      (t.qb = s.qb ∨ (canPut s .b ∧ ∃ e, t.qb = s.qb.afterPut s.qcap e))) ∧
    (s.nextTurn.1 = .writer → t.rd = s.rd ∧ t.eng = s.eng ∧ t.qa = s.qa ∧ t.host.src = s.host.src ∧
      (t.qb = s.qb ∨ (canGet s .b ∧ t.qb = s.qb.afterGet s.qcap)))

/-- R126, the reads: what a stage's turn writes depends on that stage's own registers, the queues it is wired to, its own
host port, and on core.status, core.mode and QCAP; two states that agree on these give the same registers, queues and
port, whatever the rest of them is. -/
def Obligations.StagesReadTheirOwn : Prop :=
  ∀ s s' t t' : State, step s = .next t → step s' = .next t' → s'.nextTurn.1 = s.nextTurn.1 →
    s'.core.status = s.core.status → s'.core.mode = s.core.mode → s'.qcap = s.qcap →
    (s.nextTurn.1 = .reader → s'.rd = s.rd → s'.qa = s.qa → s'.host.src = s.host.src →
      t'.rd = t.rd ∧ t'.qa = t.qa ∧ t'.host.src = t.host.src) ∧
    (s.nextTurn.1 = .engine → s'.eng = s.eng → s'.qa = s.qa → s'.qb = s.qb →
      t'.eng = t.eng ∧ t'.qa = t.qa ∧ t'.qb = t.qb) ∧
    (s.nextTurn.1 = .writer → s'.wr = s.wr → s'.qb = s.qb → s'.host.snk = s.host.snk → s'.host.out = s.host.out →
      t'.wr = t.wr ∧ t'.qb = t.qb ∧ t'.host.snk = t.host.snk ∧ t'.host.out = t.host.out)

/-- R149: a step that ends a running job by abort writes core.status and the error registers, and no queue, register,
table or FSM state; and from then on no stage has a step. -/
def Obligations.AbortIsPrecise : Prop :=
  ∀ s t : State, step s = .next t → s.core.status = .running → t.core.status = .aborted →
    (t.qa = s.qa ∧ t.qb = s.qb ∧ t.rd = s.rd ∧ t.eng = s.eng ∧ t.wr = s.wr ∧ t.core.mode = s.core.mode ∧
      t.host.out = s.host.out) ∧
    ∀ u, stageTurn u → step (t.withTurns [u]) = .next (t.withTurns [])

/-- R128: a stage's step that is not blocked and does not abort sets DONE exactly where it leaves all three stages in
their DONE states. -/
def Obligations.DoneIsDetected : Prop :=
  ∀ s t : State, step s = .next t → stageTurn s.nextTurn.1 → s.core.status = .running → t ≠ s.nextTurn.2 →
    t.core.status ≠ .aborted →
    t.core.status = if t.rd.state = .done ∧ t.eng.state = .done ∧ t.wr.state = .done then .done else .running

/-- The invariants of R27, R28, R29, R32, R33, R34, R74, R85 and R109, with the canonical form of the internal arrays, are
kept by every step from every state that meets them, whatever the schedule and the host do. -/
def Obligations.EveryStepKeepsInv : Prop := ∀ s t : State, Inv s → step s = .next t → Inv t

/-- From every state that meets the invariant the machine goes on: no fault and no refusal is reached (log 12). -/
def Obligations.InvNeverStops : Prop := ∀ s : State, Inv s → ∃ t, step s = .next t

/-! ## The stream -/

/-- R42: bit j of code i is stream bit 12·i + (11 − j), where stream bit k is bit 7 − k mod 8 of byte k / 8. -/
def Obligations.StreamBitOrder : Prop :=
  ∀ (cs : List Code) (i j : Nat) (c : Code), cs[i]? = some c → j < 12 →
    ∃ b, (packBytes cs)[(12 * i + (11 - j)) / 8]? = some b ∧
      b.getLsbD (7 - (12 * i + (11 - j)) % 8) = c.getLsbD j

/-- R58, R93, R94, as functions: the stream of n codes is ceil(12·n / 8) bytes, and unpacking it gives the codes back. -/
def Obligations.PackedStream : Prop :=
  ∀ cs : List Code, (packBytes cs).length = (12 * cs.length + 7) / 8 ∧ unpackCodes (packBytes cs) = cs

/-- R106: encode(X) is at most len(X) + len(X) / 3840 codes long, and empty exactly when X is. -/
def Obligations.EncodeLength : Prop :=
  ∀ xs : List Byte, (lzwEncode xs).length ≤ xs.length + xs.length / 3840 ∧ (lzwEncode xs = [] ↔ xs = [])

/-- R124, its first sentence: decode(encode(X)) = OK(X) for every byte sequence X. -/
def Obligations.DecodeInvertsEncode : Prop := ∀ xs : List Byte, lzwDecode (lzwEncode xs) = .ok xs

/-! ## Whole jobs, for every schedule of the three stages and every sequence of host answers -/

/-- R93, R106, R150: a COMPRESS job on the bytes X, its source ending with END or ERROR. If it ends DONE, the source ended
with END and the sink has got exactly the packed codes of encode(X). If it ends ABORTED, the sink has got a prefix of them,
and the fault is IO_SINK, or IO_SOURCE where the source ended with ERROR. -/
def Obligations.CompressJobOutput : Prop :=
  ∀ (s t : State) (xs : List Byte) (w : SrcWord) (later : List SrcWord) (ts : List Turn) (n : Nat),
    1 ≤ s.qcap → s.core.status ≠ .running → s.host.turns = .start .compress :: ts → (∀ u ∈ ts, stageTurn u) →
    s.host.src = byteResponses xs ++ w :: later → srcKind w = 1 ∨ srcKind w = 2 →
    n ≤ ts.length → runSteps (n + 1) s = .next t →
    (t.core.status = .done → srcKind w = 1 ∧ t.host.out = s.host.out ++ packBytes (lzwEncode xs)) ∧
    (t.core.status = .aborted →
      (∃ p, p <+: packBytes (lzwEncode xs) ∧ t.host.out = s.host.out ++ p) ∧
      (t.core.errCode = .ioSink ∨ (t.core.errCode = .ioSource ∧ srcKind w = 2)))

/-- R122, R150: a DECOMPRESS job on the bytes Y, its source ending with END or ERROR, with C the codes unpacked from Y. If
it ends DONE, the source ended with END, decode(C) is OK and the sink has got its bytes. If it ends ABORTED, the sink has got
a prefix of the bytes decode(C) puts out, and the fault is IO_SINK, or IO_SOURCE where the source ended with ERROR, or
CORRUPT with the reason and the code of decode(C) = CORRUPT. -/
def Obligations.DecompressJobOutput : Prop :=
  ∀ (s t : State) (ys : List Byte) (w : SrcWord) (later : List SrcWord) (ts : List Turn) (n : Nat),
    1 ≤ s.qcap → s.core.status ≠ .running → s.host.turns = .start .decompress :: ts → (∀ u ∈ ts, stageTurn u) →
    s.host.src = byteResponses ys ++ w :: later → srcKind w = 1 ∨ srcKind w = 2 →
    n ≤ ts.length → runSteps (n + 1) s = .next t →
    (t.core.status = .done →
      srcKind w = 1 ∧ ∃ out, lzwDecode (unpackCodes ys) = .ok out ∧ t.host.out = s.host.out ++ out) ∧
    (t.core.status = .aborted →
      (∃ p, p <+: (lzwDecode (unpackCodes ys)).bytes ∧ t.host.out = s.host.out ++ p) ∧
      (t.core.errCode = .ioSink ∨ (t.core.errCode = .ioSource ∧ srcKind w = 2) ∨
        (t.core.errCode = .corrupt ∧
          ∃ before, lzwDecode (unpackCodes ys) = .corrupt t.core.errReason t.core.errInfo before)))

/-- R124: decode(encode(X)) = OK(X); and a DECOMPRESS job fed the sink output of a COMPRESS job on X that ended DONE, with
no sink error, ends DONE whenever it ends, with sink output X. -/
def Obligations.JobRoundTrip : Prop :=
  (∀ xs : List Byte, lzwDecode (lzwEncode xs) = .ok xs) ∧
  ∀ (s t s' t' : State) (xs zs : List Byte) (d d' : Byte) (later later' : List SrcWord) (ts ts' : List Turn)
    (n n' : Nat),
    1 ≤ s.qcap → s.core.status ≠ .running → s.host.turns = .start .compress :: ts → (∀ u ∈ ts, stageTurn u) →
    s.host.src = byteResponses xs ++ srcWord 1 d :: later → n ≤ ts.length → runSteps (n + 1) s = .next t →
    t.core.status = .done → t.host.out = s.host.out ++ zs →
    1 ≤ s'.qcap → s'.core.status ≠ .running → s'.host.turns = .start .decompress :: ts' → (∀ u ∈ ts', stageTurn u) →
    s'.host.src = byteResponses zs ++ srcWord 1 d' :: later' → n' ≤ ts'.length → runSteps (n' + 1) s' = .next t' →
    t'.core.status = .done ∨ t'.core.status = .aborted → t'.core.errCode ≠ .ioSink →
    t'.core.status = .done ∧ t'.host.out = s'.host.out ++ xs

/-- R143, no deadlock: in every running job in which the host has an answer ready for each stage that waits for one, some
stage has a step, and taking it ends the job or lowers the bound `jobWork`. -/
def Obligations.NoDeadlock : Prop :=
  ∀ s : State, Inv s → s.core.status = .running →
    (s.rd.state = .read → ∃ w rest, s.host.src = w :: rest ∧ srcKind w ≠ 3) →
    (s.wr.state = .emit ∨ s.wr.state = .pad → s.host.snk ≠ []) →
    ∃ u t, stageTurn u ∧ step (s.withTurns [u]) = .next t ∧ (t.core.status = .aborted ∨ jobWork t < jobWork s)

/-- R143, R172: every turn of a stage in a running job passes, aborts the job, or lowers the bound `jobWork`. -/
def Obligations.StepsAreBounded : Prop :=
  ∀ s t : State, Inv s → s.core.status = .running → stageTurn s.nextTurn.1 → step s = .next t →
    t = s.nextTurn.2 ∨ t.core.status = .aborted ∨ jobWork t < jobWork s

/-- R143 on finite schedules: give every stage a turn in each of more than `jobWork` rounds, let the source end with END
or ERROR after its bytes, and let the sink answer at least `jobWork` writes: then the job ends DONE or ABORTED. -/
def Obligations.FairJobsEnd : Prop :=
  ∀ (s : State) (rounds : List (List Turn)) (rest : List Turn), Inv s → s.core.status = .running →
    (∀ r ∈ rounds, fullRound r) → jobWork s < rounds.length → s.host.turns = rounds.flatten ++ rest →
    (s.rd.state = .read ∨ s.rd.state = .put →
      ∃ bs w later, s.host.src = byteResponses bs ++ w :: later ∧ (srcKind w = 1 ∨ srcKind w = 2)) →
    jobWork s ≤ s.host.snk.length →
    ∃ n t, n ≤ rounds.flatten.length ∧ runSteps n s = .next t ∧
      (t.core.status = .done ∨ t.core.status = .aborted)
end

