-- ==== Sys2Proof/Laws/Bits.lean ====
section
/-! SUPPORT. The fields of items and words: what assembling and taking apart gives back. -/

namespace Sys2Proof

/-- A bit of a source response is a bit of its data or of its kind. -/
theorem getLsbD_srcWord (k : BitVec 2) (d : Byte) (i : Nat) :
    (srcWord k d).getLsbD i = if i < 8 then d.getLsbD i else k.getLsbD (i - 8) :=
  BitVec.getLsbD_append

@[simp] theorem srcKind_srcWord (k : BitVec 2) (d : Byte) : srcKind (srcWord k d) = k := by
  apply BitVec.eq_of_getLsbD_eq
  intro i hi
  simp [srcKind, getLsbD_srcWord, hi]

@[simp] theorem srcData_srcWord (k : BitVec 2) (d : Byte) : srcData (srcWord k d) = d := by
  apply BitVec.eq_of_getLsbD_eq
  intro i hi
  simp [srcData, getLsbD_srcWord, hi]

/-- Every source response is its kind and its data. -/
theorem srcWord_eta (w : SrcWord) : srcWord (srcKind w) (srcData w) = w := by
  apply BitVec.eq_of_getLsbD_eq
  intro i hi
  rw [getLsbD_srcWord]
  split
  · simp [srcData, *]
  · simp [srcKind, show 8 + (i - 8) = i by omega, show i - 8 < 2 by omega]

@[simp] theorem elemTag_itemElem (v : Code) : elemTag (itemElem v) = false := by
  simp [elemTag, itemElem]

@[simp] theorem elemPayload_itemElem (v : Code) : elemPayload (itemElem v) = v := by
  simp only [elemPayload, itemElem]
  ext i hi
  simp

@[simp] theorem elemTag_eosElem : elemTag eosElem = true := by decide

/-- An element whose TAG is 0 is the item of its payload. -/
theorem itemElem_of_tag {e : Elem13} (h : elemTag e = false) : itemElem (elemPayload e) = e := by
  apply BitVec.eq_of_getLsbD_eq
  intro i hi
  simp only [elemTag] at h
  rcases Nat.lt_or_eq_of_le (Nat.lt_succ_iff.mp hi) with h1 | h1
  · simp [elemPayload, itemElem, h1, hi]
  · subst h1
    rw [h]
    simp [elemPayload, itemElem]

@[simp] theorem payloadByte_zextCode (b : Byte) : payloadByte (zextCode b) = b := by
  simp only [payloadByte, zextCode]
  ext i hi
  simp

@[simp] theorem zextCode_toNat (b : Byte) : (zextCode b).toNat = b.toNat := by
  simp only [zextCode, BitVec.toNat_setWidth]
  exact Nat.mod_eq_of_lt (by have := b.isLt; omega)

/-- A byte payload is the zero extension of its byte (R60). -/
theorem zextCode_payloadByte {v : Code} (h : v.toNat ≤ 255) : zextCode (payloadByte v) = v := by
  apply BitVec.eq_of_toNat_eq
  rw [zextCode_toNat]
  simp only [payloadByte, BitVec.toNat_setWidth]
  exact Nat.mod_eq_of_lt (by omega)

@[simp] theorem sinkOfBit_sinkBit (r : SinkAnswer) : sinkOfBit (sinkBit r) = r := by cases r <;> rfl

@[simp] theorem modeOfBit_modeBit (m : Mode) : modeOfBit (modeBit m) = m := by cases m <;> rfl

@[simp] theorem rdStateOfBits_rdStateBits (r : RdState) : rdStateOfBits (rdStateBits r) = some r := by cases r <;> rfl

@[simp] theorem engStateOfBits_engStateBits (e : EngState) : engStateOfBits (engStateBits e) = some e := by
  cases e <;> rfl

@[simp] theorem wrStateOfBits_wrStateBits (w : WrState) : wrStateOfBits (wrStateBits w) = some w := by cases w <;> rfl

/-- An element got in D_FETCH decodes as its class says. -/
theorem decode_dFetch (e : Elem13) (g : Guard) : decode (.engine 1 8 (some e) g) = .ok (decodeClass e g) := rfl

end Sys2Proof
end

