-- ==== Sys2Proof/Laws/Arithmetic.lean ====
section
/-! SUPPORT. The bit buffers of the packer and the unpacker as numbers: what each of their operations computes where its
operand is in its range (00_scope.md R13). -/

namespace Sys2Proof.Machine

/-- keepLow is the remainder by 2^nbits. -/
theorem keepLow_toNat (acc : BitBuf) {nbits : BitCount} (h : nbits.toNat ≤ 16) :
    (keepLow acc nbits).toNat = acc.toNat % 2 ^ nbits.toNat := by
  have hlt : 2 ^ nbits.toNat ≤ 2 ^ 16 := Nat.pow_le_pow_right (by decide) h
  have hpos : 1 ≤ 2 ^ nbits.toNat := Nat.one_le_two_pow
  have : (1#16 <<< nbits.toNat - 1#16).toNat = 2 ^ nbits.toNat - 1 := by
    rw [BitVec.toNat_sub, BitVec.toNat_shiftLeft]
    rcases Nat.lt_or_eq_of_le h with h1 | h1
    · have : 2 ^ nbits.toNat < 2 ^ 16 := Nat.pow_lt_pow_right (by decide) h1
      simp only [BitVec.toNat_ofNat, Nat.shiftLeft_eq]
      omega
    · rw [h1]; decide
  rw [keepLow, BitVec.toNat_and, this, Nat.and_two_pow_sub_one_eq_mod]

/-- `(acc << 8) | b` of a buffer below 2^8 (R91). -/
theorem pushByte_toNat {acc : BitBuf} (h : acc.toNat < 2 ^ 8) (b : Byte) :
    (pushByte acc b).toNat = acc.toNat * 256 + b.toNat := by
  have hb := b.isLt
  have : (pushByte acc b).toNat = (acc.toNat <<< 8 % 2 ^ 16) ||| b.toNat := by
    simp [pushByte, BitVec.toNat_or, BitVec.toNat_shiftLeft, Nat.mod_eq_of_lt (show b.toNat < 65536 by omega)]
  rw [this, Nat.mod_eq_of_lt (by rw [Nat.shiftLeft_eq]; omega), ← Nat.shiftLeft_add_eq_or_of_lt hb, Nat.shiftLeft_eq]

/-- `(acc << 12) | c` of a buffer below 2^4 (R87). -/
theorem pushCode_toNat {acc : BitBuf} (h : acc.toNat < 2 ^ 4) (c : Code) :
    (pushCode acc c).toNat = acc.toNat * 4096 + c.toNat := by
  have hb := c.isLt
  have : (pushCode acc c).toNat = (acc.toNat <<< 12 % 2 ^ 16) ||| c.toNat := by
    simp [pushCode, BitVec.toNat_or, BitVec.toNat_shiftLeft, Nat.mod_eq_of_lt (show c.toNat < 65536 by omega)]
  rw [this, Nat.mod_eq_of_lt (by rw [Nat.shiftLeft_eq]; omega), ← Nat.shiftLeft_add_eq_or_of_lt hb, Nat.shiftLeft_eq]

/-- The top 8 valid bits (R88). -/
theorem packedByte_toNat {acc : BitBuf} {nbits : BitCount} (h : acc.toNat < 2 ^ nbits.toNat) (h8 : 8 ≤ nbits.toNat) :
    (packedByte acc nbits).toNat = acc.toNat / 2 ^ (nbits.toNat - 8) := by
  have hs : (nbits - 8).toNat = nbits.toNat - 8 := by
    rw [BitVec.toNat_sub]; have := nbits.isLt; simp; omega
  simp only [packedByte, hs, BitVec.toNat_setWidth, BitVec.toNat_ushiftRight, Nat.shiftRight_eq_div_pow]
  apply Nat.mod_eq_of_lt
  rw [Nat.div_lt_iff_lt_mul (by positivity), ← Nat.pow_add]
  rwa [show 8 + (nbits.toNat - 8) = nbits.toNat by omega]

/-- The top 12 valid bits (R91). -/
theorem unpackedCode_toNat {acc : BitBuf} {nbits : BitCount} (h : acc.toNat < 2 ^ nbits.toNat) (h12 : 12 ≤ nbits.toNat) :
    (unpackedCode acc nbits).toNat = acc.toNat / 2 ^ (nbits.toNat - 12) := by
  have hs : (nbits - 12).toNat = nbits.toNat - 12 := by
    rw [BitVec.toNat_sub]; have := nbits.isLt; simp; omega
  simp only [unpackedCode, hs, BitVec.toNat_setWidth, BitVec.toNat_ushiftRight, Nat.shiftRight_eq_div_pow]
  apply Nat.mod_eq_of_lt
  rw [Nat.div_lt_iff_lt_mul (by positivity), ← Nat.pow_add]
  rwa [show 12 + (nbits.toNat - 12) = nbits.toNat by omega]

/-- The final byte of a buffer of 4 bits (R90). -/
theorem paddedByte_toNat {acc : BitBuf} (h : acc.toNat < 2 ^ 4) :
    (paddedByte acc 4).toNat = acc.toNat * 16 := by
  have : ((8 : BitCount) - 4).toNat = 4 := by decide
  simp only [paddedByte, this, BitVec.toNat_setWidth, BitVec.toNat_shiftLeft, Nat.shiftLeft_eq]
  omega

/-- `eng.next_code + 1` fits its register while next_code is at most 4096 (R13). -/
theorem next_succ {n : Counter} (h : n.toNat ≤ 4096) : (n + 1).toNat = n.toNat + 1 := by
  rw [BitVec.toNat_add]; simp; omega

end Sys2Proof.Machine
end

