-- ==== Sys2Proof/Laws/Arrays.lean ====
section
/-! SUPPORT. The internal arrays: a read after a write, and the canonical form kept by every write. -/

namespace Sys2Proof.Machine

variable {α : Type}

/-- A read of the index just written gives the value written. -/
@[simp] theorem lookupCell_insertCell_same (cells : List (Nat × α)) (k : Nat) (v : α) :
    lookupCell (insertCell cells k v) k = some v := by
  induction cells with
  | nil => simp [insertCell, lookupCell]
  | cons c rest ih =>
    obtain ⟨i, w⟩ := c
    unfold insertCell
    split
    · simp [lookupCell]
    · split
      · simp [lookupCell]
      · rename_i h1 h2
        simpa [lookupCell, Ne.symm h2] using ih

/-- A write leaves every other index alone. -/
theorem lookupCell_insertCell_other (cells : List (Nat × α)) {k j : Nat} (h : j ≠ k) (v : α) :
    lookupCell (insertCell cells k v) j = lookupCell cells j := by
  induction cells with
  | nil => simp [insertCell, lookupCell, Ne.symm h]
  | cons c rest ih =>
    obtain ⟨i, w⟩ := c
    unfold insertCell
    split
    · simp [lookupCell, Ne.symm h]
    · split
      · rename_i h2
        subst h2
        simp [lookupCell, Ne.symm h]
      · simp only [lookupCell, ih]

/-- Every index after a write is the one written or was listed before. -/
theorem mem_insertCell {cells : List (Nat × α)} {k : Nat} {v : α} {c : Nat × α}
    (h : c ∈ insertCell cells k v) : c.1 = k ∨ c ∈ cells := by
  induction cells with
  | nil => simp_all [insertCell]
  | cons d rest ih =>
    unfold insertCell at h
    split at h
    · rcases List.mem_cons.mp h with rfl | h
      · exact .inl rfl
      · exact .inr h
    · split at h
      · rcases List.mem_cons.mp h with rfl | h
        · exact .inl rfl
        · exact .inr (List.mem_cons_of_mem _ h)
      · rcases List.mem_cons.mp h with rfl | h
        · exact .inr List.mem_cons_self
        · exact (ih h).imp id (List.mem_cons_of_mem _)

/-- A write keeps the canonical form. -/
theorem cellsWf_insertCell {cells : List (Nat × α)} (h : Memory.cellsWf cells) (k : Nat) (v : α) :
    Memory.cellsWf (insertCell cells k v) := by
  induction cells with
  | nil => simp [insertCell, Memory.cellsWf]
  | cons c rest ih =>
    obtain ⟨i, w⟩ := c
    obtain ⟨hlt, hrest⟩ := List.pairwise_cons.mp h
    unfold insertCell
    split
    · rename_i hk
      refine List.pairwise_cons.mpr ⟨fun d hd => ?_, h⟩
      rcases List.mem_cons.mp hd with rfl | hd
      · exact hk
      · exact Nat.lt_trans hk (hlt d hd)
    · split
      · rename_i hk
        exact List.pairwise_cons.mpr ⟨fun d hd => hk ▸ hlt d hd, hrest⟩
      · rename_i h1 h2
        refine List.pairwise_cons.mpr ⟨fun d hd => ?_, ih hrest⟩
        rcases mem_insertCell hd with h | h
        · exact h ▸ (show i < k by omega)
        · exact hlt d h

/-- `A[k] <- v` keeps the canonical form. -/
theorem cellsWf_write {a : Slots α} (h : Memory.cellsWf a.cells) (k : Nat) (v : α) :
    Memory.cellsWf (a.write k v).cells := cellsWf_insertCell h k v

/-- An array of which nothing is written is in canonical form. -/
@[simp] theorem cellsWf_unwritten (n : Nat) : Memory.cellsWf (Slots.unwritten n : Slots α).cells := List.Pairwise.nil

end Sys2Proof.Machine
end

