-- ==== Sys2Proof/Laws/State.lean ====
section
/-! SUPPORT. One lemma for each field of the state and each update or operation: what the update leaves there. -/

namespace Sys2Proof.Machine

/-! ## The updates -/

@[simp] theorem State.setCore_core (s : State) (c : CoreRegs) : (s.setCore c).core = c := rfl
@[simp] theorem State.setCore_qa (s : State) (c : CoreRegs) : (s.setCore c).qa = s.qa := rfl
@[simp] theorem State.setCore_qb (s : State) (c : CoreRegs) : (s.setCore c).qb = s.qb := rfl
@[simp] theorem State.setCore_rd (s : State) (c : CoreRegs) : (s.setCore c).rd = s.rd := rfl
@[simp] theorem State.setCore_eng (s : State) (c : CoreRegs) : (s.setCore c).eng = s.eng := rfl
@[simp] theorem State.setCore_wr (s : State) (c : CoreRegs) : (s.setCore c).wr = s.wr := rfl
@[simp] theorem State.setCore_qcap (s : State) (c : CoreRegs) : (s.setCore c).qcap = s.qcap := rfl
@[simp] theorem State.setCore_host (s : State) (c : CoreRegs) : (s.setCore c).host = s.host := rfl
@[simp] theorem State.setCore_draws (s : State) (c : CoreRegs) : (s.setCore c).draws = s.draws := rfl
@[simp] theorem State.setCore_ret (s : State) (c : CoreRegs) : (s.setCore c).ret = s.ret := rfl

@[simp] theorem State.setRd_core (s : State) (r : Reader) : (s.setRd r).core = s.core := rfl
@[simp] theorem State.setRd_qa (s : State) (r : Reader) : (s.setRd r).qa = s.qa := rfl
@[simp] theorem State.setRd_qb (s : State) (r : Reader) : (s.setRd r).qb = s.qb := rfl
@[simp] theorem State.setRd_rd (s : State) (r : Reader) : (s.setRd r).rd = r := rfl
@[simp] theorem State.setRd_eng (s : State) (r : Reader) : (s.setRd r).eng = s.eng := rfl
@[simp] theorem State.setRd_wr (s : State) (r : Reader) : (s.setRd r).wr = s.wr := rfl
@[simp] theorem State.setRd_qcap (s : State) (r : Reader) : (s.setRd r).qcap = s.qcap := rfl
@[simp] theorem State.setRd_host (s : State) (r : Reader) : (s.setRd r).host = s.host := rfl
@[simp] theorem State.setRd_draws (s : State) (r : Reader) : (s.setRd r).draws = s.draws := rfl
@[simp] theorem State.setRd_ret (s : State) (r : Reader) : (s.setRd r).ret = s.ret := rfl

@[simp] theorem State.setEng_core (s : State) (e : Engine) : (s.setEng e).core = s.core := rfl
@[simp] theorem State.setEng_qa (s : State) (e : Engine) : (s.setEng e).qa = s.qa := rfl
@[simp] theorem State.setEng_qb (s : State) (e : Engine) : (s.setEng e).qb = s.qb := rfl
@[simp] theorem State.setEng_rd (s : State) (e : Engine) : (s.setEng e).rd = s.rd := rfl
@[simp] theorem State.setEng_eng (s : State) (e : Engine) : (s.setEng e).eng = e := rfl
@[simp] theorem State.setEng_wr (s : State) (e : Engine) : (s.setEng e).wr = s.wr := rfl
@[simp] theorem State.setEng_qcap (s : State) (e : Engine) : (s.setEng e).qcap = s.qcap := rfl
@[simp] theorem State.setEng_host (s : State) (e : Engine) : (s.setEng e).host = s.host := rfl
@[simp] theorem State.setEng_draws (s : State) (e : Engine) : (s.setEng e).draws = s.draws := rfl
@[simp] theorem State.setEng_ret (s : State) (e : Engine) : (s.setEng e).ret = s.ret := rfl

@[simp] theorem State.setWr_core (s : State) (w : Writer) : (s.setWr w).core = s.core := rfl
@[simp] theorem State.setWr_qa (s : State) (w : Writer) : (s.setWr w).qa = s.qa := rfl
@[simp] theorem State.setWr_qb (s : State) (w : Writer) : (s.setWr w).qb = s.qb := rfl
@[simp] theorem State.setWr_rd (s : State) (w : Writer) : (s.setWr w).rd = s.rd := rfl
@[simp] theorem State.setWr_eng (s : State) (w : Writer) : (s.setWr w).eng = s.eng := rfl
@[simp] theorem State.setWr_wr (s : State) (w : Writer) : (s.setWr w).wr = w := rfl
@[simp] theorem State.setWr_qcap (s : State) (w : Writer) : (s.setWr w).qcap = s.qcap := rfl
@[simp] theorem State.setWr_host (s : State) (w : Writer) : (s.setWr w).host = s.host := rfl
@[simp] theorem State.setWr_draws (s : State) (w : Writer) : (s.setWr w).draws = s.draws := rfl
@[simp] theorem State.setWr_ret (s : State) (w : Writer) : (s.setWr w).ret = s.ret := rfl

@[simp] theorem State.setHost_core (s : State) (h : HostSide) : (s.setHost h).core = s.core := rfl
@[simp] theorem State.setHost_qa (s : State) (h : HostSide) : (s.setHost h).qa = s.qa := rfl
@[simp] theorem State.setHost_qb (s : State) (h : HostSide) : (s.setHost h).qb = s.qb := rfl
@[simp] theorem State.setHost_rd (s : State) (h : HostSide) : (s.setHost h).rd = s.rd := rfl
@[simp] theorem State.setHost_eng (s : State) (h : HostSide) : (s.setHost h).eng = s.eng := rfl
@[simp] theorem State.setHost_wr (s : State) (h : HostSide) : (s.setHost h).wr = s.wr := rfl
@[simp] theorem State.setHost_qcap (s : State) (h : HostSide) : (s.setHost h).qcap = s.qcap := rfl
@[simp] theorem State.setHost_host (s : State) (h : HostSide) : (s.setHost h).host = h := rfl
@[simp] theorem State.setHost_draws (s : State) (h : HostSide) : (s.setHost h).draws = s.draws := rfl
@[simp] theorem State.setHost_ret (s : State) (h : HostSide) : (s.setHost h).ret = s.ret := rfl

@[simp] theorem State.setRet_core (s : State) (r : SubResult) : (s.setRet r).core = s.core := rfl
@[simp] theorem State.setRet_qa (s : State) (r : SubResult) : (s.setRet r).qa = s.qa := rfl
@[simp] theorem State.setRet_qb (s : State) (r : SubResult) : (s.setRet r).qb = s.qb := rfl
@[simp] theorem State.setRet_rd (s : State) (r : SubResult) : (s.setRet r).rd = s.rd := rfl
@[simp] theorem State.setRet_eng (s : State) (r : SubResult) : (s.setRet r).eng = s.eng := rfl
@[simp] theorem State.setRet_wr (s : State) (r : SubResult) : (s.setRet r).wr = s.wr := rfl
@[simp] theorem State.setRet_qcap (s : State) (r : SubResult) : (s.setRet r).qcap = s.qcap := rfl
@[simp] theorem State.setRet_host (s : State) (r : SubResult) : (s.setRet r).host = s.host := rfl
@[simp] theorem State.setRet_draws (s : State) (r : SubResult) : (s.setRet r).draws = s.draws := rfl
@[simp] theorem State.setRet_ret (s : State) (r : SubResult) : (s.setRet r).ret = r := rfl

@[simp] theorem State.setQueue_core (s : State) (id : QueueId) (q : Queue) : (s.setQueue id q).core = s.core := by cases id <;> rfl
@[simp] theorem State.setQueue_a_qa (s : State) (q : Queue) : (s.setQueue .a q).qa = q := rfl
@[simp] theorem State.setQueue_b_qa (s : State) (q : Queue) : (s.setQueue .b q).qa = s.qa := rfl
@[simp] theorem State.setQueue_a_qb (s : State) (q : Queue) : (s.setQueue .a q).qb = s.qb := rfl
@[simp] theorem State.setQueue_b_qb (s : State) (q : Queue) : (s.setQueue .b q).qb = q := rfl
@[simp] theorem State.setQueue_rd (s : State) (id : QueueId) (q : Queue) : (s.setQueue id q).rd = s.rd := by cases id <;> rfl
@[simp] theorem State.setQueue_eng (s : State) (id : QueueId) (q : Queue) : (s.setQueue id q).eng = s.eng := by cases id <;> rfl
@[simp] theorem State.setQueue_wr (s : State) (id : QueueId) (q : Queue) : (s.setQueue id q).wr = s.wr := by cases id <;> rfl
@[simp] theorem State.setQueue_qcap (s : State) (id : QueueId) (q : Queue) : (s.setQueue id q).qcap = s.qcap := by cases id <;> rfl
@[simp] theorem State.setQueue_host (s : State) (id : QueueId) (q : Queue) : (s.setQueue id q).host = s.host := by cases id <;> rfl
@[simp] theorem State.setQueue_draws (s : State) (id : QueueId) (q : Queue) : (s.setQueue id q).draws = s.draws := by cases id <;> rfl
@[simp] theorem State.setQueue_ret (s : State) (id : QueueId) (q : Queue) : (s.setQueue id q).ret = s.ret := by cases id <;> rfl

@[simp] theorem State.queue_a (s : State) : s.queue .a = s.qa := rfl
@[simp] theorem State.queue_b (s : State) : s.queue .b = s.qb := rfl
@[simp] theorem State.setQueue_queue_same (s : State) (id : QueueId) (q : Queue) : (s.setQueue id q).queue id = q := by
  cases id <;> rfl
theorem State.setQueue_queue_other (s : State) {id other : QueueId} (h : other ≠ id) (q : Queue) :
    (s.setQueue id q).queue other = s.queue other := by
  cases id <;> cases other <;> first | exact absurd rfl h | rfl

/-! ## The operations: the fields they leave alone -/

@[simp] theorem State.qPut_core (s : State) (id : QueueId) (e : Elem13) : (s.qPut id e).core = s.core := by cases id <;> rfl
@[simp] theorem State.qPut_rd (s : State) (id : QueueId) (e : Elem13) : (s.qPut id e).rd = s.rd := by cases id <;> rfl
@[simp] theorem State.qPut_eng (s : State) (id : QueueId) (e : Elem13) : (s.qPut id e).eng = s.eng := by cases id <;> rfl
@[simp] theorem State.qPut_wr (s : State) (id : QueueId) (e : Elem13) : (s.qPut id e).wr = s.wr := by cases id <;> rfl
@[simp] theorem State.qPut_qcap (s : State) (id : QueueId) (e : Elem13) : (s.qPut id e).qcap = s.qcap := by cases id <;> rfl
@[simp] theorem State.qPut_host (s : State) (id : QueueId) (e : Elem13) : (s.qPut id e).host = s.host := by cases id <;> rfl
@[simp] theorem State.qPut_draws (s : State) (id : QueueId) (e : Elem13) : (s.qPut id e).draws = s.draws := by cases id <;> rfl
@[simp] theorem State.qPut_ret (s : State) (id : QueueId) (e : Elem13) : (s.qPut id e).ret = s.ret := by cases id <;> rfl

@[simp] theorem State.qPut_a_qb (s : State) (e : Elem13) : (s.qPut .a e).qb = s.qb := rfl
@[simp] theorem State.qPut_b_qa (s : State) (e : Elem13) : (s.qPut .b e).qa = s.qa := rfl

@[simp] theorem State.qGet_core (s : State) (id : QueueId) : (s.qGet id).core = s.core := by cases id <;> rfl
@[simp] theorem State.qGet_rd (s : State) (id : QueueId) : (s.qGet id).rd = s.rd := by cases id <;> rfl
@[simp] theorem State.qGet_eng (s : State) (id : QueueId) : (s.qGet id).eng = s.eng := by cases id <;> rfl
@[simp] theorem State.qGet_wr (s : State) (id : QueueId) : (s.qGet id).wr = s.wr := by cases id <;> rfl
@[simp] theorem State.qGet_qcap (s : State) (id : QueueId) : (s.qGet id).qcap = s.qcap := by cases id <;> rfl
@[simp] theorem State.qGet_host (s : State) (id : QueueId) : (s.qGet id).host = s.host := by cases id <;> rfl
@[simp] theorem State.qGet_draws (s : State) (id : QueueId) : (s.qGet id).draws = s.draws := by cases id <;> rfl
@[simp] theorem State.qGet_ret (s : State) (id : QueueId) : (s.qGet id).ret = s.ret := by cases id <;> rfl

@[simp] theorem State.qGet_a_qb (s : State) : (s.qGet .a).qb = s.qb := rfl
@[simp] theorem State.qGet_b_qa (s : State) : (s.qGet .b).qa = s.qa := rfl

@[simp] theorem State.qInit_core (s : State) (id : QueueId) : (s.qInit id).core = s.core := by cases id <;> rfl
@[simp] theorem State.qInit_rd (s : State) (id : QueueId) : (s.qInit id).rd = s.rd := by cases id <;> rfl
@[simp] theorem State.qInit_eng (s : State) (id : QueueId) : (s.qInit id).eng = s.eng := by cases id <;> rfl
@[simp] theorem State.qInit_wr (s : State) (id : QueueId) : (s.qInit id).wr = s.wr := by cases id <;> rfl
@[simp] theorem State.qInit_qcap (s : State) (id : QueueId) : (s.qInit id).qcap = s.qcap := by cases id <;> rfl
@[simp] theorem State.qInit_host (s : State) (id : QueueId) : (s.qInit id).host = s.host := by cases id <;> rfl
@[simp] theorem State.qInit_ret (s : State) (id : QueueId) : (s.qInit id).ret = s.ret := by cases id <;> rfl

@[simp] theorem State.qInit_a_qb (s : State) : (s.qInit .a).qb = s.qb := rfl
@[simp] theorem State.qInit_b_qa (s : State) : (s.qInit .b).qa = s.qa := rfl

@[simp] theorem State.dictInit_core (s : State) : (s.dictInit).core = s.core := rfl
@[simp] theorem State.dictInit_qa (s : State) : (s.dictInit).qa = s.qa := rfl
@[simp] theorem State.dictInit_qb (s : State) : (s.dictInit).qb = s.qb := rfl
@[simp] theorem State.dictInit_rd (s : State) : (s.dictInit).rd = s.rd := rfl
@[simp] theorem State.dictInit_wr (s : State) : (s.dictInit).wr = s.wr := rfl
@[simp] theorem State.dictInit_qcap (s : State) : (s.dictInit).qcap = s.qcap := rfl
@[simp] theorem State.dictInit_host (s : State) : (s.dictInit).host = s.host := rfl
@[simp] theorem State.dictInit_draws (s : State) : (s.dictInit).draws = s.draws := rfl
@[simp] theorem State.dictInit_ret (s : State) : (s.dictInit).ret = s.ret := rfl

@[simp] theorem State.dictReset_core (s : State) : (s.dictReset).core = s.core := rfl
@[simp] theorem State.dictReset_qa (s : State) : (s.dictReset).qa = s.qa := rfl
@[simp] theorem State.dictReset_qb (s : State) : (s.dictReset).qb = s.qb := rfl
@[simp] theorem State.dictReset_rd (s : State) : (s.dictReset).rd = s.rd := rfl
@[simp] theorem State.dictReset_wr (s : State) : (s.dictReset).wr = s.wr := rfl
@[simp] theorem State.dictReset_qcap (s : State) : (s.dictReset).qcap = s.qcap := rfl
@[simp] theorem State.dictReset_host (s : State) : (s.dictReset).host = s.host := rfl
@[simp] theorem State.dictReset_draws (s : State) : (s.dictReset).draws = s.draws := rfl
@[simp] theorem State.dictReset_ret (s : State) : (s.dictReset).ret = s.ret := rfl

@[simp] theorem State.dictAdd_core (s : State) (n : Code) (x : Byte) : (s.dictAdd n x).core = s.core := rfl
@[simp] theorem State.dictAdd_qa (s : State) (n : Code) (x : Byte) : (s.dictAdd n x).qa = s.qa := rfl
@[simp] theorem State.dictAdd_qb (s : State) (n : Code) (x : Byte) : (s.dictAdd n x).qb = s.qb := rfl
@[simp] theorem State.dictAdd_rd (s : State) (n : Code) (x : Byte) : (s.dictAdd n x).rd = s.rd := rfl
@[simp] theorem State.dictAdd_wr (s : State) (n : Code) (x : Byte) : (s.dictAdd n x).wr = s.wr := rfl
@[simp] theorem State.dictAdd_qcap (s : State) (n : Code) (x : Byte) : (s.dictAdd n x).qcap = s.qcap := rfl
@[simp] theorem State.dictAdd_host (s : State) (n : Code) (x : Byte) : (s.dictAdd n x).host = s.host := rfl
@[simp] theorem State.dictAdd_draws (s : State) (n : Code) (x : Byte) : (s.dictAdd n x).draws = s.draws := rfl
@[simp] theorem State.dictAdd_ret (s : State) (n : Code) (x : Byte) : (s.dictAdd n x).ret = s.ret := rfl

@[simp] theorem State.dAdd_core (s : State) (b : Byte) : (s.dAdd b).core = s.core := by unfold State.dAdd; split <;> rfl
@[simp] theorem State.dAdd_qa (s : State) (b : Byte) : (s.dAdd b).qa = s.qa := by unfold State.dAdd; split <;> rfl
@[simp] theorem State.dAdd_qb (s : State) (b : Byte) : (s.dAdd b).qb = s.qb := by unfold State.dAdd; split <;> rfl
@[simp] theorem State.dAdd_rd (s : State) (b : Byte) : (s.dAdd b).rd = s.rd := by unfold State.dAdd; split <;> rfl
@[simp] theorem State.dAdd_wr (s : State) (b : Byte) : (s.dAdd b).wr = s.wr := by unfold State.dAdd; split <;> rfl
@[simp] theorem State.dAdd_qcap (s : State) (b : Byte) : (s.dAdd b).qcap = s.qcap := by unfold State.dAdd; split <;> rfl
@[simp] theorem State.dAdd_host (s : State) (b : Byte) : (s.dAdd b).host = s.host := by unfold State.dAdd; split <;> rfl
@[simp] theorem State.dAdd_draws (s : State) (b : Byte) : (s.dAdd b).draws = s.draws := by unfold State.dAdd; split <;> rfl
@[simp] theorem State.dAdd_ret (s : State) (b : Byte) : (s.dAdd b).ret = s.ret := by unfold State.dAdd; split <;> rfl

@[simp] theorem State.dDecoded_core (s : State) (b : Byte) (rest : Str) : (s.dDecoded b rest).core = s.core := by simp [State.dDecoded]
@[simp] theorem State.dDecoded_qa (s : State) (b : Byte) (rest : Str) : (s.dDecoded b rest).qa = s.qa := by simp [State.dDecoded]
@[simp] theorem State.dDecoded_qb (s : State) (b : Byte) (rest : Str) : (s.dDecoded b rest).qb = s.qb := by simp [State.dDecoded]
@[simp] theorem State.dDecoded_rd (s : State) (b : Byte) (rest : Str) : (s.dDecoded b rest).rd = s.rd := by simp [State.dDecoded]
@[simp] theorem State.dDecoded_wr (s : State) (b : Byte) (rest : Str) : (s.dDecoded b rest).wr = s.wr := by simp [State.dDecoded]
@[simp] theorem State.dDecoded_qcap (s : State) (b : Byte) (rest : Str) : (s.dDecoded b rest).qcap = s.qcap := by simp [State.dDecoded]
@[simp] theorem State.dDecoded_host (s : State) (b : Byte) (rest : Str) : (s.dDecoded b rest).host = s.host := by simp [State.dDecoded]
@[simp] theorem State.dDecoded_draws (s : State) (b : Byte) (rest : Str) : (s.dDecoded b rest).draws = s.draws := by simp [State.dDecoded]
@[simp] theorem State.dDecoded_ret (s : State) (b : Byte) (rest : Str) : (s.dDecoded b rest).ret = s.ret := by simp [State.dDecoded]

@[simp] theorem State.abort_qa (s : State) (c : ErrCode) (r : ErrReason) (i : Code) : (s.abort c r i).qa = s.qa := rfl
@[simp] theorem State.abort_qb (s : State) (c : ErrCode) (r : ErrReason) (i : Code) : (s.abort c r i).qb = s.qb := rfl
@[simp] theorem State.abort_rd (s : State) (c : ErrCode) (r : ErrReason) (i : Code) : (s.abort c r i).rd = s.rd := rfl
@[simp] theorem State.abort_eng (s : State) (c : ErrCode) (r : ErrReason) (i : Code) : (s.abort c r i).eng = s.eng := rfl
@[simp] theorem State.abort_wr (s : State) (c : ErrCode) (r : ErrReason) (i : Code) : (s.abort c r i).wr = s.wr := rfl
@[simp] theorem State.abort_qcap (s : State) (c : ErrCode) (r : ErrReason) (i : Code) : (s.abort c r i).qcap = s.qcap := rfl
@[simp] theorem State.abort_host (s : State) (c : ErrCode) (r : ErrReason) (i : Code) : (s.abort c r i).host = s.host := rfl
@[simp] theorem State.abort_draws (s : State) (c : ErrCode) (r : ErrReason) (i : Code) : (s.abort c r i).draws = s.draws := rfl
@[simp] theorem State.abort_ret (s : State) (c : ErrCode) (r : ErrReason) (i : Code) : (s.abort c r i).ret = s.ret := rfl

@[simp] theorem State.sourceRead_core (s : State) : (s.sourceRead).core = s.core := rfl
@[simp] theorem State.sourceRead_qa (s : State) : (s.sourceRead).qa = s.qa := rfl
@[simp] theorem State.sourceRead_qb (s : State) : (s.sourceRead).qb = s.qb := rfl
@[simp] theorem State.sourceRead_rd (s : State) : (s.sourceRead).rd = s.rd := rfl
@[simp] theorem State.sourceRead_eng (s : State) : (s.sourceRead).eng = s.eng := rfl
@[simp] theorem State.sourceRead_wr (s : State) : (s.sourceRead).wr = s.wr := rfl
@[simp] theorem State.sourceRead_qcap (s : State) : (s.sourceRead).qcap = s.qcap := rfl
@[simp] theorem State.sourceRead_draws (s : State) : (s.sourceRead).draws = s.draws := rfl
@[simp] theorem State.sourceRead_ret (s : State) : (s.sourceRead).ret = s.ret := rfl

@[simp] theorem State.sinkWrite_core (s : State) (b : Byte) (r : SinkAnswer) : (s.sinkWrite b r).core = s.core := by cases r <;> rfl
@[simp] theorem State.sinkWrite_qa (s : State) (b : Byte) (r : SinkAnswer) : (s.sinkWrite b r).qa = s.qa := by cases r <;> rfl
@[simp] theorem State.sinkWrite_qb (s : State) (b : Byte) (r : SinkAnswer) : (s.sinkWrite b r).qb = s.qb := by cases r <;> rfl
@[simp] theorem State.sinkWrite_rd (s : State) (b : Byte) (r : SinkAnswer) : (s.sinkWrite b r).rd = s.rd := by cases r <;> rfl
@[simp] theorem State.sinkWrite_eng (s : State) (b : Byte) (r : SinkAnswer) : (s.sinkWrite b r).eng = s.eng := by cases r <;> rfl
@[simp] theorem State.sinkWrite_wr (s : State) (b : Byte) (r : SinkAnswer) : (s.sinkWrite b r).wr = s.wr := by cases r <;> rfl
@[simp] theorem State.sinkWrite_qcap (s : State) (b : Byte) (r : SinkAnswer) : (s.sinkWrite b r).qcap = s.qcap := by cases r <;> rfl
@[simp] theorem State.sinkWrite_draws (s : State) (b : Byte) (r : SinkAnswer) : (s.sinkWrite b r).draws = s.draws := by cases r <;> rfl
@[simp] theorem State.sinkWrite_ret (s : State) (b : Byte) (r : SinkAnswer) : (s.sinkWrite b r).ret = s.ret := by cases r <;> rfl

@[simp] theorem State.offerSource_core (s : State) (w : SrcWord) : (s.offerSource w).core = s.core := rfl
@[simp] theorem State.offerSource_qa (s : State) (w : SrcWord) : (s.offerSource w).qa = s.qa := rfl
@[simp] theorem State.offerSource_qb (s : State) (w : SrcWord) : (s.offerSource w).qb = s.qb := rfl
@[simp] theorem State.offerSource_rd (s : State) (w : SrcWord) : (s.offerSource w).rd = s.rd := rfl
@[simp] theorem State.offerSource_eng (s : State) (w : SrcWord) : (s.offerSource w).eng = s.eng := rfl
@[simp] theorem State.offerSource_wr (s : State) (w : SrcWord) : (s.offerSource w).wr = s.wr := rfl
@[simp] theorem State.offerSource_qcap (s : State) (w : SrcWord) : (s.offerSource w).qcap = s.qcap := rfl
@[simp] theorem State.offerSource_draws (s : State) (w : SrcWord) : (s.offerSource w).draws = s.draws := rfl
@[simp] theorem State.offerSource_ret (s : State) (w : SrcWord) : (s.offerSource w).ret = s.ret := rfl

@[simp] theorem State.offerSink_core (s : State) (r : SinkAnswer) : (s.offerSink r).core = s.core := rfl
@[simp] theorem State.offerSink_qa (s : State) (r : SinkAnswer) : (s.offerSink r).qa = s.qa := rfl
@[simp] theorem State.offerSink_qb (s : State) (r : SinkAnswer) : (s.offerSink r).qb = s.qb := rfl
@[simp] theorem State.offerSink_rd (s : State) (r : SinkAnswer) : (s.offerSink r).rd = s.rd := rfl
@[simp] theorem State.offerSink_eng (s : State) (r : SinkAnswer) : (s.offerSink r).eng = s.eng := rfl
@[simp] theorem State.offerSink_wr (s : State) (r : SinkAnswer) : (s.offerSink r).wr = s.wr := rfl
@[simp] theorem State.offerSink_qcap (s : State) (r : SinkAnswer) : (s.offerSink r).qcap = s.qcap := rfl
@[simp] theorem State.offerSink_draws (s : State) (r : SinkAnswer) : (s.offerSink r).draws = s.draws := rfl
@[simp] theorem State.offerSink_ret (s : State) (r : SinkAnswer) : (s.offerSink r).ret = s.ret := rfl

@[simp] theorem detectDone_qa (s : State) : (detectDone s).qa = s.qa := by unfold detectDone; split <;> rfl
@[simp] theorem detectDone_qb (s : State) : (detectDone s).qb = s.qb := by unfold detectDone; split <;> rfl
@[simp] theorem detectDone_rd (s : State) : (detectDone s).rd = s.rd := by unfold detectDone; split <;> rfl
@[simp] theorem detectDone_eng (s : State) : (detectDone s).eng = s.eng := by unfold detectDone; split <;> rfl
@[simp] theorem detectDone_wr (s : State) : (detectDone s).wr = s.wr := by unfold detectDone; split <;> rfl
@[simp] theorem detectDone_qcap (s : State) : (detectDone s).qcap = s.qcap := by unfold detectDone; split <;> rfl
@[simp] theorem detectDone_host (s : State) : (detectDone s).host = s.host := by unfold detectDone; split <;> rfl
@[simp] theorem detectDone_draws (s : State) : (detectDone s).draws = s.draws := by unfold detectDone; split <;> rfl
@[simp] theorem detectDone_ret (s : State) : (detectDone s).ret = s.ret := by unfold detectDone; split <;> rfl

/-- The mode and the error registers survive DONE detection. -/
@[simp] theorem detectDone_mode (s : State) : (detectDone s).core.mode = s.core.mode := by
  unfold detectDone; split <;> rfl
@[simp] theorem detectDone_errCode (s : State) : (detectDone s).core.errCode = s.core.errCode := by
  unfold detectDone; split <;> rfl
@[simp] theorem detectDone_errReason (s : State) : (detectDone s).core.errReason = s.core.errReason := by
  unfold detectDone; split <;> rfl
@[simp] theorem detectDone_errInfo (s : State) : (detectDone s).core.errInfo = s.core.errInfo := by
  unfold detectDone; split <;> rfl

/-- R128: what DONE detection makes of core.status. -/
theorem detectDone_status (s : State) :
    (detectDone s).core.status = if allDone s then .done else s.core.status := by
  unfold detectDone; split <;> rfl

/-- DONE detection changes nothing where a stage is not in its DONE state. -/
theorem detectDone_eq_self {s : State} (h : ¬ allDone s) : detectDone s = s := if_neg h

end Sys2Proof.Machine
end

