-- ==== Sys2Proof/Laws/Exec.lean ====
section
/-! SUPPORT. One lemma for each meaning: if it answers next t, then either its step was not enabled and t = s, or its
enabling condition holds and t is what its rule says. -/

namespace Sys2Proof.Machine

/-- A step that is not enabled leaves the state as it is. -/
@[simp] theorem noStep_eq (s : State) : noStep s = .next s := rfl

/-- The two branches of a guarded step. -/
theorem guarded_next {c : Prop} [Decidable c] {s t u : State}
    (h : (if c then .next u else noStep s : Out) = .next t) : t = s ∨ (c ∧ t = u) := by
  split at h
  · exact .inr ⟨‹_›, (Host.Outcome.next.inj h).symm⟩
  · exact .inl (Host.Outcome.next.inj h).symm

theorem execQPut_next {q : QueueId} {e : Elem13} {s t : State} (h : execQPut q e s = .next t) :
    t = s ∨ ((canPut s q) ∧
      t = s.qPut q e) :=
  guarded_next h

theorem execQGet_next {q : QueueId} {s t : State} (h : execQGet q s = .next t) :
    t = s ∨ ((canGet s q) ∧
      t = (s.qGet q).setRet (.elem (s.front q))) :=
  guarded_next h

theorem execDictAdd_next {n : Code} {x : Byte} {s t : State} (h : execDictAdd n x s = .next t) :
    t = s ∨ ((s.eng.nextCode.toNat ≤ 4095) ∧
      t = (s.dictAdd n x).setRet (.newCode (BitVec.ofNat 12 s.eng.nextCode.toNat))) :=
  guarded_next h

theorem execDAdd_next {b : Byte} {rest : Str} {s t : State} (h : execDAdd b rest s = .next t) :
    t = s ∨ (((s.eng.prev = [] ∨ s.eng.nextCode.toNat ≤ 4095)) ∧
      t = s.dAdd b) :=
  guarded_next h

theorem execRdRawByte_next {b : Byte} {s t : State} (h : execRdRawByte b s = .next t) :
    t = s ∨ ((readerAt s .compress .read ∧ s.sourceNext = some (srcWord 0 b)) ∧
      t = detectDone (s.sourceRead.setRd { s.rd with latch := zextCode b, state := .put })) :=
  guarded_next h

theorem execRdRawEnd_next {s t : State} (h : execRdRawEnd s = .next t) :
    t = s ∨ ((readerAt s .compress .read ∧ s.sourceNext.map srcKind = some 1) ∧
      t = detectDone (s.sourceRead.setRd { s.rd with state := .eos })) :=
  guarded_next h

theorem execRdSrcError_next {m : Mode} {s t : State} (h : execRdSrcError m s = .next t) :
    t = s ∨ ((readerAt s m .read ∧ s.sourceNext.map srcKind = some 2) ∧
      t = s.sourceRead.abort .ioSource .none 0) :=
  guarded_next h

theorem execUnpackByte_next {b : Byte} {s t : State} (h : execUnpackByte b s = .next t) :
    t = s ∨ ((readerAt s .decompress .read ∧ s.sourceNext = some (srcWord 0 b)) ∧
      t = detectDone (s.sourceRead.setRd
        (if 12 ≤ (s.rd.nbits + 8).toNat then
          { latch := unpackedCode (pushByte s.rd.acc b) (s.rd.nbits + 8), nbits := s.rd.nbits + 8 - 12,
            acc := keepLow (pushByte s.rd.acc b) (s.rd.nbits + 8 - 12), state := .put }
        else { s.rd with acc := pushByte s.rd.acc b, nbits := s.rd.nbits + 8, state := .read }))) :=
  guarded_next h

theorem execUnpackEnd_next {s t : State} (h : execUnpackEnd s = .next t) :
    t = s ∨ ((readerAt s .decompress .read ∧ s.sourceNext.map srcKind = some 1) ∧
      t = detectDone (s.sourceRead.setRd { s.rd with acc := 0, nbits := 0, state := .eos })) :=
  guarded_next h

theorem execRdPut_next {m : Mode} {s t : State} (h : execRdPut m s = .next t) :
    t = s ∨ ((readerAt s m .put ∧ canPut s .a) ∧
      t = detectDone ((s.qPut .a (itemElem s.rd.latch)).setRd { s.rd with state := .read })) :=
  guarded_next h

theorem execRdEos_next {m : Mode} {s t : State} (h : execRdEos m s = .next t) :
    t = s ∨ ((readerAt s m .eos ∧ canPut s .a) ∧
      t = detectDone ((s.qPut .a eosElem).setRd { s.rd with state := .done })) :=
  guarded_next h

theorem execCFetchSym_next {v : Code} {s t : State} (h : execCFetchSym v s = .next t) :
    t = s ∨ ((engineAt s .compress .cFetch ∧ s.holdsItem .a v) ∧
      t = detectDone ((s.qGet .a).setEng { s.eng with sym := payloadByte v, state := .cMatch })) :=
  guarded_next h

theorem execCFetchEos_next {s t : State} (h : execCFetchEos s = .next t) :
    t = s ∨ ((engineAt s .compress .cFetch ∧ s.holdsEos .a) ∧
      t = detectDone ((s.qGet .a).setEng { s.eng with state := if s.eng.cur = .root then .cEos else .cFinal })) :=
  guarded_next h

theorem execCMatchMiss_next {s t : State} (h : execCMatchMiss s = .next t) :
    t = s ∨ ((engineAt s .compress .cMatch ∧ s.dictFind s.eng.cur s.eng.sym = none) ∧
      t = detectDone (s.setEng { s.eng with state := .cEmit })) :=
  guarded_next h

theorem execCReset_next {s t : State} (h : execCReset s = .next t) :
    t = s ∨ ((engineAt s .compress .cReset ∧ canPut s .b) ∧
      t = detectDone (((s.qPut .b (itemElem resetCode)).dictReset).setEng
        { ((s.qPut .b (itemElem resetCode)).dictReset).eng with cur := .root, state := .cMatch })) :=
  guarded_next h

theorem execCEos_next {s t : State} (h : execCEos s = .next t) :
    t = s ∨ ((engineAt s .compress .cEos ∧ canPut s .b) ∧
      t = detectDone ((s.qPut .b eosElem).setEng { s.eng with state := .done })) :=
  guarded_next h

theorem execDEosIn_next {s t : State} (h : execDEosIn s = .next t) :
    t = s ∨ ((fetchesClass s .eosIn) ∧
      t = detectDone ((s.qGet .a).setEng { s.eng with state := .dEos })) :=
  guarded_next h

theorem execDErrFresh_next {c : Code} {s t : State} (h : execDErrFresh c s = .next t) :
    t = s ∨ ((fetchesClass s .errFresh ∧ s.holdsItem .a c) ∧
      t = s.abort .corrupt .fresh c) :=
  guarded_next h

theorem execDReset_next {s t : State} (h : execDReset s = .next t) :
    t = s ∨ ((fetchesClass s .reset) ∧
      t = detectDone ((s.qGet .a).setEng
        { s.eng with nextCode := 257, prev := [], fresh := true, state := .dFetch })) :=
  guarded_next h

theorem execDErrRange_next {c : Code} {s t : State} (h : execDErrRange c s = .next t) :
    t = s ∨ ((fetchesClass s .errRange ∧ s.holdsItem .a c) ∧
      t = s.abort .corrupt .range c) :=
  guarded_next h

theorem execDErrOverflow_next {c : Code} {s t : State} (h : execDErrOverflow c s = .next t) :
    t = s ∨ ((fetchesClass s .errOverflow ∧ s.holdsItem .a c) ∧
      t = s.abort .corrupt .overflow c) :=
  guarded_next h

theorem execDLit_next {b : Byte} {s t : State} (h : execDLit b s = .next t) :
    t = s ∨ ((fetchesClass s .lit ∧ s.holdsItem .a (zextCode b)) ∧
      t = detectDone ((s.qGet .a).dDecoded b [])) :=
  guarded_next h

theorem execDEosOut_next {s t : State} (h : execDEosOut s = .next t) :
    t = s ∨ ((engineAt s .decompress .dEos ∧ canPut s .b) ∧
      t = detectDone ((s.qPut .b eosElem).setEng { s.eng with state := .done })) :=
  guarded_next h

theorem execPackCode_next {c : Code} {s t : State} (h : execPackCode c s = .next t) :
    t = s ∨ ((writerAt s .compress .get ∧ s.holdsItem .b c) ∧
      t = detectDone ((s.qGet .b).setWr
        { s.wr with acc := pushCode s.wr.acc c, nbits := s.wr.nbits + 12, state := .emit })) :=
  guarded_next h

theorem execPackEos_next {s t : State} (h : execPackEos s = .next t) :
    t = s ∨ ((writerAt s .compress .get ∧ s.holdsEos .b) ∧
      t = detectDone ((s.qGet .b).setWr { s.wr with state := if 0 < s.wr.nbits.toNat then .pad else .done })) :=
  guarded_next h

theorem execWrRawByte_next {v : Code} {s t : State} (h : execWrRawByte v s = .next t) :
    t = s ∨ ((writerAt s .decompress .get ∧ s.holdsItem .b v) ∧
      t = detectDone ((s.qGet .b).setWr { s.wr with byte := payloadByte v, state := .emit })) :=
  guarded_next h

theorem execWrRawEos_next {s t : State} (h : execWrRawEos s = .next t) :
    t = s ∨ ((writerAt s .decompress .get ∧ s.holdsEos .b) ∧
      t = detectDone ((s.qGet .b).setWr { s.wr with state := .done })) :=
  guarded_next h

theorem execCMatchHit_next {s t : State} (h : execCMatchHit s = .next t) :
    t = s ∨ ∃ k, (engineAt s .compress .cMatch ∧ s.dictFind s.eng.cur s.eng.sym = some k) ∧
      t = detectDone (s.setEng { s.eng with cur := .code k, state := .cFetch }) := by
  unfold execCMatchHit at h
  split at h
  · split at h
    · exact .inr ⟨_, ⟨‹_›, ‹_›⟩, (Host.Outcome.next.inj h).symm⟩
    · exact .inl (Host.Outcome.next.inj h).symm
  · exact .inl (Host.Outcome.next.inj h).symm

theorem execCEmitAdd_next {s t : State} (h : execCEmitAdd s = .next t) :
    t = s ∨ ∃ c, (engineAt s .compress .cEmit ∧ s.eng.nextCode.toNat ≤ 4095 ∧ canPut s .b) ∧ s.eng.cur = .code c ∧
      t = detectDone (((s.qPut .b (itemElem c)).dictAdd c s.eng.sym).setEng
        { ((s.qPut .b (itemElem c)).dictAdd c s.eng.sym).eng with cur := .root, state := .cMatch }) := by
  unfold execCEmitAdd at h
  split at h
  · split at h
    · exact nomatch h
    · exact .inr ⟨_, ‹_›, ‹_›, (Host.Outcome.next.inj h).symm⟩
  · exact .inl (Host.Outcome.next.inj h).symm

theorem execCEmitFull_next {s t : State} (h : execCEmitFull s = .next t) :
    t = s ∨ ∃ c, (engineAt s .compress .cEmit ∧ s.eng.nextCode.toNat = 4096 ∧ canPut s .b) ∧ s.eng.cur = .code c ∧
      t = detectDone ((s.qPut .b (itemElem c)).setEng { s.eng with state := .cReset }) := by
  unfold execCEmitFull at h
  split at h
  · split at h
    · exact nomatch h
    · exact .inr ⟨_, ‹_›, ‹_›, (Host.Outcome.next.inj h).symm⟩
  · exact .inl (Host.Outcome.next.inj h).symm

theorem execCFinal_next {s t : State} (h : execCFinal s = .next t) :
    t = s ∨ ∃ c, (engineAt s .compress .cFinal ∧ canPut s .b) ∧ s.eng.cur = .code c ∧
      t = detectDone ((s.qPut .b (itemElem c)).setEng { s.eng with state := .cEos }) := by
  unfold execCFinal at h
  split at h
  · split at h
    · exact nomatch h
    · exact .inr ⟨_, ‹_›, ‹_›, (Host.Outcome.next.inj h).symm⟩
  · exact .inl (Host.Outcome.next.inj h).symm

theorem execDSeq_next {c : Code} {s t : State} (h : execDSeq c s = .next t) :
    t = s ∨ ∃ first rest, (fetchesClass s .seq ∧ s.holdsItem .a c ∧ s.eng.nextCode.toNat ≤ 4095) ∧
      s.tableAt c.toNat = first :: rest ∧ t = detectDone ((s.qGet .a).dDecoded first rest) := by
  unfold execDSeq at h
  split at h
  · split at h
    · exact nomatch h
    · exact .inr ⟨_, _, ‹_›, ‹_›, (Host.Outcome.next.inj h).symm⟩
  · exact .inl (Host.Outcome.next.inj h).symm

theorem execDKwk_next {c : Code} {s t : State} (h : execDKwk c s = .next t) :
    t = s ∨ ∃ first rest, (fetchesClass s .kwk ∧ s.holdsItem .a c) ∧
      s.eng.prev = first :: rest ∧ t = detectDone ((s.qGet .a).dDecoded first (rest ++ [first])) := by
  unfold execDKwk at h
  split at h
  · split at h
    · exact .inl (Host.Outcome.next.inj h).symm
    · exact .inr ⟨_, _, ‹_›, ‹_›, (Host.Outcome.next.inj h).symm⟩
  · exact .inl (Host.Outcome.next.inj h).symm

theorem execDEmit_next {s t : State} (h : execDEmit s = .next t) :
    t = s ∨ ∃ b, (engineAt s .decompress .dEmit ∧ canPut s .b) ∧ s.eng.obuf[s.eng.oidx.toNat]? = some b ∧
      t = detectDone ((s.qPut .b (itemElem (zextCode b))).setEng
        { s.eng with oidx := s.eng.oidx + 1,
                     state := if (s.eng.oidx + 1).toNat = s.eng.obuf.length then .dFetch else .dEmit }) := by
  unfold execDEmit at h
  split at h
  · split at h
    · exact nomatch h
    · exact .inr ⟨_, ‹_›, ‹_›, (Host.Outcome.next.inj h).symm⟩
  · exact .inl (Host.Outcome.next.inj h).symm

/-- A sink write answered ERROR is an abort with IO_SINK; answered OK it is the rule's own effect. -/
theorem execPackEmit_next {r : SinkAnswer} {s t : State} (h : execPackEmit r s = .next t) :
    t = s ∨ ((writerAt s .compress .emit ∧ s.sinkNext = some r) ∧
      ((r = .error ∧ t = (s.sinkWrite (packedByte s.wr.acc s.wr.nbits) .error).abort .ioSink .none 0) ∨
        (r = .ok ∧ t = detectDone ((s.sinkWrite (packedByte s.wr.acc s.wr.nbits) .ok).setWr
          { s.wr with nbits := s.wr.nbits - 8, acc := keepLow s.wr.acc (s.wr.nbits - 8),
                      state := if (s.wr.nbits - 8).toNat < 8 then .get else .emit })))) := by
  unfold execPackEmit at h
  split at h
  · cases r
    · exact .inr ⟨‹_›, .inr ⟨rfl, (Host.Outcome.next.inj h).symm⟩⟩
    · exact .inr ⟨‹_›, .inl ⟨rfl, (Host.Outcome.next.inj h).symm⟩⟩
  · exact .inl (Host.Outcome.next.inj h).symm

theorem execPackFlush_next {r : SinkAnswer} {s t : State} (h : execPackFlush r s = .next t) :
    t = s ∨ ((writerAt s .compress .pad ∧ s.sinkNext = some r) ∧
      ((r = .error ∧ t = (s.sinkWrite (paddedByte s.wr.acc s.wr.nbits) .error).abort .ioSink .none 0) ∨
        (r = .ok ∧ t = detectDone ((s.sinkWrite (paddedByte s.wr.acc s.wr.nbits) .ok).setWr
          { s.wr with acc := 0, nbits := 0, state := .done })))) := by
  unfold execPackFlush at h
  split at h
  · cases r
    · exact .inr ⟨‹_›, .inr ⟨rfl, (Host.Outcome.next.inj h).symm⟩⟩
    · exact .inr ⟨‹_›, .inl ⟨rfl, (Host.Outcome.next.inj h).symm⟩⟩
  · exact .inl (Host.Outcome.next.inj h).symm

theorem execWrRawEmit_next {r : SinkAnswer} {s t : State} (h : execWrRawEmit r s = .next t) :
    t = s ∨ ((writerAt s .decompress .emit ∧ s.sinkNext = some r) ∧
      ((r = .error ∧ t = (s.sinkWrite s.wr.byte .error).abort .ioSink .none 0) ∨
        (r = .ok ∧ t = detectDone ((s.sinkWrite s.wr.byte .ok).setWr { s.wr with state := .get })))) := by
  unfold execWrRawEmit at h
  split at h
  · cases r
    · exact .inr ⟨‹_›, .inr ⟨rfl, (Host.Outcome.next.inj h).symm⟩⟩
    · exact .inr ⟨‹_›, .inl ⟨rfl, (Host.Outcome.next.inj h).symm⟩⟩
  · exact .inl (Host.Outcome.next.inj h).symm

theorem execStart_next {m : Mode} {s t : State} (h : execStart m s = .next t) :
    (s.core.status = .running ∧ t = s) ∨ (s.core.status ≠ .running ∧ t = s.startJob m) := by
  unfold execStart at h
  split at h
  · exact nomatch h
  · split at h
    · exact .inl ⟨‹_›, (Host.Outcome.next.inj h).symm⟩
    · exact .inr ⟨‹_›, (Host.Outcome.next.inj h).symm⟩

/-- HOST.SRC_ANSWER is not enabled, or it is READER's step on the answer given (R137). -/
theorem execHostSrcAnswer_eq (k : BitVec 2) (d : Byte) (s : State) :
    execHostSrcAnswer k d s = noStep s ∨
      ((s.core.status = .running ∧ s.rd.state = .read) ∧
        ∃ i, decodeSource s.core.mode (srcWord k d) = .ok i ∧
          execHostSrcAnswer k d s = exec i (s.offerSource (srcWord k d))) := by
  unfold execHostSrcAnswer
  split
  · rename_i hc
    have h4 : k.toNat < 4 := k.isLt
    rcases hm : s.core.mode with _ | _ <;>
      (have : k.toNat = 0 ∨ k.toNat = 1 ∨ k.toNat = 2 ∨ k.toNat = 3 := by omega) <;>
      rcases this with h | h | h | h <;>
      simp [h, hc, decodeSource, exec]
  · exact .inl rfl

/-- HOST.SNK_ANSWER is not enabled, or it is WRITER's step on the answer given (R138). -/
theorem execHostSnkAnswer_eq (r : SinkAnswer) (s : State) :
    execHostSnkAnswer r s = noStep s ∨
      (s.core.status = .running ∧ (s.wr.state = .emit ∨ s.wr.state = .pad) ∧
        ∃ i, decodeWriter s.core.mode s.wr.state none (some (sinkBit r)) = .ok i ∧
          execHostSnkAnswer r s = exec i (s.offerSink r)) := by
  unfold execHostSnkAnswer
  split
  · rename_i hc
    rcases hm : s.core.mode with _ | _ <;> rcases hw : s.wr.state with _ | _ | _ | _ | _ <;>
      simp [hc, decodeWriter, exec]
  · exact .inl rfl

end Sys2Proof.Machine
end

