-- ==== Sys2Proof/Laws/Queues.lean ====
section
/-! SUPPORT. What a put, a get and Q.INIT make of a queue that meets R27. -/

namespace Sys2Proof.Machine

/-- Two indexes of the circular buffer less than QCAP apart are the same slot only if they are the same. -/
theorem circular_ne {n head i j : Nat} (hi : i < j) (hj : j < n) : (head + i) % n ≠ (head + j) % n := by
  intro h
  have h1 : (j - i) % n = 0 := by
    have := (Nat.modEq_iff_dvd' (show head + i ≤ head + j by omega)).mp h
    have he : head + j - (head + i) = j - i := by omega
    rw [he] at this
    exact Nat.mod_eq_zero_of_dvd this
  rw [Nat.mod_eq_of_lt (by omega)] at h1
  omega

/-- The queue after a put (R69). -/
theorem qPut_queue (s : State) (id : QueueId) (e : Elem13) :
    (s.qPut id e).queue id =
      { buf := (s.queue id).buf.write (s.queue id).tail e
        head := (s.queue id).head
        tail := ((s.queue id).tail + 1) % s.qcap
        free := (s.queue id).free - 1
        filled := (s.queue id).filled + 1 } := by
  cases id <;> rfl

/-- The queue after a get (R70). -/
theorem qGet_queue (s : State) (id : QueueId) :
    (s.qGet id).queue id =
      { s.queue id with
        filled := (s.queue id).filled - 1
        head := ((s.queue id).head + 1) % s.qcap
        free := (s.queue id).free + 1 } := by
  cases id <;> rfl

/-- The queue after Q.INIT (R68). -/
theorem qInit_queue (s : State) (id : QueueId) :
    (s.qInit id).queue id =
      { buf := Slots.unwritten s.draws, head := 0, tail := 0, free := s.qcap, filled := 0 } := by
  cases id <;> rfl

/-- A put on one queue leaves the other alone. -/
theorem qPut_queue_other (s : State) {id other : QueueId} (h : other ≠ id) (e : Elem13) :
    (s.qPut id e).queue other = s.queue other := by
  cases id <;> cases other <;> first | exact absurd rfl h | rfl

/-- A get on one queue leaves the other alone. -/
theorem qGet_queue_other (s : State) {id other : QueueId} (h : other ≠ id) :
    (s.qGet id).queue other = s.queue other := by
  cases id <;> cases other <;> first | exact absurd rfl h | rfl

/-- The contents depend on the queue and QCAP alone. -/
theorem contents_congr {s t : State} {id : QueueId} (hq : t.queue id = s.queue id) (hn : t.qcap = s.qcap) :
    t.contents id = s.contents id := by
  simp only [State.contents, hq, hn]

/-- What a get would return depends on the queue alone. -/
theorem peek_congr {s t : State} {id : QueueId} (hq : t.queue id = s.queue id) : t.peek id = s.peek id := by
  simp only [State.peek, State.front, canGet, hq]

/-- Writing a stage's registers, the core registers or the host's side leaves the contents of the queues alone. -/
@[simp] theorem contents_setRd (s : State) (r : Reader) (id : QueueId) : (s.setRd r).contents id = s.contents id :=
  contents_congr (by cases id <;> rfl) rfl
@[simp] theorem contents_setWr (s : State) (w : Writer) (id : QueueId) : (s.setWr w).contents id = s.contents id :=
  contents_congr (by cases id <;> rfl) rfl
@[simp] theorem contents_setEng (s : State) (e : Engine) (id : QueueId) : (s.setEng e).contents id = s.contents id :=
  contents_congr (by cases id <;> rfl) rfl
@[simp] theorem contents_setCore (s : State) (c : CoreRegs) (id : QueueId) : (s.setCore c).contents id = s.contents id :=
  contents_congr (by cases id <;> rfl) rfl
@[simp] theorem contents_setHost (s : State) (h : HostSide) (id : QueueId) : (s.setHost h).contents id = s.contents id :=
  contents_congr (by cases id <;> rfl) rfl
@[simp] theorem contents_sourceRead (s : State) (id : QueueId) : s.sourceRead.contents id = s.contents id :=
  contents_setHost s _ id
@[simp] theorem contents_sinkWrite (s : State) (b : Byte) (r : SinkAnswer) (id : QueueId) :
    (s.sinkWrite b r).contents id = s.contents id := by
  cases r <;> exact contents_setHost s _ id
@[simp] theorem contents_detectDone (s : State) (id : QueueId) : (detectDone s).contents id = s.contents id :=
  contents_congr (by cases id <;> simp [State.queue]) (by simp)

@[simp] theorem contents_length (s : State) (id : QueueId) : (s.contents id).length = (s.queue id).filled := by
  simp [State.contents]

/-- A put adds its element at the end (R69, R72). -/
theorem contents_qPut {s : State} {id : QueueId} (h : QueueInv s.qcap (s.queue id)) (hp : canPut s id) (e : Elem13) :
    (s.qPut id e).contents id = s.contents id ++ [e] := by
  have hc := h.counts
  have ht := h.tail
  unfold canPut at hp
  simp only [State.contents, qPut_queue, State.qPut_qcap, List.range_succ, List.map_append, List.map_cons, List.map_nil]
  congr 1
  · refine List.map_congr_left fun i hi => ?_
    have hi := List.mem_range.mp hi
    have hne : ((s.queue id).head + i) % s.qcap ≠ (s.queue id).tail := ht ▸ circular_ne hi (by omega)
    simp [Queue.slot, Slots.write, lookupCell_insertCell_other _ hne]
  · simp [Queue.slot, Slots.write, ← ht]

/-- A put keeps R27. -/
theorem queueInv_qPut {s : State} {id : QueueId} (h : QueueInv s.qcap (s.queue id)) (hp : canPut s id) (e : Elem13) :
    QueueInv s.qcap ((s.qPut id e).queue id) := by
  have hc := h.counts
  have ht := h.tail
  unfold canPut at hp
  rw [qPut_queue]
  refine ⟨?_, h.head, ?_, fun i hi => ?_⟩
  · simp only; omega
  · simp only [ht, Nat.mod_add_mod]; congr 1
  · simp only at hi ⊢
    by_cases hk : ((s.queue id).head + i) % s.qcap = (s.queue id).tail
    · simp [Slots.write, hk]
    · have hi' : i < (s.queue id).filled := by
        rcases Nat.lt_succ_iff_lt_or_eq.mp hi with h1 | h1
        · exact h1
        · exact absurd (h1 ▸ ht.symm) hk
      simpa [Slots.write, lookupCell_insertCell_other _ hk] using h.written i hi'

/-- A get takes the first element of the contents (R70, R72). -/
theorem contents_qGet {s : State} {id : QueueId} (h : QueueInv s.qcap (s.queue id)) (hg : canGet s id) :
    s.contents id = s.front id :: (s.qGet id).contents id := by
  unfold canGet at hg
  obtain ⟨m, hm⟩ : ∃ m, (s.queue id).filled = m + 1 := ⟨(s.queue id).filled - 1, by omega⟩
  simp only [State.contents, qGet_queue, State.qGet_qcap, hm, Nat.add_sub_cancel, List.range_succ_eq_map,
    List.map_cons, List.map_map, State.front]
  congr 1
  · simp [Nat.mod_eq_of_lt h.head]
  · refine List.map_congr_left fun i _ => ?_
    simp only [Function.comp, Queue.slot, Nat.mod_add_mod]
    have : (s.queue id).head + (i + 1) = (s.queue id).head + 1 + i := by omega
    simp [Nat.succ_eq_add_one, this]

/-- A get keeps R27. -/
theorem queueInv_qGet {s : State} {id : QueueId} (h : QueueInv s.qcap (s.queue id)) (hg : canGet s id) :
    QueueInv s.qcap ((s.qGet id).queue id) := by
  have hc := h.counts
  have ht := h.tail
  unfold canGet at hg
  rw [qGet_queue]
  refine ⟨?_, Nat.mod_lt _ (by omega), ?_, fun i hi => ?_⟩
  · simp only; omega
  · simp only [ht, Nat.mod_add_mod]; congr 1; omega
  · simp only [Nat.mod_add_mod] at hi ⊢
    have := h.written (i + 1) (by omega)
    rwa [show (s.queue id).head + (i + 1) = (s.queue id).head + 1 + i by omega] at this

/-- A queue just emptied meets R27 and holds nothing. -/
theorem queueInv_qInit {s : State} (h : 1 ≤ s.qcap) (id : QueueId) : QueueInv s.qcap ((s.qInit id).queue id) := by
  rw [qInit_queue]
  exact ⟨rfl, h, by simp [Nat.mod_eq_of_lt h], fun i hi => absurd hi (Nat.not_lt_zero i)⟩

@[simp] theorem contents_qInit (s : State) (id : QueueId) : (s.qInit id).contents id = [] := by
  simp [State.contents, qInit_queue]

/-- What a get would return is the first element of the contents. -/
theorem peek_eq_head? {s : State} {id : QueueId} (h : QueueInv s.qcap (s.queue id)) :
    s.peek id = (s.contents id).head? := by
  unfold State.peek
  split
  · rw [contents_qGet h ‹_›]; rfl
  · have : (s.queue id).filled = 0 := by unfold canGet at *; omega
    simp [State.contents, this]

end Sys2Proof.Machine
end

