-- ==== Sys2Proof/Laws/Invariant.lean ====
section
/-! SUPPORT. The machine's invariant in a running job: which parts of the state each part of it depends on, what an
abort and DONE detection make of it, and the moves of the end-of-stream protocol. -/

namespace Sys2Proof.Machine

/-! ## What each part depends on -/

/-- READER's invariant depends on READER's registers and the mode. -/
theorem ReaderInv.congr {s t : State} (h : ReaderInv s) (hr : t.rd = s.rd) (hm : t.core.mode = s.core.mode) :
    ReaderInv t := by
  obtain ⟨h1, h2, h3, h4, h5, h6, h7⟩ := h
  constructor <;> simpa only [hr, hm]

/-- WRITER's invariant depends on WRITER's registers and the mode. -/
theorem WriterInv.congr {s t : State} (h : WriterInv s) (hr : t.wr = s.wr) (hm : t.core.mode = s.core.mode) :
    WriterInv t := by
  obtain ⟨h1, h2, h3, h4, h5, h6⟩ := h
  constructor <;> simpa only [hr, hm]

/-- The compressor's invariant depends on ENGINE's registers. -/
theorem CompressInv.congr {s t : State} (h : CompressInv s) (hr : t.eng = s.eng) : CompressInv t := by
  obtain ⟨h1, h2, h3, h4, h5, h6, h7, h8⟩ := h
  constructor <;> simpa only [State.dictFind, State.dictAt, validCode, hr]

/-- The decompressor's invariant depends on ENGINE's registers. -/
theorem DecompressInv.congr {s t : State} (h : DecompressInv s) (hr : t.eng = s.eng) : DecompressInv t := by
  obtain ⟨h1, h2, h3, h4, h5, h6, h7, h8⟩ := h
  constructor <;> simpa only [State.tableAt, hr]

/-- ENGINE's invariant depends on ENGINE's registers and the mode. -/
theorem EngineInv.congr {s t : State} (h : EngineInv s) (hr : t.eng = s.eng) (hm : t.core.mode = s.core.mode) :
    EngineInv t :=
  ⟨by simpa only [hr] using h.low, by simpa only [hr] using h.high, fun hc => (h.compress (hm ▸ hc)).congr hr,
    fun hc => (h.decompress (hm ▸ hc)).congr hr⟩

/-! ## A running job -/

/-- The invariant of a running job, before DONE detection. -/
structure RunInv (s : State) : Prop where
  running : s.core.status = .running
  capacity : 1 ≤ s.qcap
  memory : Memory.wf s
  qa : QueueInv s.qcap s.qa
  qb : QueueInv s.qcap s.qb
  reader : ReaderInv s
  engine : EngineInv s
  writer : WriterInv s
  qaEos : EosInv (s.contents .a) (s.core.mode = .compress) (s.rd.state = .done) (engineGotEos s)
  qbEos : EosInv (s.contents .b) (s.core.mode = .decompress) (s.eng.state = .done) (writerGotEos s)
  noError : s.core.errCode = .none ∧ s.core.errReason = .none ∧ s.core.errInfo = 0

/-- The machine's invariant while RUNNING. -/
theorem Inv.run {s : State} (h : Inv s) (hr : s.core.status = .running) : RunInv s ∧ ¬ allDone s := by
  rcases h.phase with hi | hj
  · have := hi.status
    simp_all
  · refine ⟨⟨hr, h.capacity, h.memory, hj.qa, hj.qb, hj.reader, hj.engine, hj.writer, hj.qaEos, hj.qbEos,
      hj.noError (by simp [hr])⟩, fun hd => ?_⟩
    have := hj.done.mpr hd
    simp_all

/-- DONE detection as one update of the core registers. -/
theorem detectDone_eq (s : State) : detectDone s = { s with core := s.core.doneIf (allDone s) } := by
  unfold detectDone CoreRegs.doneIf; split <;> simp_all [State.setCore]

/-- DONE detection, the last effect of a stage step, gives a state that meets the invariant (R128). -/
theorem RunInv.finish {s : State} (h : RunInv s) : Inv (detectDone s) := by
  refine ⟨by simpa using h.capacity, by simpa [Memory.wf] using h.memory, .inr ?_⟩
  have hc : ∀ id, (detectDone s).contents id = s.contents id := fun id => contents_detectDone s id
  have hs := detectDone_status s
  refine ⟨?_, by simpa using h.qa, by simpa using h.qb, h.reader.congr (by simp) (by simp),
    h.engine.congr (by simp) (by simp), h.writer.congr (by simp) (by simp), ?_, ?_, ?_, ?_, ?_, ?_⟩
  · rw [hs]; split <;> simp [h.running]
  · simpa [hc, engineGotEos] using h.qaEos
  · simpa [hc, writerGotEos] using h.qbEos
  · rw [hs]; simp only [allDone, detectDone_rd, detectDone_eng, detectDone_wr]
    split <;> simp_all [h.running]
  · intro _; simpa using h.noError
  · rw [hs]; split <;> simp [h.running]
  · intro _; simpa using h.noError.2

/-- An abort gives a state that meets the invariant (R149). -/
theorem RunInv.aborted {s : State} (h : RunInv s) (hd : ¬ allDone s) (c : ErrCode) (r : ErrReason) (i : Code)
    (hc : c ≠ .none) (hr : c ≠ .corrupt → r = .none ∧ i = 0) : Inv (s.abort c r i) := by
  refine ⟨by simpa using h.capacity, by simpa [Memory.wf] using h.memory, .inr ?_⟩
  refine ⟨by simp [State.abort], by simpa using h.qa, by simpa using h.qb, h.reader.congr rfl rfl,
    h.engine.congr rfl rfl, h.writer.congr rfl rfl, h.qaEos, h.qbEos, ?_, ?_, ?_, ?_⟩
  · simp only [State.abort, State.setCore_core, reduceCtorEq, false_iff]
    exact hd
  · simp [State.abort]
  · simpa [State.abort] using hc
  · simpa [State.abort] using hr

/-- The host's side, the draws and the sub-operations' result carry no claim. -/
theorem RunInv.host {s t : State} (h : RunInv s) (h1 : t.core = s.core) (h2 : t.qa = s.qa) (h3 : t.qb = s.qb)
    (h4 : t.rd = s.rd) (h5 : t.eng = s.eng) (h6 : t.wr = s.wr) (h7 : t.qcap = s.qcap) : RunInv t := by
  have hc : ∀ id, t.contents id = s.contents id := fun id =>
    contents_congr (by cases id <;> simp [State.queue, h2, h3]) h7
  refine ⟨by rw [h1]; exact h.running, by rw [h7]; exact h.capacity,
    by simpa only [Memory.wf, h2, h3, h5] using h.memory, by rw [h7, h2]; exact h.qa, by rw [h7, h3]; exact h.qb,
    h.reader.congr h4 (by rw [h1]), h.engine.congr h5 (by rw [h1]), h.writer.congr h6 (by rw [h1]), ?_, ?_,
    by simpa only [h1] using h.noError⟩
  · simpa only [hc, h1, h4, engineGotEos, h5] using h.qaEos
  · simpa only [hc, h1, h5, writerGotEos, h6] using h.qbEos

/-- A READER step changes READER's registers, QA and the host's side alone (R126). -/
theorem RunInv.readerStep {s t : State} (h : RunInv s) (h1 : t.core = s.core) (h3 : t.qb = s.qb) (h5 : t.eng = s.eng)
    (h6 : t.wr = s.wr) (h7 : t.qcap = s.qcap) (hr : ReaderInv t) (hq : QueueInv s.qcap t.qa)
    (hm : Memory.cellsWf t.qa.buf.cells)
    (he : EosInv (t.contents .a) (s.core.mode = .compress) (t.rd.state = .done) (engineGotEos s)) : RunInv t := by
  have hc : t.contents .b = s.contents .b := contents_congr (by simp [h3]) h7
  refine ⟨by rw [h1]; exact h.running, by rw [h7]; exact h.capacity,
    ⟨hm, by rw [h3]; exact h.memory.2.1, by rw [h5]; exact h.memory.2.2⟩, by rw [h7]; exact hq,
    by rw [h7, h3]; exact h.qb, hr, h.engine.congr h5 (by rw [h1]), h.writer.congr h6 (by rw [h1]), ?_, ?_,
    by simpa only [h1] using h.noError⟩
  · simpa only [h1, engineGotEos, h5] using he
  · simpa only [hc, h1, h5, writerGotEos, h6] using h.qbEos

/-- A WRITER step changes WRITER's registers, QB and the host's side alone (R126). -/
theorem RunInv.writerStep {s t : State} (h : RunInv s) (h1 : t.core = s.core) (h3 : t.qa = s.qa) (h5 : t.eng = s.eng)
    (h6 : t.rd = s.rd) (h7 : t.qcap = s.qcap) (hr : WriterInv t) (hq : QueueInv s.qcap t.qb)
    (hm : Memory.cellsWf t.qb.buf.cells)
    (he : EosInv (t.contents .b) (s.core.mode = .decompress) (s.eng.state = .done) (writerGotEos t)) : RunInv t := by
  have hc : t.contents .a = s.contents .a := contents_congr (by simp [h3]) h7
  refine ⟨by rw [h1]; exact h.running, by rw [h7]; exact h.capacity,
    ⟨by rw [h3]; exact h.memory.1, hm, by rw [h5]; exact h.memory.2.2⟩, by rw [h7, h3]; exact h.qa,
    by rw [h7]; exact hq, h.reader.congr h6 (by rw [h1]), h.engine.congr h5 (by rw [h1]), hr, ?_, ?_,
    by simpa only [h1] using h.noError⟩
  · simpa only [hc, h1, h6, engineGotEos, h5] using h.qaEos
  · simpa only [h1, h5] using he

/-- An ENGINE step changes ENGINE's registers and tables and the two queues alone (R126). -/
theorem RunInv.engineStep {s t : State} (h : RunInv s) (h1 : t.core = s.core) (h5 : t.wr = s.wr) (h6 : t.rd = s.rd)
    (h7 : t.qcap = s.qcap) (hr : EngineInv t) (ha : QueueInv s.qcap t.qa) (hb : QueueInv s.qcap t.qb)
    (hm : Memory.wf t)
    (hea : EosInv (t.contents .a) (s.core.mode = .compress) (s.rd.state = .done) (engineGotEos t))
    (heb : EosInv (t.contents .b) (s.core.mode = .decompress) (t.eng.state = .done) (writerGotEos s)) : RunInv t := by
  refine ⟨by rw [h1]; exact h.running, by rw [h7]; exact h.capacity, hm, by rw [h7]; exact ha, by rw [h7]; exact hb,
    h.reader.congr h6 (by rw [h1]), hr, h.writer.congr h5 (by rw [h1]), ?_, ?_, by simpa only [h1] using h.noError⟩
  · simpa only [h1, h6] using hea
  · simpa only [h1, writerGotEos, h5] using heb

/-! ## The end-of-stream protocol (R74) -/

/-- The producer puts an item. -/
theorem EosInv.putItem {l : List Elem13} {b p g : Prop} (h : EosInv l b p g) (hp : ¬ p) (hg : ¬ g) {v : Code}
    (hv : b → v.toNat ≤ 255) : EosInv (l ++ [itemElem v]) b p g := by
  refine ⟨fun _ e he => ?_, fun h1 => absurd h1 hp, fun h1 => absurd h1 hg⟩
  rcases List.mem_append.mp he with he | he
  · exact h.before hp e he
  · rw [List.mem_singleton.mp he]
    exact ⟨by simp, by simpa using hv⟩

/-- The producer puts EOS. -/
theorem EosInv.putEos {l : List Elem13} {b p p' g : Prop} (h : EosInv l b p g) (hp : ¬ p) (hp' : p') (hg : ¬ g) :
    EosInv (l ++ [eosElem]) b p' g :=
  ⟨fun h1 => absurd hp' h1, fun _ _ => ⟨l, rfl, h.before hp⟩, fun h1 => absurd h1 hg⟩

/-- The consumer gets an item. -/
theorem EosInv.getItem {l : List Elem13} {e : Elem13} {b p g g' : Prop} (h : EosInv (e :: l) b p g)
    (he : elemTag e = false) (hg' : ¬ g') : EosInv l b p g' ∧ itemOf b e := by
  have hg : ¬ g := fun hg => by simpa using (h.finished hg).2
  by_cases hp : p
  · obtain ⟨items, h1, h2⟩ := h.after hp hg
    rcases items with _ | ⟨x, items⟩
    · simp at h1; simp [h1.1] at he
    · simp at h1
      refine ⟨⟨fun h => absurd hp h, fun _ _ => ⟨items, h1.2, fun e he => h2 e (by simp [he])⟩,
        fun h => absurd h hg'⟩, ?_⟩
      rw [h1.1]; exact h2 x (by simp)
  · exact ⟨⟨fun _ e he => h.before hp e (by simp [he]), fun h => absurd h hp, fun h => absurd h hg'⟩,
      h.before hp e (by simp)⟩

/-- The consumer gets EOS: the producer has put it, and nothing is left behind it. -/
theorem EosInv.getEos {l : List Elem13} {e : Elem13} {b p g g' : Prop} (h : EosInv (e :: l) b p g)
    (he : elemTag e = true) (hg' : g') : EosInv l b p g' ∧ p ∧ l = [] := by
  have hg : ¬ g := fun hg => by simpa using (h.finished hg).2
  have hp : p := by
    by_contra hp
    have := (h.before hp e (by simp)).1
    simp [he] at this
  obtain ⟨items, h1, h2⟩ := h.after hp hg
  rcases items with _ | ⟨x, items⟩
  · simp at h1
    exact ⟨⟨fun h => absurd hp h, fun _ h => absurd hg' h, fun _ => ⟨hp, h1.2⟩⟩, hp, h1.2⟩
  · simp at h1
    have := (h2 x (by simp)).1
    simp [← h1.1, he] at this

/-- The protocol depends on its parts up to equivalence. -/
theorem EosInv.same {l : List Elem13} {b p p' g g' : Prop} (h : EosInv l b p g) (hp : p' ↔ p) (hg : g' ↔ g) :
    EosInv l b p' g' := by
  have h1 : p' = p := propext hp
  have h2 : g' = g := propext hg
  rw [h1, h2]; exact h

/-! ## What a get finds -/

/-- A get that finds `e` is enabled and `e` is at the front. -/
theorem canGet_of_peek {s : State} {id : QueueId} {e : Elem13} (h : s.peek id = some e) :
    canGet s id ∧ s.front id = e := by
  unfold State.peek at h
  split at h
  · exact ⟨‹_›, by simpa using h⟩
  · exact nomatch h

/-- A get that finds EOS is enabled and the element at the front has TAG = 1. -/
theorem canGet_of_holdsEos {s : State} {id : QueueId} (h : s.holdsEos id) :
    canGet s id ∧ elemTag (s.front id) = true := by
  unfold State.holdsEos State.peek at h
  split at h
  · exact ⟨‹_›, by simpa using h⟩
  · simp at h

/-! ## The tables -/

/-- DICT after an addition (R82). -/
theorem dictAt_dictAdd (s : State) (c : Code) (x : Byte) (k : Nat) :
    (s.dictAdd c x).dictAt k = if k = s.eng.nextCode.toNat then { parent := c, symbol := x } else s.dictAt k := by
  split
  · subst k; simp [State.dictAt, State.dictAdd, Slots.write]
  · simp [State.dictAt, State.dictAdd, Slots.write, lookupCell_insertCell_other _ ‹_›]

/-- T after a write of slot next_code (R119). -/
theorem tableAt_write (s : State) (p : Str) (k : Nat) (w : Engine)
    (hw : w.table = s.eng.table.write s.eng.nextCode.toNat p) :
    (s.setEng w).tableAt k = if k = s.eng.nextCode.toNat then p else s.tableAt k := by
  split
  · subst k; simp [State.tableAt, hw, Slots.write]
  · simp [State.tableAt, hw, Slots.write, lookupCell_insertCell_other _ ‹_›]

/-- A MISS at a code: no valid entry has that parent and symbol (R81). -/
theorem dictFind_none {s : State} {c : Code} {x : Byte} (hf : s.dictFind (.code c) x = none) {k : Nat}
    (h1 : 257 ≤ k) (h2 : k < s.eng.nextCode.toNat) : s.dictAt k ≠ { parent := c, symbol := x } := by
  simp only [State.dictFind, Option.map_eq_none_iff, List.find?_eq_none] at hf
  have := hf k (by rw [List.mem_range'_1]; simp only [firstCode]; omega)
  simpa using this

/-- A HIT at a code: a valid entry with that parent and symbol (R81). -/
theorem dictFind_some {s : State} {c k : Code} {x : Byte} (hhi : s.eng.nextCode.toNat ≤ 4096)
    (hf : s.dictFind (.code c) x = some k) :
    257 ≤ k.toNat ∧ k.toNat < s.eng.nextCode.toNat ∧ s.dictAt k.toNat = { parent := c, symbol := x } := by
  simp only [State.dictFind, Option.map_eq_some_iff] at hf
  obtain ⟨a, ha, rfl⟩ := hf
  have hmem := List.mem_of_find?_eq_some ha
  have heq := List.find?_some ha
  rw [List.mem_range'_1] at hmem
  simp only [firstCode] at hmem
  have e : (BitVec.ofNat 12 a).toNat = a := by simp; omega
  exact ⟨by omega, by omega, by simpa [e] using heq⟩

/-! ## The classes (R62): what each one says of the element and of ENGINE's registers -/

theorem dClass_some {s : State} {k : DClass} (h : s.dClass = some k) :
    ∃ e, s.peek .a = some e ∧ classify e s.eng.fresh s.eng.prev.isEmpty s.eng.nextCode = k := by
  simpa [State.dClass] using h

theorem classify_eosIn {e : Elem13} {f p : Bool} {n : Counter} (h : classify e f p n = .eosIn) : elemTag e = true := by
  unfold classify at h; grind

theorem classify_item {e : Elem13} {f p : Bool} {n : Counter} (h : classify e f p n ≠ .eosIn) :
    elemTag e = false := by
  unfold classify at h; grind

theorem classify_lit {e : Elem13} {f p : Bool} {n : Counter} (h : classify e f p n = .lit) :
    (p = true ∨ n.toNat ≠ 4096) ∧ (elemPayload e).toNat ≤ 255 := by
  unfold classify at h; grind

theorem classify_seq {e : Elem13} {f p : Bool} {n : Counter} (h : classify e f p n = .seq) :
    p = false ∧ n.toNat ≠ 4096 ∧ 257 ≤ (elemPayload e).toNat ∧ (elemPayload e).toNat < n.toNat := by
  unfold classify at h; grind

theorem classify_kwk {e : Elem13} {f p : Bool} {n : Counter} (h : classify e f p n = .kwk) :
    p = false ∧ n.toNat ≠ 4096 ∧ 257 ≤ (elemPayload e).toNat ∧ (elemPayload e).toNat = n.toNat := by
  unfold classify at h
  cases p <;> simp at h ⊢ <;> split_ifs at h <;> omega

end Sys2Proof.Machine
end

