-- ==== Sys2Proof/Laws/PerInstr.lean ====
section
/-! SUPPORT. The per-instruction family EncodingRoundTrip: decoding the opcode tuple of a well-formed operation gives the
operation back. -/

namespace Sys2Proof.Laws.EncodingRoundTrip

/-- Decoding the tuple of a well-formed operation gives it back; an operation with no encoding claims nothing. -/
def Statement (i : Instr) : Prop := WellFormed i = true → ∀ op, encode i = some op → decode op = .ok i

theorem qInit (q : QueueId) : Statement (.qInit q) := fun _ _ h => nomatch h

theorem qPut (q : QueueId) (e : Elem13) : Statement (.qPut q e) := fun _ _ h => nomatch h

theorem qGet (q : QueueId) : Statement (.qGet q) := fun _ _ h => nomatch h

theorem dictInit : Statement .dictInit := fun _ _ h => nomatch h

theorem dictFind (n : Node) (x : Byte) : Statement (.dictFind n x) := fun _ _ h => nomatch h

theorem dictAdd (n : Code) (x : Byte) : Statement (.dictAdd n x) := fun _ _ h => nomatch h

theorem dictReset : Statement .dictReset := fun _ _ h => nomatch h

theorem dAdd (first : Byte) (rest : Str) : Statement (.dAdd first rest) := fun _ _ h => nomatch h

theorem rdRawByte (b : Byte) : Statement (.rdRawByte b) := by
  intro _ op h; cases h; simp [decode, decodeReader, decodeSource, rdStateOfBits, modeOfBit]

theorem rdRawEnd : Statement .rdRawEnd := by
  intro _ op h; cases h; rfl

theorem rdSrcError (m : Mode) : Statement (.rdSrcError m) := by
  intro _ op h; cases h; cases m <;> rfl

theorem unpackByte (b : Byte) : Statement (.unpackByte b) := by
  intro _ op h; cases h; simp [decode, decodeReader, decodeSource, rdStateOfBits, modeOfBit]

theorem unpackEnd : Statement .unpackEnd := by
  intro _ op h; cases h; rfl

theorem rdPut (m : Mode) : Statement (.rdPut m) := by
  intro _ op h; cases h; cases m <;> rfl

theorem rdEos (m : Mode) : Statement (.rdEos m) := by
  intro _ op h; cases h; cases m <;> rfl

theorem cFetchSym (v : Code) : Statement (.cFetchSym v) := by
  intro _ op h; cases h; simp [decode, decodeCompress, engStateOfBits, modeOfBit]

theorem cFetchEos : Statement .cFetchEos := by
  intro _ op h; cases h; rfl

theorem cMatchHit : Statement .cMatchHit := by
  intro _ op h; cases h; rfl

theorem cMatchMiss : Statement .cMatchMiss := by
  intro _ op h; cases h; rfl

theorem cEmitAdd : Statement .cEmitAdd := by
  intro _ op h; cases h; rfl

theorem cEmitFull : Statement .cEmitFull := by
  intro _ op h; cases h; rfl

theorem cReset : Statement .cReset := by
  intro _ op h; cases h; rfl

theorem cFinal : Statement .cFinal := by
  intro _ op h; cases h; rfl

theorem cEos : Statement .cEos := by
  intro _ op h; cases h; rfl

theorem dEosIn : Statement .dEosIn := by
  intro _ op h; cases h; rfl

theorem dErrFresh (c : Code) : Statement (.dErrFresh c) := by
  intro hw op h; cases h
  have hc : 256 ≤ c.toNat := by simpa [WellFormed] using hw
  have : classify (itemElem c) true true 257 = .errFresh := by simp [classify, hc]
  rw [decode_dFetch]
  simp only [decodeClass, plainGuard]
  rw [this]
  simp

theorem dReset : Statement .dReset := by
  intro _ op h; cases h; rfl

theorem dErrRange (c : Code) : Statement (.dErrRange c) := by
  intro hw op h; cases h
  have hc : 257 ≤ c.toNat := by simpa [WellFormed, wfSeqCode] using hw
  have : classify (itemElem c) false true 257 = .errRange := by
    simp [classify, hc, show c.toNat ≠ 256 by omega]
  rw [decode_dFetch]
  simp only [decodeClass, plainGuard]
  rw [this]
  simp

theorem dErrOverflow (c : Code) : Statement (.dErrOverflow c) := by
  intro hw op h; cases h
  have hc : c.toNat ≠ 256 := fun h => by
    simp [WellFormed, resetCode, show c = 256#12 from BitVec.eq_of_toNat_eq h] at hw
  have hlt := c.isLt
  have : classify (itemElem c) false false 4096 = .errOverflow := by
    simp [classify, hc, show ¬ 4096 < c.toNat by omega]
  rw [decode_dFetch]
  simp only [decodeClass, plainGuard]
  rw [this]
  simp

theorem dLit (b : Byte) : Statement (.dLit b) := by
  intro _ op h; cases h
  have hb := b.isLt
  have : classify (itemElem (zextCode b)) false true 257 = .lit := by
    simp [classify, show b.toNat ≠ 256 by omega, show ¬ 257 ≤ b.toNat by omega, show b.toNat ≤ 255 by omega]
  rw [decode_dFetch]
  simp only [decodeClass, plainGuard]
  rw [this]
  simp

theorem dSeq (c : Code) : Statement (.dSeq c) := by
  intro hw op h; cases h
  have hc : 257 ≤ c.toNat ∧ c.toNat < 4095 := by simpa [WellFormed, wfSeqCode] using hw
  have hn : (zextCounter c + 1).toNat = c.toNat + 1 := by
    simp [zextCounter, BitVec.toNat_add, BitVec.toNat_setWidth]; omega
  have : classify (itemElem c) false false (zextCounter c + 1) = .seq := by
    simp only [classify, elemTag_itemElem, elemPayload_itemElem, hn]
    grind
  rw [decode_dFetch]
  simp only [decodeClass, plainGuard]
  rw [this]
  simp

theorem dKwk (c : Code) : Statement (.dKwk c) := by
  intro hw op h; cases h
  have hc : 257 ≤ c.toNat := by simpa [WellFormed, wfSeqCode] using hw
  have hlt := c.isLt
  have hn : (zextCounter c).toNat = c.toNat := by
    simp [zextCounter, BitVec.toNat_setWidth]; omega
  have : classify (itemElem c) false false (zextCounter c) = .kwk := by
    simp only [classify, elemTag_itemElem, elemPayload_itemElem, hn]
    grind
  rw [decode_dFetch]
  simp only [decodeClass, plainGuard]
  rw [this]
  simp

theorem dEmit : Statement .dEmit := by
  intro _ op h; cases h; rfl

theorem dEosOut : Statement .dEosOut := by
  intro _ op h; cases h; rfl

theorem packCode (c : Code) : Statement (.packCode c) := by
  intro _ op h; cases h; simp [decode, decodeWriter, wrStateOfBits, modeOfBit]

theorem packEos : Statement .packEos := by
  intro _ op h; cases h; rfl

theorem packEmit (r : SinkAnswer) : Statement (.packEmit r) := by
  intro _ op h; cases h; cases r <;> rfl

theorem packFlush (r : SinkAnswer) : Statement (.packFlush r) := by
  intro _ op h; cases h; cases r <;> rfl

theorem wrRawByte (v : Code) : Statement (.wrRawByte v) := by
  intro _ op h; cases h; simp [decode, decodeWriter, wrStateOfBits, modeOfBit]

theorem wrRawEos : Statement .wrRawEos := by
  intro _ op h; cases h; rfl

theorem wrRawEmit (r : SinkAnswer) : Statement (.wrRawEmit r) := by
  intro _ op h; cases h; cases r <;> rfl

theorem start (m : Mode) : Statement (.start m) := by
  intro _ op h; cases h; cases m <;> rfl

theorem rst : Statement .rst := by
  intro _ op h; cases h; rfl

theorem done : Statement .done := fun _ _ h => nomatch h

theorem hostSrcAnswer (kind : BitVec 2) (data : Byte) : Statement (.hostSrcAnswer kind data) := by
  intro hw op h; cases h; simpa [decode, WellFormed] using hw

theorem hostSnkAnswer (r : SinkAnswer) : Statement (.hostSnkAnswer r) := by
  intro _ op h; cases h; cases r <;> rfl

end Sys2Proof.Laws.EncodingRoundTrip
end

