-- ==== Sys2Proof/Laws/Step.lean ====
section
/-! SUPPORT. What one step of the machine is: the turn taken from the schedule, the operation decoded, its meaning run. -/

namespace Sys2Proof.Machine

/-- Taking the turn out of the schedule changes the schedule or the draws alone. -/
theorem nextTurn_same (s : State) :
    s.nextTurn.2.core = s.core ∧ s.nextTurn.2.qa = s.qa ∧ s.nextTurn.2.qb = s.qb ∧ s.nextTurn.2.rd = s.rd ∧
      s.nextTurn.2.eng = s.eng ∧ s.nextTurn.2.wr = s.wr ∧ s.nextTurn.2.qcap = s.qcap := by
  unfold State.nextTurn; split <;> exact ⟨rfl, rfl, rfl, rfl, rfl, rfl, rfl⟩

/-- If a step answers a next state, then its turn passed, or the decoded operation answered that state. -/
theorem step_next {s t : State} (h : step s = .next t) :
    s.qcap ≠ 0 ∧
      ((∃ r, decode (s.nextTurn.2.opcode s.nextTurn.1) = .error r ∧ t = s.nextTurn.2) ∨
        ∃ i, decode (s.nextTurn.2.opcode s.nextTurn.1) = .ok i ∧ exec i s.nextTurn.2 = .next t) := by
  unfold step at h
  split at h
  · exact nomatch h
  · refine ⟨‹_›, ?_⟩
    split at h
    · exact .inr ⟨_, ‹_›, h⟩
    · exact .inl ⟨_, ‹_›, (Host.Outcome.next.inj h).symm⟩

/-- READER's tuple decodes as its state, mode and source response say. -/
theorem decode_opcode_reader (s : State) :
    decode (s.opcode .reader) = decodeReader s.core.mode s.rd.state s.sourceNext := by
  simp [State.opcode, decode]

/-- ENGINE's tuple decodes as its state, mode, element and registers say. -/
theorem decode_opcode_engine (s : State) :
    decode (s.opcode .engine) =
      match s.core.mode with
      | .compress => decodeCompress s.eng.state (s.peek .a) s.guard
      | .decompress => decodeDecompress s.eng.state (s.peek .a) s.guard := by
  cases h : s.core.mode <;> simp [State.opcode, decode, h]

/-- WRITER's tuple decodes as its state, mode, element and sink answer say. -/
theorem decode_opcode_writer (s : State) :
    decode (s.opcode .writer) = decodeWriter s.core.mode s.wr.state (s.peek .b) (s.sinkNext.map sinkBit) := by
  simp [State.opcode, decode]

end Sys2Proof.Machine
end

