-- ==== Sys2Proof/Tests/Slice0.lean ====
section
/-! SUPPORT. Tests: the ill-formed operands WellFormed refuses, words written out from the encodings, one step of each
operation with its result taken from the spec's examples (named in each comment), and for each statement with hypotheses
a concrete state that meets them. -/

namespace Sys2Proof.Tests

open Sys2Proof Sys2Proof.Machine

/-! ## WellFormed refuses -/

/-- EOS is produced with PAYLOAD 0 (R56). -/
theorem test_illformed_eos_payload : WellFormed (.qPut .a 0x1001) = false := by decide
theorem test_wellformed_eos : WellFormed (.qPut .a 0x1000) = true := by decide
/-- 256 is never a node (R77). -/
theorem test_illformed_find_256 : WellFormed (.dictFind (.code 0x100) 0x41) = false := by decide
theorem test_illformed_add_256 : WellFormed (.dictAdd 0x100 0x41) = false := by decide
/-- A byte item has bits 11:8 zero (R60). -/
theorem test_illformed_byte_item : WellFormed (.cFetchSym 0x100) = false := by decide
theorem test_illformed_raw_byte_item : WellFormed (.wrRawByte 0xFFF) = false := by decide
/-- FRESH is raised for c ≥ 256 (R62 line 2). -/
theorem test_illformed_fresh_literal : WellFormed (.dErrFresh 0x0FF) = false := by decide
/-- RANGE, SEQ and KWK are of SEQ codes (R62 lines 4, 7, 8). -/
theorem test_illformed_range_256 : WellFormed (.dErrRange 0x100) = false := by decide
theorem test_illformed_seq_literal : WellFormed (.dSeq 0x041) = false := by decide
theorem test_illformed_kwk_256 : WellFormed (.dKwk 0x100) = false := by decide
/-- c < next_code with room for an entry means c < 4095 (R62 lines 5, 7). -/
theorem test_illformed_seq_4095 : WellFormed (.dSeq 0xFFF) = false := by decide
theorem test_wellformed_kwk_4095 : WellFormed (.dKwk 0xFFF) = true := by decide
/-- OVERFLOW is never of the reset marker (R115). -/
theorem test_illformed_overflow_256 : WellFormed (.dErrOverflow 0x100) = false := by decide
/-- No string is longer than OBUF_DEPTH (R11). -/
theorem test_illformed_long_string : WellFormed (.dAdd 0x00 (List.replicate 3840 0x00)) = false := by
  simp only [WellFormed, List.length_replicate]; decide
/-- SRCRESP kind 3 is unused (R57). -/
theorem test_illformed_kind_3 : WellFormed (.hostSrcAnswer 3 0x00) = false := by decide

/-! ## Words written out from the encodings (R25, R56, R57, R61) -/

/-- ENGINE's guard for a decode test. -/
abbrev guardOf (hit fresh prevEmpty : Bool) (nextCode : Counter) : Guard :=
  { hit := hit, fresh := fresh, prevEmpty := prevEmpty, nextCode := nextCode }

theorem test_decode_rdRawByte : decode (.reader 0b0 0b0001 (some 0b0001000001)) = .ok (.rdRawByte 0x41) := by decide
theorem test_decode_rdRawEnd : decode (.reader 0b0 0b0001 (some 0b0110101010)) = .ok .rdRawEnd := by decide
theorem test_decode_rdSrcError : decode (.reader 0b0 0b0001 (some 0b1000000000)) = .ok (.rdSrcError .compress) := by
  decide
theorem test_decode_unpackByte : decode (.reader 0b1 0b0001 (some 0b0000010000)) = .ok (.unpackByte 0x10) := by decide
theorem test_decode_unpackEnd : decode (.reader 0b1 0b0001 (some 0b0100000000)) = .ok .unpackEnd := by decide
theorem test_decode_rdPut : decode (.reader 0b1 0b0010 none) = .ok (.rdPut .decompress) := by decide
theorem test_decode_rdEos : decode (.reader 0b0 0b0011 none) = .ok (.rdEos .compress) := by decide
theorem test_decode_cFetchSym :
    decode (.engine 0b0 0b0001 (some 0b0000001000001) plainGuard) = .ok (.cFetchSym 0x041) := by decide
theorem test_decode_cFetchEos :
    decode (.engine 0b0 0b0001 (some 0b1000000000000) plainGuard) = .ok .cFetchEos := by decide
theorem test_decode_cMatchHit :
    decode (.engine 0b0 0b0010 none (guardOf true false true 257)) = .ok .cMatchHit := by decide
theorem test_decode_cMatchMiss :
    decode (.engine 0b0 0b0010 none (guardOf false false true 257)) = .ok .cMatchMiss := by decide
theorem test_decode_cEmitAdd :
    decode (.engine 0b0 0b0011 none (guardOf false false true 4095)) = .ok .cEmitAdd := by decide
theorem test_decode_cEmitFull :
    decode (.engine 0b0 0b0011 none (guardOf false false true 4096)) = .ok .cEmitFull := by decide
theorem test_decode_cReset : decode (.engine 0b0 0b0100 none plainGuard) = .ok .cReset := by decide
theorem test_decode_cFinal : decode (.engine 0b0 0b0101 none plainGuard) = .ok .cFinal := by decide
theorem test_decode_cEos : decode (.engine 0b0 0b0110 none plainGuard) = .ok .cEos := by decide
/-- EOS is a normal end while fresh = 1 (95_test_vectors.md 2.7, codes `100`). -/
theorem test_decode_dEosIn :
    decode (.engine 0b1 0b1000 (some 0b1000000000000) (guardOf false true true 257)) = .ok .dEosIn := by decide
/-- Codes `100 100` (2.7). -/
theorem test_decode_dErrFresh :
    decode (.engine 0b1 0b1000 (some 0b0000100000000) (guardOf false true true 257)) = .ok (.dErrFresh 0x100) := by
  decide
/-- A reset marker first (2.7), and one at next_code = 4096 (R113). -/
theorem test_decode_dReset :
    decode (.engine 0b1 0b1000 (some 0b0000100000000) (guardOf false false true 257)) = .ok .dReset ∧
    decode (.engine 0b1 0b1000 (some 0b0000100000000) (guardOf false false false 4096)) = .ok .dReset := by decide
/-- Codes `041 102` and `101` (2.7). -/
theorem test_decode_dErrRange :
    decode (.engine 0b1 0b1000 (some 0b0000100000010) (guardOf false false false 257)) = .ok (.dErrRange 0x102) ∧
    decode (.engine 0b1 0b1000 (some 0b0000100000001) (guardOf false false true 257)) = .ok (.dErrRange 0x101) := by
  decide
/-- Z4 (2.6): code 000 at next_code = 4096. -/
theorem test_decode_dErrOverflow :
    decode (.engine 0b1 0b1000 (some 0b0000000000000) (guardOf false false false 4096)) = .ok (.dErrOverflow 0x000) := by
  decide
theorem test_decode_dLit :
    decode (.engine 0b1 0b1000 (some 0b0000001000010) (guardOf false true true 257)) = .ok (.dLit 0x42) := by decide
/-- R117's example: c = 257 with next_code = 258. -/
theorem test_decode_dSeq :
    decode (.engine 0b1 0b1000 (some 0b0000100000001) (guardOf false false false 258)) = .ok (.dSeq 0x101) := by decide
/-- R110's example: c = 257 with next_code = 257. -/
theorem test_decode_dKwk :
    decode (.engine 0b1 0b1000 (some 0b0000100000001) (guardOf false false false 257)) = .ok (.dKwk 0x101) := by decide
theorem test_decode_dEmit : decode (.engine 0b1 0b1001 none plainGuard) = .ok .dEmit := by decide
theorem test_decode_dEosOut : decode (.engine 0b1 0b1010 none plainGuard) = .ok .dEosOut := by decide
theorem test_decode_packCode : decode (.writer 0b0 0b0001 (some 0b0111111111111) none) = .ok (.packCode 0xFFF) := by
  decide
theorem test_decode_packEos : decode (.writer 0b0 0b0001 (some 0b1000000000000) none) = .ok .packEos := by decide
theorem test_decode_packEmit : decode (.writer 0b0 0b0010 none (some 0b0)) = .ok (.packEmit .ok) := by decide
theorem test_decode_packFlush : decode (.writer 0b0 0b0011 none (some 0b1)) = .ok (.packFlush .error) := by decide
theorem test_decode_wrRawByte : decode (.writer 0b1 0b0001 (some 0b0000001000001) none) = .ok (.wrRawByte 0x041) := by
  decide
theorem test_decode_wrRawEos : decode (.writer 0b1 0b0001 (some 0b1000000000000) none) = .ok .wrRawEos := by decide
theorem test_decode_wrRawEmit : decode (.writer 0b1 0b0010 none (some 0b1)) = .ok (.wrRawEmit .error) := by decide
theorem test_decode_host :
    decode (.start 0b1) = .ok (.start .decompress) ∧ decode .rst = .ok .rst ∧
    decode (.srcAnswer 0b0001000010) = .ok (.hostSrcAnswer 0 0x42) ∧
    decode (.snkAnswer 0b1) = .ok (.hostSnkAnswer .error) := by decide
/-- Reserved encodings and states without a step select nothing (R25, R61, R64c). -/
theorem test_decode_refuses :
    decode (.reader 0b0 0b0001 (some 0b1100000000)) = .error .unusedKind ∧
    decode (.srcAnswer 0b1100000000) = .error .unusedKind ∧
    decode (.reader 0b0 0b0101 none) = .error .unusedState ∧
    decode (.engine 0b0 0b0111 none plainGuard) = .error .unusedState ∧
    decode (.engine 0b0 0b1000 (some 0) plainGuard) = .error .stateOfOtherMode ∧
    decode (.engine 0b1 0b0001 (some 0) plainGuard) = .error .stateOfOtherMode ∧
    decode (.writer 0b1 0b0011 none (some 0)) = .error .stateOfOtherMode ∧
    decode (.writer 0b0 0b0100 none none) = .error .stateHasNoStep ∧
    decode (.engine 0b0 0b0001 none plainGuard) = .error .itemMissing := by decide
/-- The sub-operations and DONE have no tuple (opcode_table.json's "-"). -/
theorem test_encode_none :
    encode (.qInit .a) = none ∧ encode (.qPut .a 0) = none ∧ encode (.qGet .b) = none ∧ encode .dictInit = none ∧
    encode (.dictFind .root 0) = none ∧ encode (.dictAdd 0 0) = none ∧ encode .dictReset = none ∧
    encode (.dAdd 0 []) = none ∧ encode .done = none := by decide

/-! ## Bare table words -/

theorem test_table_words :
    decodeTableWord 16 0x041 = some (.rdRawByte 0x41) ∧ decodeTableWord 16 0x100 = some .rdRawEnd ∧
    decodeTableWord 16 0x200 = some (.rdSrcError .compress) ∧ decodeTableWord 16 0x1000 = some .cFetchEos ∧
    decodeTableWord 8 0x02 = some (.rdPut .compress) ∧ decodeTableWord 8 0x12 = some (.rdPut .decompress) ∧
    decodeTableWord 8 0x19 = some .dEmit ∧ decodeTableWord 8 0x05 = some .cFinal ∧
    decodeTableWord 8 0x01 = some (.start .decompress) ∧ decodeTableWord 8 0x07 = none := by decide

/-! ## Small states -/

/-- Did the step answer a next state of which `p` holds? -/
def nextIs (o : Out) (p : State → Bool) : Bool :=
  match o with
  | .next t => p t
  | .fault _ => false
  | .refused _ => false

/-- A job of mode `m` just begun, with QCAP = 2 and both queues empty. -/
def job (m : Mode) : State :=
  { State.reset with
    core := { State.reset.core with status := .running, mode := m }
    qcap := 2
    qa := { Queue.reset with free := 2 }
    qb := { Queue.reset with free := 2 }
    rd := { State.reset.rd with state := .read }
    eng := { State.reset.eng with state := match m with
      | .compress => .cFetch
      | .decompress => .dFetch }
    wr := { State.reset.wr with state := .get } }

/-- A queue of capacity 2 that holds `e` alone. -/
def one (e : Elem13) : Queue :=
  { buf := { gen := 0, cells := [(0, e)] }, head := 0, tail := 1, free := 1, filled := 1 }

/-- A full queue of capacity 2. -/
def full : Queue := { buf := { gen := 0, cells := [(0, 0), (1, 0)] }, head := 0, tail := 0, free := 0, filled := 2 }

/-- ENGINE's registers in the job just begun, in state `e`. -/
def eng (m : Mode) (e : EngState) : Engine := { (job m).eng with state := e }

/-- The job with ENGINE's registers given. -/
def withEng (m : Mode) (e : Engine) : State := { job m with eng := e }

/-- The job with one element in QA and ENGINE's registers given. -/
def withElem (m : Mode) (x : Elem13) (e : Engine) : State := { job m with qa := one x, eng := e }

/-- The job with source responses. -/
def withSrc (m : Mode) (ws : List SrcWord) : State := { job m with host := { State.reset.host with src := ws } }

/-- The job with WRITER's registers and sink answers given. -/
def withWr (m : Mode) (w : Writer) (rs : List SinkAnswer) : State :=
  { job m with wr := w, host := { State.reset.host with snk := rs } }

/-- DICT[257] = (041, 42), next_code = 258 (2.2). -/
def dict257 : Slots DictEntry := { gen := 0, cells := [(257, { parent := 0x041, symbol := 0x42 })] }

/-! ## One step each: the queues (95_test_vectors.md 2.1, R69, R70) -/

/-- R69's example: N = 2, head = 1, tail = 1, filled = 0. -/
def atOne : State := { job .compress with qa := { Queue.reset with head := 1, tail := 1, free := 2, filled := 0 } }

theorem test_qPut : nextIs (exec (.qPut .a 0x041) atOne) (fun t =>
    t.qa.tail == 0 && t.qa.free == 1 && t.qa.filled == 1 && t.qa.slot .a 1 == 0x041 && t.qa.head == 1) = true := by decide
/-- A put on a full queue is not enabled (2.1, step 2). -/
theorem test_qPut_full : exec (.qPut .a 0x041) { job .compress with qa := full } =
    .next { job .compress with qa := full } := rfl
/-- R70's example: head = 1, filled = 1, buf[1] = ITEM(0x041). -/
theorem test_qGet : nextIs (exec (.qGet .a) { job .compress with
      qa := { buf := { gen := 0, cells := [(1, 0x041)] }, head := 1, tail := 0, free := 1, filled := 1 } }) (fun t =>
    t.ret == .elem 0x041 && t.qa.head == 0 && t.qa.filled == 0 && t.qa.free == 2) = true := by decide
theorem test_qGet_empty : exec (.qGet .a) (job .compress) = .next (job .compress) := rfl
/-- R68's example, with N = 5096. -/
theorem test_qInit : nextIs (exec (.qInit .b) { State.reset with qb := full }) (fun t =>
    t.qb.head == 0 && t.qb.tail == 0 && t.qb.free == 5096 && t.qb.filled == 0) = true := by decide
theorem test_qInit_zero : exec (.qInit .a) { job .compress with qcap := 0 } = .refused .zeroCapacity := rfl

/-! ## The dictionary (2.2) -/

theorem test_dictInit : nextIs (exec .dictInit (withEng .compress { eng .compress .cFetch with nextCode := 4096 }))
    (fun t => t.eng.nextCode == 257) = true := by decide
theorem test_dictFind_root : nextIs (exec (.dictFind .root 0xFF) (job .compress)) (fun t => t.ret == .hit 0x0FF) = true := by
  decide
theorem test_dictFind_code :
    nextIs (exec (.dictFind (.code 0x041) 0x42)
      (withEng .compress { eng .compress .cFetch with nextCode := 258, dict := dict257 })) (fun t => t.ret == .hit 257) = true ∧
    nextIs (exec (.dictFind (.code 257) 0x42)
      (withEng .compress { eng .compress .cFetch with nextCode := 258, dict := dict257 })) (fun t => t.ret == .miss) = true := by
  decide
/-- ADD at next_code 4095 assigns 4095 and leaves the dictionary full. -/
theorem test_dictAdd : nextIs (exec (.dictAdd 0x041 0x42)
      (withEng .compress { eng .compress .cFetch with nextCode := 4095 })) (fun t =>
    t.ret == .newCode 4095 && t.eng.nextCode == 4096 && t.dictAt 4095 == { parent := 0x041, symbol := 0x42 }) = true := by
  decide
theorem test_dictAdd_full :
    exec (.dictAdd 0x041 0x42) (withEng .compress { eng .compress .cFetch with nextCode := 4096 }) =
      .next (withEng .compress { eng .compress .cFetch with nextCode := 4096 }) := rfl
/-- RESET leaves the entry stale: FIND misses. -/
theorem test_dictReset : nextIs (exec .dictReset
      (withEng .compress { eng .compress .cFetch with nextCode := 4096, dict := dict257 })) (fun t =>
    t.eng.nextCode == 257 && (t.dictFind (.code 0x041) 0x42).isNone && t.eng.dict == dict257) = true := by decide
/-- R119's example: prev = "AB", p = "ABA", next_code = 259. -/
theorem test_dAdd : nextIs (exec (.dAdd 0x41 [0x42, 0x41])
      (withEng .decompress { eng .decompress .dFetch with prev := [0x41, 0x42], nextCode := 259 })) (fun t =>
    t.tableAt 259 == [0x41, 0x42, 0x41] && t.eng.nextCode == 260) = true := by decide

/-! ## READER (2.4, 2.8) -/

theorem test_rdRawByte : nextIs (exec (.rdRawByte 0x41) (withSrc .compress [0x041])) (fun t =>
    t.rd.latch == 0x041 && t.rd.state == .put && t.host.src == []) = true := by decide
theorem test_rdRawEnd : nextIs (exec .rdRawEnd (withSrc .compress [0x1AA])) (fun t => t.rd.state == .eos) = true := by decide
theorem test_rdSrcError : nextIs (exec (.rdSrcError .compress) (withSrc .compress [0x200])) (fun t =>
    t.core.status == .aborted && t.core.errCode == .ioSource && t.core.errInfo == 0 && t.rd.state == .read) = true := by
  decide
/-- Bytes 04 10: (04, 8), then the latch 041 and (0, 4). -/
theorem test_unpackByte_first : nextIs (exec (.unpackByte 0x04) (withSrc .decompress [0x004])) (fun t =>
    t.rd.acc == 0x04 && t.rd.nbits == 8 && t.rd.state == .read) = true := by decide
theorem test_unpackByte_second : nextIs (exec (.unpackByte 0x10) { withSrc .decompress [0x010] with
      rd := { state := .read, acc := 0x04, nbits := 8, latch := 0 } }) (fun t =>
    t.rd.latch == 0x041 && t.rd.acc == 0 && t.rd.nbits == 4 && t.rd.state == .put) = true := by decide
theorem test_unpackEnd : nextIs (exec .unpackEnd { withSrc .decompress [0x100] with
      rd := { state := .read, acc := 0xF, nbits := 4, latch := 0 } }) (fun t =>
    t.rd.acc == 0 && t.rd.nbits == 0 && t.rd.state == .eos) = true := by decide
theorem test_rdPut : nextIs (exec (.rdPut .compress) { job .compress with
      rd := { state := .put, acc := 0, nbits := 0, latch := 0x041 } }) (fun t =>
    t.peek .a == some 0x041 && t.rd.state == .read) = true := by decide
theorem test_rdEos : nextIs (exec (.rdEos .decompress) { job .decompress with
      rd := { state := .eos, acc := 0, nbits := 0, latch := 0 } }) (fun t =>
    t.peek .a == some 0x1000 && t.rd.state == .done && t.core.status == .running) = true := by decide

/-! ## ENGINE, COMPRESS (2.5: the trace of "ABABABA") -/

theorem test_cFetchSym : nextIs (exec (.cFetchSym 0x041) (withElem .compress 0x041 (eng .compress .cFetch))) (fun t =>
    t.eng.sym == 0x41 && t.eng.state == .cMatch && t.qa.filled == 0) = true := by decide
theorem test_cFetchEos :
    nextIs (exec .cFetchEos (withElem .compress 0x1000 (eng .compress .cFetch))) (fun t => t.eng.state == .cEos) = true ∧
    nextIs (exec .cFetchEos (withElem .compress 0x1000 { eng .compress .cFetch with cur := .code 0x103 }))
      (fun t => t.eng.state == .cFinal) = true := by decide
/-- Row 12: cur 041, sym 42 becomes 257. -/
theorem test_cMatchHit : nextIs (exec .cMatchHit (withEng .compress
      { eng .compress .cMatch with cur := .code 0x041, sym := 0x42, nextCode := 258, dict := dict257 })) (fun t =>
    t.eng.cur == .code 257 && t.eng.state == .cFetch) = true := by decide
/-- Row 4. -/
theorem test_cMatchMiss : nextIs (exec .cMatchMiss (withEng .compress
      { eng .compress .cMatch with cur := .code 0x041, sym := 0x42 })) (fun t =>
    t.eng.cur == .code 0x041 && t.eng.sym == 0x42 && t.eng.state == .cEmit) = true := by decide
/-- Row 5. -/
theorem test_cEmitAdd : nextIs (exec .cEmitAdd (withEng .compress
      { eng .compress .cEmit with cur := .code 0x041, sym := 0x42 })) (fun t =>
    t.peek .b == some 0x041 && t.eng.dict == dict257 && t.eng.nextCode == 258 && t.eng.cur == .root &&
      t.eng.state == .cMatch) = true := by decide
/-- R101's example. -/
theorem test_cEmitFull : nextIs (exec .cEmitFull (withEng .compress
      { eng .compress .cEmit with cur := .code 4095, nextCode := 4096 })) (fun t =>
    t.peek .b == some 0xFFF && t.eng.nextCode == 4096 && t.eng.state == .cReset) = true := by decide
theorem test_cReset : nextIs (exec .cReset (withEng .compress
      { eng .compress .cReset with cur := .code 4095, sym := 0x07, nextCode := 4096 })) (fun t =>
    t.peek .b == some 0x100 && t.eng.nextCode == 257 && t.eng.cur == .root && t.eng.sym == 0x07) = true := by decide
theorem test_cFinal : nextIs (exec .cFinal (withEng .compress { eng .compress .cFinal with cur := .code 0x041 }))
    (fun t => t.peek .b == some 0x041 && t.eng.nextCode == 257 && t.eng.state == .cEos) = true := by decide
theorem test_cEos : nextIs (exec .cEos (withEng .compress (eng .compress .cEos))) (fun t =>
    t.peek .b == some 0x1000 && t.eng.state == .done) = true := by decide

/-! ## ENGINE, DECOMPRESS (2.7, and the rules' examples) -/

theorem test_dEosIn : nextIs (exec .dEosIn (withElem .decompress 0x1000 { eng .decompress .dFetch with fresh := true }))
    (fun t => t.eng.state == .dEos && t.qa.filled == 0) = true := by decide
theorem test_dErrFresh : nextIs (exec (.dErrFresh 0xFFF)
      (withElem .decompress 0xFFF { eng .decompress .dFetch with fresh := true })) (fun t =>
    t.core.errCode == .corrupt && t.core.errReason == .fresh && t.core.errInfo == 0xFFF && t.qa.filled == 1) = true := by
  decide
theorem test_dReset : nextIs (exec .dReset
      (withElem .decompress 0x100 { eng .decompress .dFetch with prev := [0x41], nextCode := 4096 })) (fun t =>
    t.eng.nextCode == 257 && t.eng.prev == [] && t.eng.fresh && t.eng.state == .dFetch) = true := by decide
/-- P4: codes 041 FFF; the element is still at the head of QA. -/
theorem test_dErrRange : nextIs (exec (.dErrRange 0xFFF)
      (withElem .decompress 0xFFF { eng .decompress .dFetch with prev := [0x41] })) (fun t =>
    t.core.status == .aborted && t.core.errReason == .range && t.core.errInfo == 0xFFF && t.peek .a == some 0xFFF &&
      t.eng.state == .dFetch) = true := by decide
/-- Z4: code 000 with prev = [E3]. -/
theorem test_dErrOverflow : nextIs (exec (.dErrOverflow 0x000)
      (withElem .decompress 0x000 { eng .decompress .dFetch with prev := [0xE3], nextCode := 4096 })) (fun t =>
    t.core.errReason == .overflow && t.core.errInfo == 0x000) = true := by decide
/-- R116's example: prev = "A", next_code = 257, c = 0x42. -/
theorem test_dLit : nextIs (exec (.dLit 0x42)
      (withElem .decompress 0x042 { eng .decompress .dFetch with prev := [0x41] })) (fun t =>
    t.tableAt 257 == [0x41, 0x42] && t.eng.nextCode == 258 && t.eng.obuf == [0x42] && t.eng.state == .dEmit) = true := by
  decide
/-- R117's example: T[257] = "AB", prev = "B", next_code = 258, c = 257. -/
theorem test_dSeq : nextIs (exec (.dSeq 257) (withElem .decompress 0x101 { eng .decompress .dFetch with
      prev := [0x42], nextCode := 258, table := { gen := 0, cells := [(257, [0x41, 0x42])] } })) (fun t =>
    t.tableAt 258 == [0x42, 0x41] && t.eng.nextCode == 259 && t.eng.obuf == [0x41, 0x42]) = true := by decide
/-- R118's example, and its corner case (b): c = 4095 leaves next_code = 4096. -/
theorem test_dKwk : nextIs (exec (.dKwk 257)
      (withElem .decompress 0x101 { eng .decompress .dFetch with prev := [0x41] })) (fun t =>
    t.tableAt 257 == [0x41, 0x41] && t.eng.nextCode == 258 && t.eng.obuf == [0x41, 0x41]) = true := by decide
theorem test_dKwk_last : nextIs (exec (.dKwk 4095)
      (withElem .decompress 0xFFF { eng .decompress .dFetch with prev := [0x41], nextCode := 4095 })) (fun t =>
    t.tableAt 4095 == [0x41, 0x41] && t.eng.nextCode == 4096) = true := by decide
/-- R120's example: "AB", its second byte. -/
theorem test_dEmit : nextIs (exec .dEmit
      (withEng .decompress { eng .decompress .dEmit with obuf := [0x41, 0x42], oidx := 1 })) (fun t =>
    t.peek .b == some 0x042 && t.eng.oidx == 2 && t.eng.state == .dFetch) = true := by decide
theorem test_dEmit_more : nextIs (exec .dEmit
      (withEng .decompress { eng .decompress .dEmit with obuf := [0x41, 0x42], oidx := 0 })) (fun t =>
    t.peek .b == some 0x041 && t.eng.state == .dEmit) = true := by decide
theorem test_dEosOut : nextIs (exec .dEosOut (withEng .decompress (eng .decompress .dEos))) (fun t =>
    t.peek .b == some 0x1000 && t.eng.state == .done) = true := by decide

/-! ## WRITER (2.3, 2.8) -/

/-- R87's example: (1, 4) and 0x042 give (1042, 16). -/
theorem test_packCode : nextIs (exec (.packCode 0x042) { job .compress with
      qb := one 0x042, wr := { state := .get, acc := 0x1, nbits := 4, byte := 0 } }) (fun t =>
    t.wr.acc == 0x1042 && t.wr.nbits == 16 && t.wr.state == .emit) = true := by decide
theorem test_packEos :
    nextIs (exec .packEos { job .compress with qb := one 0x1000 }) (fun t => t.wr.state == .done) = true ∧
    nextIs (exec .packEos { job .compress with
      qb := one 0x1000, wr := { state := .get, acc := 0xF, nbits := 4, byte := 0 } }) (fun t => t.wr.state == .pad) = true := by
  decide
/-- `ABC DEF`: (CDEF, 16) emits CD and leaves (EF, 8). -/
theorem test_packEmit : nextIs (exec (.packEmit .ok)
      (withWr .compress { state := .emit, acc := 0xCDEF, nbits := 16, byte := 0 } [.ok])) (fun t =>
    t.host.out == [0xCD] && t.wr.acc == 0xEF && t.wr.nbits == 8 && t.wr.state == .emit) = true := by decide
theorem test_packEmit_error : nextIs (exec (.packEmit .error)
      (withWr .compress { state := .emit, acc := 0xCDEF, nbits := 16, byte := 0 } [.error])) (fun t =>
    t.host.out == [] && t.core.errCode == .ioSink && t.core.errInfo == 0 && t.wr.acc == 0xCDEF) = true := by decide
/-- The third code of `123 456 789` ends with (9, 4), then FLUSH 90. -/
theorem test_packFlush : nextIs (exec (.packFlush .ok)
      (withWr .compress { state := .pad, acc := 0x9, nbits := 4, byte := 0 } [.ok])) (fun t =>
    t.host.out == [0x90] && t.wr.nbits == 0 && t.wr.state == .done) = true := by decide
theorem test_wrRawByte : nextIs (exec (.wrRawByte 0x041) { job .decompress with qb := one 0x041 }) (fun t =>
    t.wr.byte == 0x41 && t.wr.state == .emit) = true := by decide
theorem test_wrRawEos : nextIs (exec .wrRawEos { job .decompress with
      qb := one 0x1000, rd := { State.reset.rd with state := .done }, eng := eng .decompress .done }) (fun t =>
    t.wr.state == .done && t.core.status == .done) = true := by decide
theorem test_wrRawEmit : nextIs (exec (.wrRawEmit .ok)
      (withWr .decompress { state := .emit, acc := 0, nbits := 0, byte := 0x41 } [.ok])) (fun t =>
    t.host.out == [0x41] && t.wr.state == .get) = true := by decide
theorem test_wrRawEmit_error : nextIs (exec (.wrRawEmit .error)
      (withWr .decompress { state := .emit, acc := 0, nbits := 0, byte := 0x41 } [.error])) (fun t =>
    t.host.out == [] && t.core.status == .aborted && t.core.errCode == .ioSink) = true := by decide

/-! ## HOST (2.8) -/

/-- R127's example: START with MODE_IN = 1 after reset. -/
theorem test_start : nextIs (exec (.start .decompress) State.reset) (fun t =>
    t.core.status == .running && t.eng.state == .dFetch && t.eng.nextCode == 257 && t.qa.free == 5096) = true := by decide
theorem test_start_running : exec (.start .decompress) (job .compress) = .next (job .compress) := rfl
/-- R161's example: RST while RUNNING in D_EMIT. -/
theorem test_rst : nextIs (exec .rst
      (withEng .decompress { eng .decompress .dEmit with obuf := [0x41, 0x42], oidx := 1 })) (fun t =>
    t.core.status == .idle && t.core.mode == .compress && t.eng.state == .idle && t.rd.state == .idle) = true := by decide
theorem test_done :
    nextIs (exec .done { job .compress with
      rd := { State.reset.rd with state := .done }, eng := eng .compress .done
      wr := { State.reset.wr with state := .done } }) (fun t => t.core.status == .done) = true ∧
    nextIs (exec .done (job .compress)) (fun t => t == job .compress) = true := by decide
theorem test_hostSrcAnswer : nextIs (exec (.hostSrcAnswer 0 0x41) (withSrc .compress [0x142])) (fun t =>
    t.rd.latch == 0x041 && t.rd.state == .put && t.host.src == [0x142]) = true := by decide
/-- Kind 3: READER stays blocked (R64c). -/
theorem test_hostSrcAnswer_kind3 : exec (.hostSrcAnswer 3 0x41) (job .compress) = .next (job .compress) := rfl
theorem test_hostSnkAnswer : nextIs (exec (.hostSnkAnswer .error)
      (withWr .decompress { state := .emit, acc := 0, nbits := 0, byte := 0x41 } [])) (fun t =>
    t.core.errCode == .ioSink && t.host.out == []) = true := by decide

/-- The machine fetches and runs a table word as its very next step. -/
theorem test_withFetchWord :
    nextIs (step (State.reset.withFetchWord 16 0x041)) (fun t => t.rd.latch == 0x041 && t.rd.state == .put) = true ∧
    nextIs (step (State.reset.withFetchWord 8 0x06)) (fun t => t.peek .b == some 0x1000) = true := by decide

/-! ## Witnesses: concrete states and operands that meet the hypotheses of the statements, clause by clause -/

/-- A running job with ENGINE's hypotheses spelled out. -/
abbrev runs (s : State) (m : Mode) : Prop := s.core.status = .running ∧ s.core.mode = m

theorem test_witness_StartBeginsJob :
    (1 ≤ State.reset.qcap ∧ State.reset.core.status ≠ .running) ∧
    (1 ≤ { job .compress with qcap := 1 }.qcap ∧ (job .compress).core.status = .running) := by decide
theorem test_witness_DoneRow : (job .compress).core.status = .running := by decide
theorem test_witness_ZeroCapacityRefused : { job .compress with qcap := 0 }.qcap = 0 := by decide
theorem test_witness_QInitEmpties : 1 ≤ State.reset.qcap := by decide
theorem test_witness_QPutInserts :
    0 < (atOne.queue .a).free ∧ ({ job .compress with qa := full }.queue .a).free = 0 := by decide
theorem test_witness_QGetRemoves :
    0 < ({ job .compress with qa := one 0x041 }.queue .a).filled ∧ ((job .compress).queue .a).filled = 0 := by decide

/-- A queue of capacity 1, empty or holding `e`. -/
def single (e : Option Elem13) : Queue :=
  match e with
  | none => { Queue.reset with free := 1 }
  | some e => { buf := { gen := 0, cells := [(0, e)] }, head := 0, tail := 0, free := 0, filled := 1 }

theorem test_witness_CapacityOneAlternates_put :
    QueueInv 1 (single none) ∧ canPut { job .compress with qcap := 1, qa := single none } .a :=
  ⟨⟨rfl, by decide, by decide, fun _ h => absurd h (Nat.not_lt_zero _)⟩, by decide⟩
theorem test_witness_CapacityOneAlternates_get :
    QueueInv 1 (single (some 0x041)) ∧ canGet { job .compress with qcap := 1, qa := single (some 0x041) } .a :=
  ⟨⟨rfl, by decide, by decide, fun i h => by
    obtain rfl : i = 0 := Nat.lt_one_iff.mp h
    decide⟩, by decide⟩
/-- One element there, room for one more. -/
theorem test_witness_QueueIsFifo : QueueInv 2 (one 0x041) ∧ [(0x1000 : Elem13)].length ≤ (one 0x041).free :=
  ⟨⟨rfl, by decide, by decide, fun i h => by
    obtain rfl : i = 0 := Nat.lt_one_iff.mp h
    decide⟩, by decide⟩

/-- The dictionary of 2.2 with next_code = 258. -/
def withDict : State := withEng .compress { eng .compress .cFetch with nextCode := 258, dict := dict257 }

theorem test_witness_DictFindAnswers_hit :
    withDict.eng.nextCode.toNat ≤ 4096 ∧ 257 ≤ 257 ∧ 257 < withDict.eng.nextCode.toNat ∧
      withDict.dictAt 257 = { parent := 0x041, symbol := 0x42 } := by decide
theorem test_witness_DictFindAnswers_miss :
    (job .compress).eng.nextCode.toNat ≤ 4096 ∧
      ∀ j, 257 ≤ j → j < (job .compress).eng.nextCode.toNat →
        (job .compress).dictAt j ≠ { parent := 0x041, symbol := 0x42 } :=
  ⟨by decide, fun j h1 h2 => absurd h2 (Nat.not_lt.mpr h1)⟩
theorem test_witness_DictAddWrites :
    (withEng .compress { eng .compress .cFetch with nextCode := 4095 }).eng.nextCode.toNat ≤ 4095 := by decide
theorem test_witness_DAddAppends :
    (job .decompress).eng.prev = [] ∧
    ((withEng .decompress { eng .decompress .dFetch with prev := [0x41], nextCode := 4095 }).eng.prev ≠ [] ∧
      (withEng .decompress { eng .decompress .dFetch with prev := [0x41], nextCode := 4095 }).eng.nextCode.toNat ≤ 4095) := by
  decide

theorem test_witness_SourceReads :
    (runs (withSrc .compress [0x0FF]) .compress ∧ (withSrc .compress [0x0FF]).rd.state = .read ∧
      (withSrc .compress [0x0FF]).host.src = srcWord 0 0xFF :: []) ∧
    (runs (withSrc .compress [0x1AA]) .compress ∧ (withSrc .compress [0x1AA]).host.src = srcWord 1 0xAA :: []) ∧
    (runs (withSrc .decompress [0x200]) .decompress ∧ (withSrc .decompress [0x200]).rd.state = .read ∧
      (withSrc .decompress [0x200]).host.src = srcWord 2 0x00 :: []) := by decide

/-- READER in R_READ of a DECOMPRESS job with a bit buffer and one response. -/
def unpacking (acc : BitBuf) (nbits : BitCount) (w : SrcWord) : State :=
  { withSrc .decompress [w] with rd := { state := .read, acc := acc, nbits := nbits, latch := 0 } }

theorem test_witness_UnpackerReads :
    (runs (unpacking 0x00 0 0x004) .decompress ∧ (0x00 : BitBuf).toNat < 2 ^ (0 : BitCount).toNat + 0 ∧
      (unpacking 0x00 0 0x004).host.src = srcWord 0 0x04 :: []) ∧
    (runs (unpacking 0x0F 4 0x0FF) .decompress ∧ (0x0F : BitBuf).toNat < 2 ^ (4 : BitCount).toNat ∧
      (unpacking 0x0F 4 0x0FF).host.src = srcWord 0 0xFF :: []) ∧
    (runs (unpacking 0xFF 8 0x0FF) .decompress ∧ (0xFF : BitBuf).toNat < 2 ^ (8 : BitCount).toNat ∧
      (unpacking 0xFF 8 0x0FF).rd.state = .read) ∧
    (unpacking 0xFF 8 0x100).host.src = srcWord 1 0x00 :: [] := by decide
theorem test_witness_ReaderPuts :
    (runs { job .compress with rd := { State.reset.rd with state := .put } } .compress ∧ 0 < (job .compress).qa.free) ∧
    (runs { job .decompress with rd := { State.reset.rd with state := .eos }, qa := full } .decompress ∧
      full.free = 0) := by decide

theorem test_witness_CompressFetches :
    (runs (withElem .compress 0x0FF (eng .compress .cFetch)) .compress ∧ 0 < (one 0x0FF).filled ∧
      (withElem .compress 0x0FF (eng .compress .cFetch)).qa.slot .a 0 = itemElem 0x0FF) ∧
    elemTag ((withElem .compress 0x1FFF (eng .compress .cFetch)).qa.slot .a 0) = true ∧
    (job .compress).qa.filled = 0 := by decide
theorem test_witness_CompressMatches :
    (runs (withEng .compress (eng .compress .cMatch)) .compress ∧
      (withEng .compress (eng .compress .cMatch)).dictFind .root 0x00 = some 0x000) ∧
    (withEng .compress { eng .compress .cMatch with cur := .code 0x041 }).dictFind (.code 0x041) 0x00 = none := by decide

/-- C_EMIT at the last code and at the full dictionary. -/
def emitting (n : Counter) : State := withEng .compress { eng .compress .cEmit with cur := .code 0x041, nextCode := n }

theorem test_witness_CompressEmitsAndAdds :
    runs (emitting 4095) .compress ∧ (emitting 4095).eng.state = .cEmit ∧ (emitting 4095).eng.nextCode.toNat ≤ 4095 ∧
      (emitting 4095).eng.cur = .code 0x041 ∧ 0 < (emitting 4095).qb.free ∧
      { emitting 257 with qb := full }.qb.free = 0 := by decide
theorem test_witness_CompressFullAndReset :
    (runs (emitting 4096) .compress ∧ (emitting 4096).eng.nextCode = 4096 ∧ 0 < (emitting 4096).qb.free) ∧
    (runs (withEng .compress (eng .compress .cReset)) .compress ∧
      (withEng .compress (eng .compress .cReset)).eng.state = .cReset) := by decide
theorem test_witness_CompressEnds :
    (runs (withEng .compress { eng .compress .cFinal with cur := .code 0x041 }) .compress ∧
      (withEng .compress { eng .compress .cFinal with cur := .code 0x041 }).eng.cur = .code 0x041) ∧
    (withEng .compress (eng .compress .cEos)).eng.state = .cEos := by decide

theorem test_witness_DecompressEnds :
    (runs (withElem .decompress 0x1000 (eng .decompress .dFetch)) .decompress ∧ 0 < (one 0x1000).filled ∧
      elemTag ((withElem .decompress 0x1000 (eng .decompress .dFetch)).qa.slot .a 0) = true) ∧
    (withEng .decompress (eng .decompress .dEos)).eng.state = .dEos := by decide

/-- ENGINE in D_FETCH with a code in QA. -/
def decoding (c : Code) (fresh : Bool) (prev : Str) (n : Counter) : State :=
  withElem .decompress (itemElem c) { eng .decompress .dFetch with fresh := fresh, prev := prev, nextCode := n }

/-- A job in D_FETCH that holds `c`. -/
abbrev holds (s : State) (c : Code) : Prop :=
  runs s .decompress ∧ s.eng.state = .dFetch ∧ 0 < s.qa.filled ∧ s.qa.slot .a s.qa.head = itemElem c

theorem test_witness_CorruptCodesAbort_fresh : holds (decoding 256 true [] 257) 256 ∧ 256 ≤ (256 : Code).toNat := by decide
theorem test_witness_CorruptCodesAbort_range :
    holds (decoding 257 false [] 257) 257 ∧
    holds (decoding 258 false [0x41] 257) 258 ∧ (257 : Counter).toNat < (258 : Code).toNat := by decide
theorem test_witness_CorruptCodesAbort_overflow :
    holds (decoding 0 true [0x41] 4096) 0 ∧ holds (decoding 4095 false [0x41] 4096) 4095 := by decide
theorem test_witness_DecompressResets : holds (decoding 256 false [0x41] 4096) 256 := by decide
theorem test_witness_LiteralDecodes :
    holds (decoding 0xFF true [] 257) (zextCode 0xFF) ∧ holds (decoding 0x00 false [0x41] 4095) (zextCode 0x00) := by decide

/-- D_FETCH with T[c] = "AB". -/
def inTable (c : Code) (n : Counter) : State :=
  withElem .decompress (itemElem c) { eng .decompress .dFetch with
    prev := [0x42], nextCode := n, table := { gen := 0, cells := [(c.toNat, [0x41, 0x42])] } }

theorem test_witness_SequenceDecodes :
    (holds (inTable 257 258) 257 ∧ (inTable 257 258).tableAt 257 = 0x41 :: [0x42]) ∧
    (holds (inTable 4094 4095) 4094 ∧ (inTable 4094 4095).tableAt 4094 = 0x41 :: [0x42] ∧
      (inTable 4094 4095).eng.prev ≠ [] ∧ (inTable 4094 4095).eng.fresh = false) := by decide
theorem test_witness_KwkwkDecodes :
    holds (decoding 257 false [0x41] 257) 257 ∧ holds (decoding 4095 false [0x41] 4095) 4095 := by decide
theorem test_witness_DecompressEmits :
    (runs (withEng .decompress { eng .decompress .dEmit with obuf := [0x41] }) .decompress) ∧
    [(0x41 : Byte)][(0 : BitVec 12).toNat]? = some 0x41 := by decide

/-- WRITER's registers. -/
def wr (st : WrState) (acc : BitBuf) (nbits : BitCount) : Writer := { state := st, acc := acc, nbits := nbits, byte := 0x41 }

theorem test_witness_PackerTakes :
    (runs { job .compress with qb := one 0x0FFF, wr := wr .get 0xF 4 } .compress ∧
      { job .compress with qb := one 0x0FFF }.qb.slot .b 0 = itemElem 0xFFF ∧ (0xF : BitBuf).toNat < 16) ∧
    elemTag ({ job .compress with qb := one 0x1000 }.qb.slot .b 0) = true ∧ (job .compress).qb.filled = 0 := by decide
theorem test_witness_PackerWrites :
    (runs (withWr .compress (wr .emit 0xFFFF 16) [.ok]) .compress ∧ (0xFFFF : BitBuf).toNat < 2 ^ (16 : BitCount).toNat) ∧
    (runs (withWr .compress (wr .emit 0xFF 8) [.error]) .compress ∧ (0xFF : BitBuf).toNat < 2 ^ (8 : BitCount).toNat) ∧
    (runs (withWr .compress (wr .pad 0xF 4) [.ok]) .compress ∧ (withWr .compress (wr .pad 0xF 4) []).host.snk = []) := by
  decide
theorem test_witness_RawWriterSteps :
    (runs { job .decompress with qb := one 0x041 } .decompress ∧
      { job .decompress with qb := one 0x041 }.qb.slot .b 0 = itemElem 0x041) ∧
    (withWr .decompress (wr .emit 0 0) [.error]).host.snk = .error :: [] := by decide
theorem test_witness_SourceAnswerIsReaderStep :
    (runs (job .compress) .compress ∧ (job .compress).rd.state = .read) ∧
    (runs (job .decompress) .decompress ∧ (job .decompress).rd.state = .read) ∧
    State.reset.core.status ≠ .running := by decide
theorem test_witness_SinkAnswerIsWriterStep :
    (runs (withWr .compress (wr .emit 0xFF 8) []) .compress) ∧ (runs (withWr .compress (wr .pad 0xF 4) []) .compress) ∧
    (runs (withWr .decompress (wr .emit 0 0) []) .decompress) ∧ (job .compress).wr.state ≠ .emit := by decide

/-- The job with a schedule. -/
def scheduled (m : Mode) (ts : List Turn) : State := (withSrc m [0x041]).withTurns ts

/-- READER's turn decodes; ENGINE's turn, with QA empty, does not. -/
theorem test_witness_StepRunsDecoded :
    1 ≤ (scheduled .compress [.reader]).qcap ∧
    decode ((scheduled .compress []).opcode .reader) = .ok (.rdRawByte 0x41) ∧
    decode ((scheduled .compress []).opcode .engine) = .error .itemMissing ∧
    (scheduled .compress []).host.turns = [] := by decide

theorem test_witness_FaultForms :
    (runs (withEng .compress (eng .compress .cEmit)) .compress ∧ (eng .compress .cEmit).cur = .root) ∧
    (runs (withEng .compress { eng .compress .cEmit with nextCode := 4096 }) .compress) ∧
    (runs (withEng .compress (eng .compress .cFinal)) .compress) ∧
    ((withEng .decompress (eng .decompress .dEmit)).eng.obuf.length ≤ (eng .decompress .dEmit).oidx.toNat) ∧
    (holds { inTable 257 258 with eng := { (inTable 257 258).eng with table := { gen := 0, cells := [(257, [])] } } } 257) := by
  decide

theorem test_witness_OperationMap :
    ((scheduled .compress []).rd.state = .read ∧ (scheduled .compress []).host.src.head? = some 0x041 ∧
      srcKind 0x041 = 0) ∧
    (srcKind 0x1AA = 1 ∧ srcKind 0x200 = 2) ∧
    ((withElem .compress 0x041 (eng .compress .cFetch)).peek .a = some 0x041) ∧
    ((withElem .decompress 0x041 (eng .decompress .dFetch)).peek .a = some 0x041) ∧
    ({ job .compress with qb := one 0x041 }.peek .b = some 0x041) ∧
    ((withWr .compress (wr .pad 0xF 4) [.ok]).host.snk.head? = some .ok) ∧
    (State.reset.rd.state = .idle ∧ State.reset.eng.state = .idle ∧ State.reset.wr.state = .idle) := by decide

/-- One state for each of the eight lines of R62, at the values where they meet. -/
theorem test_witness_ClassesOfFetch :
    ((withElem .decompress 0x1000 (eng .decompress .dFetch)).dClass = some .eosIn) ∧
    ((decoding 256 true [] 257).dClass = some .errFresh) ∧ ((decoding 256 false [0x41] 4096).dClass = some .reset) ∧
    ((decoding 257 false [] 257).dClass = some .errRange) ∧ ((decoding 258 false [0x41] 257).dClass = some .errRange) ∧
    ((decoding 4095 false [0x41] 4096).dClass = some .errOverflow) ∧ ((decoding 255 true [] 257).dClass = some .lit) ∧
    ((decoding 257 false [0x41] 258).dClass = some .seq) ∧ ((decoding 4095 false [0x41] 4095).dClass = some .kwk) := by
  decide

theorem test_witness_EncodingRoundTrips :
    WellFormed (.dSeq 4094) = true ∧ (encode (.dSeq 4094)).isSome = true ∧ WellFormed (.dKwk 4095) = true ∧
    (encode (.dKwk 4095)).isSome = true ∧ WellFormed (.hostSrcAnswer 2 0xFF) = true := by decide

/-- A step that aborts, one that ends the job, one of RST and one of START change core.status. -/
theorem test_witness_StatusWriters :
    nextIs (step ((withSrc .compress [0x200]).withTurns [.reader])) (fun t => t.core.status == .aborted) = true ∧
    nextIs (step ({ job .decompress with
      qb := one 0x1000, rd := { State.reset.rd with state := .done }, eng := eng .decompress .done }.withTurns [.writer]))
      (fun t => t.core.status == .done) = true ∧
    nextIs (step ((job .compress).withTurns [.rst])) (fun t => t.core.status == .idle) = true ∧
    nextIs (step (State.reset.withTurns [.start .compress])) (fun t => t.core.status == .running) = true ∧
    nextIs (step (State.reset.withTurns [.reader])) (fun t => t == State.reset) = true := by decide
theorem test_witness_ModeIsStable :
    nextIs (step ((job .decompress).withTurns [.start .compress])) (fun t => t.core.mode == .decompress) = true ∧
    nextIs (step (State.reset.withTurns [.start .decompress])) (fun t => t.core.mode == .decompress) = true := by decide

/-- A job that has ended ABORTED. -/
def abortedJob : State := { job .decompress with core := (job .decompress).core.aborted .corrupt .range 0xFFF }

theorem test_witness_ErrorRegistersHold :
    nextIs (step (abortedJob.withTurns [.engine])) (fun t => t.core.errInfo == 0xFFF) = true ∧
    nextIs (step ((decoding 0xFFF false [0x41] 257).withTurns [.engine])) (fun t =>
      t.core.status == .aborted && t.core.errReason == .range) = true ∧
    nextIs (step (abortedJob.withTurns [.start .compress])) (fun t => t.core.errCode == .none) = true := by decide
theorem test_witness_StagesWriteTheirOwn :
    nextIs (step ({ job .compress with rd := { State.reset.rd with state := .put } }.withTurns [.reader]))
      (fun t => t.qa.filled == 1) = true ∧
    nextIs (step ((withElem .compress 0x041 (eng .compress .cFetch)).withTurns [.engine])) (fun t => t.qa.filled == 0) = true ∧
    nextIs (step ({ job .compress with qb := one 0x041 }.withTurns [.writer])) (fun t => t.qb.filled == 0) = true := by
  decide

/-- Two states that agree on READER's own part and differ in ENGINE's and WRITER's. -/
theorem test_witness_StagesReadTheirOwn :
    let s := (withSrc .compress [0x041]).withTurns [.reader]
    let s' := { s with eng := { s.eng with sym := 0x77 }, wr := { s.wr with byte := 0x77 }, qb := full }
    nextIs (step s) (fun t => t.rd.latch == 0x041) = true ∧ nextIs (step s') (fun t => t.rd.latch == 0x041) = true ∧
    s'.rd = s.rd ∧ s'.qa = s.qa ∧ s'.host = s.host ∧ s'.qcap = s.qcap ∧ s'.core = s.core := by decide
theorem test_witness_AbortIsPrecise :
    nextIs (step ((decoding 0xFFF false [0x41] 257).withTurns [.engine])) (fun t =>
      t.core.status == .aborted && t.qa == one 0xFFF) = true := by decide
theorem test_witness_DoneIsDetected :
    nextIs (step ({ job .decompress with
      qb := one 0x1000, rd := { State.reset.rd with state := .done }, eng := eng .decompress .done }.withTurns [.writer]))
      (fun t => t.core.status == .done && allDone t) = true := by decide

theorem test_witness_StreamBitOrder :
    [(0xABC : Code), 0xDEF][1]? = some 0xDEF ∧ packBytes [0xABC, 0xDEF] = [0xAB, 0xCD, 0xEF] := by decide

/-- The queue just emptied, of capacity 2. -/
theorem emptyQueue_inv : QueueInv 2 { Queue.reset with free := 2 } :=
  ⟨rfl, by decide, by decide, fun _ h => absurd h (Nat.not_lt_zero _)⟩

/-- The job just begun meets the invariant, with any host side. -/
theorem job_inv (m : Mode) (h : HostSide) : Inv { job m with host := h } := by
  refine ⟨Nat.le_of_ble_eq_true rfl, ⟨List.Pairwise.nil, List.Pairwise.nil, List.Pairwise.nil, List.Pairwise.nil⟩, .inr ?_⟩
  refine ⟨by simp [job], emptyQueue_inv, emptyQueue_inv, ?_, ?_, ?_, ?_, ?_, ?_, ?_, ?_, ?_⟩
  · constructor <;> simp [job, State.reset]
  · refine ⟨by simp [job, State.reset], by simp [job, State.reset], fun hm => ?_, fun hm => ?_⟩ <;>
      obtain rfl : m = _ := hm
    · constructor
      · simp [job, State.reset, compressState]
      · intro k h1 h2; simp [job, State.reset] at h2; omega
      · intro k h1 h2; simp [job, State.reset] at h2; omega
      · intro j k h1 h2; simp [job, State.reset] at h2; omega
      all_goals simp [job, State.reset]
    · constructor
      · simp [job, State.reset, decompressState]
      · intro k h1 h2; simp [job, State.reset] at h2; omega
      · intro k h1 h2; simp [job, State.reset] at h2; omega
      all_goals simp [job, State.reset]
  · constructor <;> simp [job, State.reset]
  · have : State.contents { job m with host := h } .a = [] := rfl
    rw [this]
    cases m <;> constructor <;> simp [job, State.reset, engineGotEos]
  · have : State.contents { job m with host := h } .b = [] := rfl
    rw [this]
    cases m <;> constructor <;> simp [job, State.reset, writerGotEos]
  · simp [job, State.reset]
  · simp [job, State.reset]
  · simp [job]
  · simp [job, State.reset]

/-- A host side with turns, source responses and sink answers. -/
def hostOf (ts : List Turn) (src : List SrcWord) (snk : List SinkAnswer) : HostSide :=
  { src := src, snk := snk, out := [], turns := ts }

theorem test_witness_EveryStepKeepsInv :
    Inv { job .compress with host := hostOf [.reader] [0x041] [] } ∧
    nextIs (step { job .compress with host := hostOf [.reader] [0x041] [] }) (fun t => t.rd.state == .put) = true :=
  ⟨job_inv _ _, by decide⟩
theorem test_witness_InvNeverStops : Inv (job .decompress) := job_inv .decompress State.reset.host
theorem test_witness_NoDeadlock :
    Inv { job .compress with host := hostOf [] [0x041] [] } ∧
    (job .compress).core.status = .running ∧ (job .compress).rd.state = .read ∧ srcKind 0x041 ≠ 3 ∧
    (job .compress).wr.state ≠ .emit ∧ (job .compress).wr.state ≠ .pad :=
  ⟨job_inv _ _, by decide⟩
theorem test_witness_StepsAreBounded :
    Inv { job .compress with host := hostOf [.reader] [0x041] [] } ∧
    nextIs (step { job .compress with host := hostOf [.reader] [0x041] [] }) (fun t => t.rd.latch == 0x041) = true :=
  ⟨job_inv _ _, by decide⟩

/-- The rounds of a job with an empty source: one more than its bound. -/
def manyRounds : List (List Turn) := List.replicate 20003 [.reader, .engine, .writer]

theorem test_witness_FairJobsEnd :
    let s := { job .compress with host := hostOf manyRounds.flatten [0x100] (List.replicate 20002 .ok) }
    Inv s ∧ s.core.status = .running ∧ (∀ r ∈ manyRounds, fullRound r) ∧ jobWork s < manyRounds.length ∧
    s.host.turns = manyRounds.flatten ++ [] ∧
    (∃ bs w later, s.host.src = byteResponses bs ++ w :: later ∧ (srcKind w = 1 ∨ srcKind w = 2)) ∧
    jobWork s ≤ s.host.snk.length := by
  have hw : jobWork { job .compress with
      host := hostOf manyRounds.flatten [0x100] (List.replicate 20002 .ok) } = 20002 := rfl
  refine ⟨job_inv _ _, rfl, fun r hr => ?_, ?_, (List.append_nil _).symm, ⟨[], 0x100, [], rfl, .inl rfl⟩, ?_⟩
  · rw [List.eq_of_mem_replicate hr]
    exact ⟨by decide, by decide, by decide, by decide⟩
  · rw [hw, manyRounds, List.length_replicate]; decide
  · rw [hw]; simp only [hostOf, List.length_replicate]; exact Nat.le_refl _

/-- An empty COMPRESS job, P6's steps: END, EOS, FETCH_EOS, EOS, PACK.EOS. -/
def emptyJob (m : Mode) (src : List SrcWord) (snk : List SinkAnswer) : State :=
  { State.reset with host := hostOf [.start m, .reader, .reader, .engine, .engine, .writer] src snk }

theorem test_witness_CompressJobOutput :
    1 ≤ (emptyJob .compress [0x100] []).qcap ∧ (emptyJob .compress [0x100] []).core.status ≠ .running ∧
    (emptyJob .compress [0x100] []).host.turns = .start .compress :: [.reader, .reader, .engine, .engine, .writer] ∧
    (emptyJob .compress [0x100] []).host.src = byteResponses [] ++ 0x100 :: [] ∧ srcKind 0x100 = 1 ∧
    nextIs (runSteps (5 + 1) (emptyJob .compress [0x100] [])) (fun t => t.core.status == .done) = true := by decide
theorem test_witness_CompressJobOutput_error :
    srcKind 0x200 = 2 ∧
    nextIs (runSteps (1 + 1) (emptyJob .compress [0x200] [])) (fun t => t.core.status == .aborted) = true := by decide
theorem test_witness_DecompressJobOutput :
    (emptyJob .decompress [0x100] []).host.src = byteResponses [] ++ 0x100 :: [] ∧ srcKind 0x100 = 1 ∧
    nextIs (runSteps (5 + 1) (emptyJob .decompress [0x100] [])) (fun t => t.core.status == .done) = true := by decide
/-- The code 101 first: RANGE (2.7). -/
theorem test_witness_DecompressJobOutput_corrupt :
    nextIs (runSteps (4 + 1) { State.reset with
      host := hostOf [.start .decompress, .reader, .reader, .reader, .engine] [0x010, 0x010, 0x100] [] }) (fun t =>
        t.core.errCode == .corrupt && t.core.errReason == .range && t.core.errInfo == 0x101) = true := by decide
/-- The source ends with ERROR: IO_SOURCE. -/
theorem test_witness_DecompressJobOutput_source :
    srcKind 0x200 = 2 ∧
    nextIs (runSteps (1 + 1) (emptyJob .decompress [0x200] [])) (fun t =>
      t.core.status == .aborted && t.core.errCode == .ioSource) = true := by decide
/-- The code 041 decodes to one byte, which the sink refuses: IO_SINK, no output. -/
theorem test_witness_DecompressJobOutput_sink :
    (lzwDecode (unpackCodes [0x04, 0x10])).bytes = [0x41] ∧
    nextIs (runSteps (7 + 1) { State.reset with
      host := hostOf [.start .decompress, .reader, .reader, .reader, .engine, .engine, .writer, .writer]
        [0x004, 0x010, 0x100] [.error] }) (fun t =>
        t.core.status == .aborted && t.core.errCode == .ioSink && t.host.out == []) = true := by decide
/-- Both jobs of the empty input: the sink output is empty. -/
theorem test_witness_JobRoundTrip :
    nextIs (runSteps (5 + 1) (emptyJob .compress [0x100] [])) (fun t =>
      t.core.status == .done && t.host.out == (emptyJob .compress [0x100] []).host.out ++ []) = true ∧
    nextIs (runSteps (5 + 1) (emptyJob .decompress [0x100] [])) (fun t =>
      t.core.status == .done && t.core.errCode != .ioSink) = true := by decide

end Sys2Proof.Tests
end

section
/-! SUPPORT. The scope's statements (00_scope.md): whose turn a step runs, and the states in which an operation meets an
operand the spec does not define. -/

namespace Sys2Proof.Machine

/-! ## The turn a step takes -/

theorem nextTurn_cons {s : State} {u : Turn} {rest : List Turn} (h : s.host.turns = u :: rest) :
    s.nextTurn = (u, { s with host := { s.host with turns := rest } }) := by
  simp [State.nextTurn, h, State.setHost]

theorem nextTurn_nil {s : State} (h : s.host.turns = []) :
    s.nextTurn = (Config.freeTurn s.draws, { s with draws := s.draws + 1 }) := by
  simp [State.nextTurn, h]

/-- Where the next turn is `u`, leaving `t`, a step is the operation `u`'s tuple decodes to, run on `t`, or `t` itself. -/
theorem step_of_nextTurn {s t : State} {u : Turn} (hcap : 1 ≤ s.qcap) (h : s.nextTurn = (u, t)) :
    (∀ i, decode (t.opcode u) = .ok i → step s = exec i t) ∧
    (∀ e, decode (t.opcode u) = .error e → step s = .next t) := by
  have hcap0 : s.qcap ≠ 0 := by omega
  exact ⟨fun i hi => by simp [step, hcap0, h, hi], fun e he => by simp [step, hcap0, h, he]⟩

/-! ## What an enabled get finds -/

theorem peek_of_canGet {s : State} {id : QueueId} (h : canGet s id) : s.peek id = some (s.front id) := if_pos h

/-- The class of the element at QA's front, where there is one (R62). -/
theorem dClass_of_canGet {s : State} (h : canGet s .a) :
    s.dClass = some (classify (s.front .a) s.eng.fresh s.eng.prev.isEmpty s.eng.nextCode) := by
  simp [State.dClass, peek_of_canGet h]

/-- R62's line of D.SEQ: every line before it fails. -/
theorem classify_itemElem_seq {c : Code} {n : Counter} (hlow : 257 ≤ c.toNat) (hlt : c.toNat < n.toNat)
    (hn : n.toNat ≤ 4095) : classify (itemElem c) false false n = .seq := by
  simp only [classify, elemTag_itemElem, elemPayload_itemElem]
  rw [if_neg (by decide), if_neg (by simp), if_neg (by omega), if_neg (by simp; omega), if_neg (by omega),
    if_neg (by omega), if_pos hlt]

/-! ## The faults (log 12): the operand of an enabled step is not defined -/

theorem execCEmitAdd_fault {s : State} (hat : engineAt s .compress .cEmit) (hn : s.eng.nextCode.toNat ≤ 4095)
    (hput : canPut s .b) (hcur : s.eng.cur = .root) : execCEmitAdd s = .fault .rootHasNoCode := by
  rw [execCEmitAdd, if_pos ⟨hat, hn, hput⟩, hcur]

theorem execCEmitFull_fault {s : State} (hat : engineAt s .compress .cEmit) (hn : s.eng.nextCode.toNat = 4096)
    (hput : canPut s .b) (hcur : s.eng.cur = .root) : execCEmitFull s = .fault .rootHasNoCode := by
  rw [execCEmitFull, if_pos ⟨hat, hn, hput⟩, hcur]

theorem execCFinal_fault {s : State} (hat : engineAt s .compress .cFinal) (hput : canPut s .b)
    (hcur : s.eng.cur = .root) : execCFinal s = .fault .rootHasNoCode := by
  rw [execCFinal, if_pos ⟨hat, hput⟩, hcur]

theorem execDEmit_fault {s : State} (hat : engineAt s .decompress .dEmit) (hput : canPut s .b)
    (hend : s.eng.obuf.length ≤ s.eng.oidx.toNat) : execDEmit s = .fault .stringIndex := by
  rw [execDEmit, if_pos ⟨hat, hput⟩, List.getElem?_eq_none hend]

theorem execDSeq_fault {s : State} {c : Code} (hclass : fetchesClass s .seq) (hitem : s.holdsItem .a c)
    (hn : s.eng.nextCode.toNat ≤ 4095) (hempty : s.tableAt c.toNat = []) : execDSeq c s = .fault .stringIndex := by
  rw [execDSeq, if_pos ⟨hclass, hitem, hn⟩, hempty]

end Sys2Proof.Machine

namespace Sys2Proof.Proofs

open Sys2Proof Sys2Proof.Machine

/-- Settles O36: both kinds of schedule name the next turn, and a step runs what that turn's tuple decodes to. -/
theorem stepRunsDecoded : Obligations.StepRunsDecoded := by
  intro s hcap
  exact ⟨fun u rest h => step_of_nextTurn hcap (nextTurn_cons h),
    fun h => ⟨Config.freeTurn s.draws, step_of_nextTurn hcap (nextTurn_nil h)⟩⟩

/-- Settles O38: in each of the five states the step is enabled and its operand is not defined. -/
theorem faultForms : Obligations.FaultForms := by
  intro s hrun
  refine ⟨fun hmode hcur hput => ⟨fun hst hn => ?_, fun hst hn => ?_, fun hst => ?_⟩,
    fun hmode => ⟨fun hst hput hend => ?_, fun c hst hget hfront hlow hlt hn hprev hfresh hempty => ?_⟩⟩
  · exact execCEmitAdd_fault ⟨hrun, hmode, hst⟩ hn hput hcur
  · exact execCEmitFull_fault ⟨hrun, hmode, hst⟩ (by rw [hn]; rfl) hput hcur
  · exact execCFinal_fault ⟨hrun, hmode, hst⟩ hput hcur
  · exact execDEmit_fault ⟨hrun, hmode, hst⟩ hput hend
  · have hget : canGet s .a := hget
    have hfront : s.front .a = itemElem c := hfront
    have hclass : s.dClass = some .seq := by
      rw [dClass_of_canGet hget, hfront, hfresh, List.isEmpty_eq_false_iff.mpr hprev,
        classify_itemElem_seq hlow hlt hn]
    have hitem : s.holdsItem .a c := by rw [State.holdsItem, peek_of_canGet hget, hfront]
    exact execDSeq_fault ⟨⟨hrun, hmode, hst⟩, hclass⟩ hitem hn hempty

end Sys2Proof.Proofs
end

section
/-! SUPPORT. The operations each turn of the schedule can run (R61): a turn whose tuple decodes runs one of them. -/

namespace Sys2Proof.Machine

/-! ## The operations of each stage -/

/-- READER's operations. -/
inductive ReaderOp : Instr → Prop where
  | rawByte (b : Byte) : ReaderOp (.rdRawByte b)
  | rawEnd : ReaderOp .rdRawEnd
  | srcError (m : Mode) : ReaderOp (.rdSrcError m)
  | unpackByte (b : Byte) : ReaderOp (.unpackByte b)
  | unpackEnd : ReaderOp .unpackEnd
  | put (m : Mode) : ReaderOp (.rdPut m)
  | eos (m : Mode) : ReaderOp (.rdEos m)

/-- ENGINE's operations in COMPRESS mode. -/
inductive CompressOp : Instr → Prop where
  | fetchSym (v : Code) : CompressOp (.cFetchSym v)
  | fetchEos : CompressOp .cFetchEos
  | matchHit : CompressOp .cMatchHit
  | matchMiss : CompressOp .cMatchMiss
  | emitAdd : CompressOp .cEmitAdd
  | emitFull : CompressOp .cEmitFull
  | reset : CompressOp .cReset
  | final : CompressOp .cFinal
  | eos : CompressOp .cEos

/-- ENGINE's operations in DECOMPRESS mode. -/
inductive DecompressOp : Instr → Prop where
  | eosIn : DecompressOp .dEosIn
  | errFresh (c : Code) : DecompressOp (.dErrFresh c)
  | reset : DecompressOp .dReset
  | errRange (c : Code) : DecompressOp (.dErrRange c)
  | errOverflow (c : Code) : DecompressOp (.dErrOverflow c)
  | lit (b : Byte) : DecompressOp (.dLit b)
  | seq (c : Code) : DecompressOp (.dSeq c)
  | kwk (c : Code) : DecompressOp (.dKwk c)
  | emit : DecompressOp .dEmit
  | eosOut : DecompressOp .dEosOut

/-- WRITER's operations. -/
inductive WriterOp : Instr → Prop where
  | packCode (c : Code) : WriterOp (.packCode c)
  | packEos : WriterOp .packEos
  | packEmit (r : SinkAnswer) : WriterOp (.packEmit r)
  | packFlush (r : SinkAnswer) : WriterOp (.packFlush r)
  | rawByte (v : Code) : WriterOp (.wrRawByte v)
  | rawEos : WriterOp .wrRawEos
  | rawEmit (r : SinkAnswer) : WriterOp (.wrRawEmit r)

/-- The operations of the three stages. -/
inductive StageOp (i : Instr) : Prop where
  | reader (h : ReaderOp i)
  | compress (h : CompressOp i)
  | decompress (h : DecompressOp i)
  | writer (h : WriterOp i)

/-- The operations a turn can run: a stage's turn one of a stage's, a turn of the HOST its own. -/
inductive TurnOp : Turn → Instr → Prop where
  | stage {u : Turn} {i : Instr} (hu : stageTurn u) (h : StageOp i) : TurnOp u i
  | start (m : Mode) : TurnOp (.start m) (.start m)
  | rst : TurnOp .rst .rst
  | srcAnswer (w : SrcWord) (k : BitVec 2) (d : Byte) : TurnOp (.srcAnswer w) (.hostSrcAnswer k d)
  | snkAnswer (r q : SinkAnswer) : TurnOp (.snkAnswer r) (.hostSnkAnswer q)

/-! ## What the decoder answers -/

theorem decodeSource_readerOp {m : Mode} {w : SrcWord} {i : Instr} (h : decodeSource m w = .ok i) : ReaderOp i := by
  unfold decodeSource at h
  split at h
  · cases m <;> cases h <;> constructor
  · cases m <;> cases h <;> constructor
  · cases h; constructor
  · cases h

theorem decodeReader_readerOp {m : Mode} {st : RdState} {resp : Option SrcWord} {i : Instr}
    (h : decodeReader m st resp = .ok i) : ReaderOp i := by
  cases st with
  | read => cases resp with
    | none => cases h
    | some w => exact decodeSource_readerOp h
  | put => cases h; constructor
  | eos => cases h; constructor
  | idle => cases h
  | done => cases h

theorem decodeCompress_compressOp {st : EngState} {elem : Option Elem13} {g : Guard} {i : Instr}
    (h : decodeCompress st elem g = .ok i) : CompressOp i := by
  unfold decodeCompress at h
  split at h
  case h_2 => cases elem with
    | none => cases h
    | some e => cases h; split <;> constructor
  case h_3 => cases h; split <;> constructor
  case h_4 => cases h; split <;> constructor
  all_goals cases h
  all_goals constructor

theorem decodeClass_decompressOp (e : Elem13) (g : Guard) : DecompressOp (decodeClass e g) := by
  unfold decodeClass; split <;> constructor

theorem decodeDecompress_decompressOp {st : EngState} {elem : Option Elem13} {g : Guard} {i : Instr}
    (h : decodeDecompress st elem g = .ok i) : DecompressOp i := by
  unfold decodeDecompress at h
  split at h
  case h_8 => cases elem with
    | none => cases h
    | some e => cases h; exact decodeClass_decompressOp e g
  all_goals cases h
  all_goals constructor

theorem decodeWriter_writerOp {m : Mode} {st : WrState} {elem : Option Elem13} {answer : Option SnkWord} {i : Instr}
    (h : decodeWriter m st elem answer = .ok i) : WriterOp i := by
  cases st with
  | get => cases elem with
    | none => cases h
    | some e => cases m <;> cases h <;> dsimp only <;> split <;> constructor
  | emit => cases answer with
    | none => cases h
    | some b => cases m <;> cases h <;> constructor
  | pad => cases m with
    | compress => cases answer with
      | none => cases h
      | some b => cases h; constructor
    | decompress => cases h
  | idle => cases h
  | done => cases h

/-- The operation a turn's tuple decodes to is one of that turn's. -/
theorem decode_opcode_turnOp {s : State} {u : Turn} {i : Instr} (h : decode (s.opcode u) = .ok i) : TurnOp u i := by
  cases u with
  | reader =>
    rw [decode_opcode_reader] at h
    exact .stage (.inl rfl) (.reader (decodeReader_readerOp h))
  | engine =>
    rw [decode_opcode_engine] at h
    split at h
    · exact .stage (.inr (.inl rfl)) (.compress (decodeCompress_compressOp h))
    · exact .stage (.inr (.inl rfl)) (.decompress (decodeDecompress_decompressOp h))
  | writer =>
    rw [decode_opcode_writer] at h
    exact .stage (.inr (.inr rfl)) (.writer (decodeWriter_writerOp h))
  | start m => cases h; rw [modeOfBit_modeBit]; exact .start m
  | rst => cases h; exact .rst
  | srcAnswer w =>
    simp only [State.opcode, decode] at h
    split at h
    · cases h
    · cases h; exact .srcAnswer w _ _
  | snkAnswer r => cases h; exact .snkAnswer r _

end Sys2Proof.Machine
end

section
/-! SUPPORT. How a stage's effective step ends, and READER's steps: each keeps the invariant of a running job. -/

namespace Sys2Proof.Machine

/-! ## How an effective step ends (R128, R149) -/

/-- A stage's effective step from `s` ends with DONE detection, in a state that keeps the invariant of the running job,
or with an abort, which leaves everything but the core registers and the host's side as it was. -/
inductive StageEnd (s : State) : State → Prop where
  | finished {u : State} (hcore : u.core = s.core) (hinv : RunInv s → RunInv u) : StageEnd s (detectDone u)
  | aborted (h : HostSide) {code : ErrCode} {reason : ErrReason} {info : Code} (hcode : code ≠ .none)
      (hreason : code ≠ .corrupt → reason = .none ∧ info = 0) :
      StageEnd s ((s.setHost h).abort code reason info)

/-- A stage's operation is blocked, or it runs in a running job and ends as R128 or R149 says. -/
abbrev StageEffect (s t : State) : Prop := t = s ∨ (s.core.status = .running ∧ StageEnd s t)

/-! ## READER's updates -/

section
variable {s : State}

theorem RunInv.not_engineGotEos (h : RunInv s) (hrd : s.rd.state ≠ .done) : ¬ engineGotEos s :=
  fun hg => hrd (h.qaEos.finished hg).1

/-- READER reads its source and does not put EOS. -/
theorem RunInv.readerReads (h : RunInv s) {r : Reader} (hr : ReaderInv (s.setRd r)) (hold : s.rd.state ≠ .done)
    (hnew : r.state ≠ .done) : RunInv (s.sourceRead.setRd r) :=
  h.readerStep rfl rfl rfl rfl rfl (hr.congr rfl rfl) h.qa h.memory.1
    (h.qaEos.same (iff_of_false hnew hold) Iff.rfl)

/-- READER puts an element on QA. -/
theorem RunInv.readerPuts (h : RunInv s) (hput : canPut s .a) {e : Elem13} {r : Reader} (hr : ReaderInv (s.setRd r))
    (he : EosInv (s.contents .a ++ [e]) (s.core.mode = .compress) (r.state = .done) (engineGotEos s)) :
    RunInv ((s.qPut .a e).setRd r) :=
  h.readerStep rfl rfl rfl rfl rfl (hr.congr rfl rfl) (queueInv_qPut (id := .a) h.qa hput e)
    (cellsWf_write h.memory.1 _ _) (by rw [contents_setRd, contents_qPut h.qa hput]; exact he)

/-! ## READER's bit buffer (R91) -/

/-- A byte pushed on a buffer of at most 8 bits. -/
theorem pushByte_lt {acc : BitBuf} {n : Nat} (h : acc.toNat < 2 ^ n) (hn : n ≤ 8) (b : Byte) :
    (pushByte acc b).toNat < 2 ^ (n + 8) := by
  have h8 : acc.toNat < 2 ^ 8 := h.trans_le (Nat.pow_le_pow_right (by decide) hn)
  have hb := b.isLt
  rw [pushByte_toNat h8, Nat.pow_add]
  omega

theorem keepLow_lt (acc : BitBuf) {nbits : BitCount} (h : nbits.toNat ≤ 16) :
    (keepLow acc nbits).toNat < 2 ^ nbits.toNat := by
  rw [keepLow_toNat acc h]
  exact Nat.mod_lt _ (Nat.two_pow_pos _)

/-- READER's registers after UNPACK.BYTE. -/
def Reader.unpacked (r : Reader) (b : Byte) : Reader :=
  if 12 ≤ (r.nbits + 8).toNat then
    { latch := unpackedCode (pushByte r.acc b) (r.nbits + 8), nbits := r.nbits + 8 - 12,
      acc := keepLow (pushByte r.acc b) (r.nbits + 8 - 12), state := .put }
  else { r with acc := pushByte r.acc b, nbits := r.nbits + 8, state := .read }

/-- In DECOMPRESS mode READER's invariant is that of its bit buffer (R29). -/
theorem readerInv_decompress {r : Reader} (hmode : s.core.mode = .decompress)
    (hbits : r.acc.toNat < 2 ^ r.nbits.toNat)
    (hstate : (r.state = .read ∧ (r.nbits = 0 ∨ r.nbits = 4 ∨ r.nbits = 8)) ∨
      (r.state = .put ∧ (r.nbits = 0 ∨ r.nbits = 4)) ∨ ((r.state = .eos ∨ r.state = .done) ∧ r.nbits = 0)) :
    ReaderInv (s.setRd r) := by
  constructor <;> simp only [State.setRd_rd, State.setRd_core, hmode] <;> grind

/-- In COMPRESS mode READER's bit buffer stays empty (R129). -/
theorem readerInv_compress (h : ReaderInv s) (hmode : s.core.mode = .compress) {st : RdState} {latch : Code}
    (hidle : st ≠ .idle) (hlatch : st = .put → latch.toNat ≤ 255) :
    ReaderInv (s.setRd { s.rd with state := st, latch := latch }) := by
  obtain ⟨hacc, hnbits⟩ := h.raw hmode
  constructor <;> simp [hacc, hnbits, hmode, hidle]; assumption

theorem readerInv_unpackByte (h : ReaderInv s) (hat : readerAt s .decompress .read) (b : Byte) :
    ReaderInv (s.setRd (s.rd.unpacked b)) := by
  obtain ⟨-, hmode, hst⟩ := hat
  have hbits := h.bits
  rcases h.read hst with hn | hn | hn
  · have hpush := pushByte_lt hbits (by rw [hn]; decide) b
    refine readerInv_decompress hmode ?_ (.inl ?_) <;> simp [Reader.unpacked, hn]
    rw [hn] at hpush
    simpa using hpush
  · refine readerInv_decompress hmode ?_ (.inr (.inl ?_)) <;> simp [Reader.unpacked, hn]
    simpa using keepLow_lt (nbits := 0) (pushByte s.rd.acc b) (by decide)
  · refine readerInv_decompress hmode ?_ (.inr (.inl ?_)) <;> simp [Reader.unpacked, hn]
    exact keepLow_lt (nbits := 4) _ (by decide)

/-- After a put on QA READER's bit buffer is as it was: the item's bits have left it (R29, R132, R133). -/
theorem readerInv_afterPut (h : ReaderInv s) {st st' : RdState} (hst : s.rd.state = st)
    (hnext : (st = .put ∧ st' = .read) ∨ (st = .eos ∧ st' = .done)) :
    ReaderInv (s.setRd { s.rd with state := st' }) := by
  have hbits := h.bits
  have hput := h.put
  have hended := h.ended
  cases hmode : s.core.mode with
  | compress => exact readerInv_compress (latch := s.rd.latch) h hmode (by grind) (by grind)
  | decompress => exact readerInv_decompress hmode hbits (by grind)

/-! ## READER's steps -/

/-- A step of READER that reads its source and stays short of its DONE state. -/
theorem StageEnd.readerReads {r : Reader} (hread : s.rd.state = .read) (hnew : r.state ≠ .done)
    (hr : ReaderInv s → ReaderInv (s.setRd r)) : StageEnd s (detectDone (s.sourceRead.setRd r)) :=
  .finished rfl fun h => h.readerReads (hr h.reader) (by simp [hread]) hnew

theorem rdPut_end {m : Mode} (hat : readerAt s m .put) (hput : canPut s .a) :
    StageEnd s (detectDone ((s.qPut .a (itemElem s.rd.latch)).setRd { s.rd with state := .read })) := by
  obtain ⟨-, -, hst⟩ := hat
  have hrd : s.rd.state ≠ .done := by simp [hst]
  refine .finished rfl fun h => h.readerPuts hput (readerInv_afterPut h.reader hst (.inl ⟨rfl, rfl⟩)) ?_
  refine EosInv.same (h.qaEos.putItem hrd (h.not_engineGotEos hrd) ?_) (iff_of_false nofun hrd) Iff.rfl
  exact fun hmode => h.reader.byteLatch hmode hst

theorem rdEos_end {m : Mode} (hat : readerAt s m .eos) (hput : canPut s .a) :
    StageEnd s (detectDone ((s.qPut .a eosElem).setRd { s.rd with state := .done })) := by
  obtain ⟨-, -, hst⟩ := hat
  have hrd : s.rd.state ≠ .done := by simp [hst]
  refine .finished rfl fun h => h.readerPuts hput (readerInv_afterPut h.reader hst (.inr ⟨rfl, rfl⟩)) ?_
  exact h.qaEos.putEos hrd rfl (h.not_engineGotEos hrd)

/-- Every operation of READER ends as R128 or R149 says. -/
theorem readerOp_effect {i : Instr} {t : State} (hop : ReaderOp i) (h : exec i s = .next t) : StageEffect s t := by
  cases hop with
  | rawByte b =>
    refine (execRdRawByte_next h).imp_right fun ⟨⟨⟨hrun, hmode, hst⟩, _⟩, ht⟩ => ⟨hrun, ht ▸ ?_⟩
    refine .readerReads hst nofun fun hr => readerInv_compress hr hmode nofun fun _ => ?_
    have := b.isLt
    rw [zextCode_toNat]; omega
  | rawEnd =>
    refine (execRdRawEnd_next h).imp_right fun ⟨⟨⟨hrun, hmode, hst⟩, _⟩, ht⟩ => ⟨hrun, ht ▸ ?_⟩
    exact .readerReads hst nofun fun hr => readerInv_compress (latch := s.rd.latch) hr hmode nofun nofun
  | srcError m =>
    exact (execRdSrcError_next h).imp_right fun ⟨⟨⟨hrun, _, _⟩, _⟩, ht⟩ =>
      ⟨hrun, ht ▸ .aborted { s.host with src := s.host.src.tail } nofun fun _ => ⟨rfl, rfl⟩⟩
  | unpackByte b =>
    refine (execUnpackByte_next h).imp_right fun ⟨⟨hat, _⟩, ht⟩ => ⟨hat.1, ht ▸ ?_⟩
    refine .readerReads (r := s.rd.unpacked b) hat.2.2 ?_ fun hr => readerInv_unpackByte hr hat b
    unfold Reader.unpacked; split <;> nofun
  | unpackEnd =>
    refine (execUnpackEnd_next h).imp_right fun ⟨⟨⟨hrun, hmode, hst⟩, _⟩, ht⟩ => ⟨hrun, ht ▸ ?_⟩
    refine .readerReads hst nofun fun _ => readerInv_decompress hmode ?_ (.inr (.inr ⟨.inl rfl, rfl⟩))
    simp
  | put m =>
    exact (execRdPut_next h).imp_right fun ⟨⟨hat, hput⟩, ht⟩ => ⟨hat.1, ht ▸ rdPut_end hat hput⟩
  | eos m =>
    exact (execRdEos_next h).imp_right fun ⟨⟨hat, hput⟩, ht⟩ => ⟨hat.1, ht ▸ rdEos_end hat hput⟩
end

end Sys2Proof.Machine
end

section
/-! SUPPORT. WRITER's steps: each keeps the invariant of a running job. -/

namespace Sys2Proof.Machine

variable {s : State}

/-! ## WRITER's updates -/

theorem RunInv.not_writerGotEos (h : RunInv s) (heng : s.eng.state ≠ .done) : ¬ writerGotEos s :=
  fun hg => heng (h.qbEos.finished hg).1

/-- WRITER gets the element at the front of QB. -/
theorem RunInv.writerGets (h : RunInv s) (hget : canGet s .b) {w : Writer} (hw : WriterInv (s.setWr w))
    (he : EosInv ((s.qGet .b).contents .b) (s.core.mode = .decompress) (s.eng.state = .done)
      (writerGotEos (s.setWr w))) : RunInv ((s.qGet .b).setWr w) :=
  h.writerStep rfl rfl rfl rfl rfl (hw.congr rfl rfl) (queueInv_qGet (id := .b) h.qb hget) h.memory.2.1 he

/-- WRITER's byte is accepted, and WRITER has got EOS after it where it had before. -/
theorem RunInv.writerWrites (h : RunInv s) {b : Byte} {w : Writer} (hw : WriterInv (s.setWr w))
    (hgot : writerGotEos (s.setWr w) ↔ writerGotEos s) : RunInv ((s.sinkWrite b .ok).setWr w) :=
  h.writerStep rfl rfl rfl rfl rfl (hw.congr rfl rfl) h.qb h.memory.2.1 (h.qbEos.same Iff.rfl hgot)

/-- A step of WRITER that gets an item. -/
theorem StageEnd.writerGetsItem {w : Writer} {v : Code} (hitem : s.holdsItem .b v) (hw : WriterInv s → WriterInv (s.setWr w))
    (hnew : w.state = .emit) : StageEnd s (detectDone ((s.qGet .b).setWr w)) := by
  obtain ⟨hget, hfront⟩ := canGet_of_peek hitem
  refine .finished rfl fun h => h.writerGets hget (hw h.writer) ?_
  have heos := h.qbEos
  rw [contents_qGet (id := .b) h.qb hget, hfront] at heos
  exact (heos.getItem (elemTag_itemElem v) (by simp [hnew])).1

/-- A step of WRITER that gets EOS. -/
theorem StageEnd.writerGetsEos {w : Writer} (hheld : s.holdsEos .b) (hw : WriterInv s → WriterInv (s.setWr w))
    (hnew : w.state = .pad ∨ w.state = .done) : StageEnd s (detectDone ((s.qGet .b).setWr w)) := by
  obtain ⟨hget, htag⟩ := canGet_of_holdsEos hheld
  refine .finished rfl fun h => h.writerGets hget (hw h.writer) ?_
  have heos := h.qbEos
  rw [contents_qGet (id := .b) h.qb hget] at heos
  exact (heos.getEos htag hnew).1

/-- A step of WRITER in which the sink accepts its byte. -/
theorem StageEnd.writerWrites {b : Byte} {w : Writer} (hw : WriterInv s → WriterInv (s.setWr w))
    (hgot : writerGotEos (s.setWr w) ↔ writerGotEos s) :
    StageEnd s (detectDone ((s.sinkWrite b .ok).setWr w)) :=
  .finished rfl fun h => h.writerWrites (hw h.writer) hgot

/-- A step of WRITER in which the sink answers ERROR (R141). -/
theorem StageEnd.sinkError (b : Byte) : StageEnd s ((s.sinkWrite b .error).abort .ioSink .none 0) :=
  .aborted { s.host with snk := s.host.snk.tail } nofun fun _ => ⟨rfl, rfl⟩

/-! ## WRITER's registers -/

/-- In COMPRESS mode WRITER's invariant is that of its bit buffer (R34). -/
theorem writerInv_compress {w : Writer} (hmode : s.core.mode = .compress) (hbits : w.acc.toNat < 2 ^ w.nbits.toNat)
    (hstate : ((w.state = .get ∨ w.state = .done) ∧ (w.nbits = 0 ∨ w.nbits = 4)) ∨
      (w.state = .emit ∧ (w.nbits = 8 ∨ w.nbits = 12 ∨ w.nbits = 16)) ∨ (w.state = .pad ∧ w.nbits = 4)) :
    WriterInv (s.setWr w) := by
  constructor <;> simp only [State.setWr_wr, State.setWr_core, hmode] <;> grind

/-- In DECOMPRESS mode WRITER's bit buffer stays empty. -/
theorem writerInv_decompress (h : WriterInv s) (hmode : s.core.mode = .decompress) {st : WrState} {b : Byte}
    (hidle : st ≠ .idle) (hpad : st ≠ .pad) : WriterInv (s.setWr { s.wr with state := st, byte := b }) := by
  obtain ⟨hacc, hnbits, -⟩ := h.raw hmode
  constructor <;> simp [hacc, hnbits, hmode, hidle, hpad]

/-- A code pushed on a buffer of at most 4 bits (R87). -/
theorem pushCode_lt {acc : BitBuf} {n : Nat} (h : acc.toNat < 2 ^ n) (hn : n ≤ 4) (c : Code) :
    (pushCode acc c).toNat < 2 ^ (n + 12) := by
  have h4 : acc.toNat < 2 ^ 4 := h.trans_le (Nat.pow_le_pow_right (by decide) hn)
  have hc := c.isLt
  rw [pushCode_toNat h4, Nat.pow_add]
  omega

theorem writerInv_packCode (h : WriterInv s) (hat : writerAt s .compress .get) (c : Code) :
    WriterInv (s.setWr { s.wr with acc := pushCode s.wr.acc c, nbits := s.wr.nbits + 12, state := .emit }) := by
  obtain ⟨-, hmode, hst⟩ := hat
  have hget := h.get hmode (.inl hst)
  have hpush := pushCode_lt h.bits (by rcases hget with hn | hn <;> simp [hn]) c
  rcases hget with hn | hn <;>
    exact writerInv_compress hmode (by simpa [hn] using hpush) (.inr (.inl ⟨rfl, by simp [hn]⟩))

theorem writerInv_packEos (h : WriterInv s) (hat : writerAt s .compress .get) :
    WriterInv (s.setWr { s.wr with state := if 0 < s.wr.nbits.toNat then .pad else .done }) := by
  obtain ⟨-, hmode, hst⟩ := hat
  refine writerInv_compress hmode h.bits ?_
  rcases h.get hmode (.inl hst) with hn | hn <;> simp [hn]

theorem writerInv_packEmit (h : WriterInv s) (hat : writerAt s .compress .emit) :
    WriterInv (s.setWr { s.wr with
      nbits := s.wr.nbits - 8, acc := keepLow s.wr.acc (s.wr.nbits - 8)
      state := if (s.wr.nbits - 8).toNat < 8 then .get else .emit }) := by
  obtain ⟨-, hmode, hst⟩ := hat
  have hemit := h.emit hmode hst
  refine writerInv_compress hmode (keepLow_lt _ ?_) ?_ <;> rcases hemit with hn | hn | hn <;> simp [hn]

/-! ## WRITER's steps -/

/-- Every operation of WRITER ends as R128 or R149 says. -/
theorem writerOp_effect {i : Instr} {t : State} (hop : WriterOp i) (h : exec i s = .next t) : StageEffect s t := by
  cases hop with
  | packCode c =>
    exact (execPackCode_next h).imp_right fun ⟨⟨hat, hitem⟩, ht⟩ =>
      ⟨hat.1, ht ▸ .writerGetsItem hitem (writerInv_packCode · hat c) rfl⟩
  | packEos =>
    refine (execPackEos_next h).imp_right fun ⟨⟨hat, heos⟩, ht⟩ =>
      ⟨hat.1, ht ▸ .writerGetsEos heos (writerInv_packEos · hat) ?_⟩
    simp only; split <;> simp
  | packEmit r =>
    refine (execPackEmit_next h).imp_right fun ⟨⟨hat, _⟩, hcase⟩ => ⟨hat.1, ?_⟩
    rcases hcase with ⟨-, rfl⟩ | ⟨-, rfl⟩
    · exact .sinkError _
    · refine .writerWrites (writerInv_packEmit · hat) (iff_of_false ?_ ?_)
      · simp only [writerGotEos, State.setWr_wr]; split <;> simp
      · simp [writerGotEos, hat.2.2]
  | packFlush r =>
    refine (execPackFlush_next h).imp_right fun ⟨⟨⟨hrun, hmode, hst⟩, _⟩, hcase⟩ => ⟨hrun, ?_⟩
    rcases hcase with ⟨-, rfl⟩ | ⟨-, rfl⟩
    · exact .sinkError _
    · refine .writerWrites (fun _ => writerInv_compress hmode ?_ (.inl ⟨.inr rfl, .inl rfl⟩))
        (iff_of_true (.inr rfl) (.inl hst))
      simp
  | rawByte v =>
    exact (execWrRawByte_next h).imp_right fun ⟨⟨⟨hrun, hmode, _⟩, hitem⟩, ht⟩ =>
      ⟨hrun, ht ▸ .writerGetsItem hitem (writerInv_decompress · hmode nofun nofun) rfl⟩
  | rawEos =>
    exact (execWrRawEos_next h).imp_right fun ⟨⟨⟨hrun, hmode, _⟩, heos⟩, ht⟩ =>
      ⟨hrun, ht ▸ .writerGetsEos heos (writerInv_decompress (b := s.wr.byte) · hmode nofun nofun) (.inr rfl)⟩
  | rawEmit r =>
    refine (execWrRawEmit_next h).imp_right fun ⟨⟨⟨hrun, hmode, hst⟩, _⟩, hcase⟩ => ⟨hrun, ?_⟩
    rcases hcase with ⟨-, rfl⟩ | ⟨-, rfl⟩
    · exact .sinkError _
    · refine .writerWrites (writerInv_decompress (b := s.wr.byte) · hmode nofun nofun) (iff_of_false ?_ ?_)
      · simp [writerGotEos]
      · simp [writerGotEos, hst]

end Sys2Proof.Machine
end

section
/-! SUPPORT. ENGINE's updates, and its steps in COMPRESS mode: each keeps the invariant of a running job. -/

namespace Sys2Proof.Machine

variable {s : State}

/-! ## ENGINE's updates -/

/-- An update of ENGINE's registers and tables that writes no queue and does not put EOS. -/
theorem RunInv.engineMoves (h : RunInv s) {e : Engine} (he : EngineInv (s.setEng e)) (hdict : e.dict = s.eng.dict)
    (htable : e.table = s.eng.table) (hgot : engineGotEos (s.setEng e) ↔ engineGotEos s)
    (hdone : e.state = .done ↔ s.eng.state = .done) : RunInv (s.setEng e) :=
  h.engineStep rfl rfl rfl rfl he h.qa h.qb (by simpa [Memory.wf, hdict, htable] using h.memory)
    (h.qaEos.same Iff.rfl hgot) (h.qbEos.same hdone Iff.rfl)

/-- ENGINE gets the element at the front of QA. -/
theorem RunInv.engineGets (h : RunInv s) (hget : canGet s .a) {e : Engine} (he : EngineInv (s.setEng e))
    (hmem : Memory.cellsWf e.dict.cells ∧ Memory.cellsWf e.table.cells)
    (hqa : EosInv ((s.qGet .a).contents .a) (s.core.mode = .compress) (s.rd.state = .done) (engineGotEos (s.setEng e)))
    (hold : s.eng.state ≠ .done) (hnew : e.state ≠ .done) : RunInv ((s.qGet .a).setEng e) :=
  h.engineStep rfl rfl rfl rfl (he.congr rfl rfl) (queueInv_qGet (id := .a) h.qa hget) h.qb
    ⟨h.memory.1, h.memory.2.1, hmem⟩ hqa (h.qbEos.same (iff_of_false hnew hold) Iff.rfl)

/-- ENGINE puts an element on QB. -/
theorem RunInv.enginePuts (h : RunInv s) (hput : canPut s .b) {x : Elem13} {e : Engine} (he : EngineInv (s.setEng e))
    (hmem : Memory.cellsWf e.dict.cells ∧ Memory.cellsWf e.table.cells)
    (hgot : engineGotEos (s.setEng e) ↔ engineGotEos s)
    (hqb : EosInv (s.contents .b ++ [x]) (s.core.mode = .decompress) (e.state = .done) (writerGotEos s)) :
    RunInv ((s.qPut .b x).setEng e) :=
  h.engineStep rfl rfl rfl rfl (he.congr rfl rfl) h.qa (queueInv_qPut (id := .b) h.qb hput x)
    ⟨h.memory.1, cellsWf_write h.memory.2.1 _ _, hmem⟩ (h.qaEos.same Iff.rfl hgot)
    (by rw [contents_setEng, contents_qPut (id := .b) h.qb hput]; exact hqb)

/-! ## The ends of ENGINE's steps -/

/-- A step of ENGINE that gets an item. -/
theorem StageEnd.engineGetsItem {e : Engine} (hget : canGet s .a) (htag : elemTag (s.front .a) = false)
    (hold : s.eng.state ≠ .done) (hnew : ¬ engineGotEos (s.setEng e)) (he : RunInv s → EngineInv (s.setEng e))
    (hmem : RunInv s → Memory.cellsWf e.dict.cells ∧ Memory.cellsWf e.table.cells) :
    StageEnd s (detectDone ((s.qGet .a).setEng e)) := by
  refine .finished rfl fun h => h.engineGets hget (he h) (hmem h) ?_ hold fun hd => hnew (.inr (.inr (.inr hd)))
  have heos := h.qaEos
  rw [contents_qGet (id := .a) h.qa hget] at heos
  exact (heos.getItem htag hnew).1

/-- A step of ENGINE that gets EOS. -/
theorem StageEnd.engineGetsEos {st : EngState} (hget : canGet s .a) (htag : elemTag (s.front .a) = true)
    (hold : s.eng.state ≠ .done) (hnew : st = .cFinal ∨ st = .cEos ∨ st = .dEos)
    (he : RunInv s → EngineInv (s.setEng { s.eng with state := st })) :
    StageEnd s (detectDone ((s.qGet .a).setEng { s.eng with state := st })) := by
  refine .finished rfl fun h => h.engineGets hget (he h) h.memory.2.2 ?_ hold (by grind)
  have heos := h.qaEos
  rw [contents_qGet (id := .a) h.qa hget] at heos
  exact (heos.getEos htag (show engineGotEos _ by simp [engineGotEos]; grind)).1

/-- A step of ENGINE that puts an item. -/
theorem StageEnd.enginePutsItem {v : Code} {e : Engine} (hput : canPut s .b)
    (hold : s.eng.state ≠ .done) (hnew : e.state ≠ .done) (hgot : engineGotEos (s.setEng e) ↔ engineGotEos s)
    (hv : s.core.mode = .decompress → v.toNat ≤ 255) (he : RunInv s → EngineInv (s.setEng e))
    (hmem : RunInv s → Memory.cellsWf e.dict.cells ∧ Memory.cellsWf e.table.cells) :
    StageEnd s (detectDone ((s.qPut .b (itemElem v)).setEng e)) := by
  refine .finished rfl fun h => h.enginePuts hput (he h) (hmem h) hgot ?_
  exact EosInv.same (h.qbEos.putItem hold (h.not_writerGotEos hold) hv) (iff_of_false hnew hold) Iff.rfl

/-- A step of ENGINE that puts EOS. -/
theorem StageEnd.enginePutsEos (hput : canPut s .b) (hold : s.eng.state = .cEos ∨ s.eng.state = .dEos)
    (he : RunInv s → EngineInv (s.setEng { s.eng with state := .done })) :
    StageEnd s (detectDone ((s.qPut .b eosElem).setEng { s.eng with state := .done })) := by
  have hne : s.eng.state ≠ .done := by grind
  refine .finished rfl fun h => h.enginePuts hput (he h) h.memory.2.2 ?_ ?_
  · exact iff_of_true (.inr (.inr (.inr rfl))) (by unfold engineGotEos; grind)
  · exact h.qbEos.putEos hne rfl (h.not_writerGotEos hne)

/-! ## The dictionary (R32, R85) -/

/-- The part of R32 that speaks of the dictionary's entries: written, with an earlier valid parent, and unique. -/
structure DictInv (s : State) : Prop where
  written : ∀ k, 257 ≤ k → k < s.eng.nextCode.toNat → (lookupCell s.eng.dict.cells k).isSome = true
  parent : ∀ k, 257 ≤ k → k < s.eng.nextCode.toNat →
    validCode s (s.dictAt k).parent.toNat ∧ (s.dictAt k).parent.toNat < k
  unique : ∀ j k, 257 ≤ j → j < s.eng.nextCode.toNat → 257 ≤ k → k < s.eng.nextCode.toNat →
    s.dictAt j = s.dictAt k → j = k

theorem CompressInv.dict (h : CompressInv s) : DictInv s := ⟨h.written, h.parent, h.unique⟩

/-- The dictionary's entries depend on DICT and next_code. -/
theorem DictInv.congr {t : State} (h : DictInv s) (hd : t.eng.dict = s.eng.dict)
    (hn : t.eng.nextCode = s.eng.nextCode) : DictInv t := by
  obtain ⟨h1, h2, h3⟩ := h
  constructor <;> simpa only [State.dictAt, validCode, hd, hn]

/-- An empty dictionary claims nothing (R80, R83). -/
theorem dictInv_of_empty (hn : s.eng.nextCode.toNat = 257) : DictInv s :=
  ⟨fun k _ _ => by omega, fun k _ _ => by omega, fun j k _ _ _ _ => by omega⟩

theorem dictAdd_nextCode (hn : s.eng.nextCode.toNat ≤ 4095) (c : Code) (x : Byte) :
    (s.dictAdd c x).eng.nextCode.toNat = s.eng.nextCode.toNat + 1 := next_succ (hn.trans (by decide))

/-- DICT.ADD of an entry that DICT.FIND misses, under a valid code (R82). -/
theorem DictInv.dictAdd (h : DictInv s) (hlow : 257 ≤ s.eng.nextCode.toNat) (hhigh : s.eng.nextCode.toNat ≤ 4095)
    {c : Code} {x : Byte} (hc : validCode s c.toNat) (hmiss : s.dictFind (.code c) x = none) :
    DictInv (s.dictAdd c x) := by
  have hnext := dictAdd_nextCode hhigh c x
  have hfresh : ∀ k, 257 ≤ k → k < s.eng.nextCode.toNat → s.dictAt k ≠ { parent := c, symbol := x } :=
    fun k h1 h2 => dictFind_none hmiss h1 h2
  refine ⟨fun k h1 h2 => ?_, fun k h1 h2 => ?_, fun j k hj1 hj2 hk1 hk2 heq => ?_⟩
  · by_cases hk : k = s.eng.nextCode.toNat
    · simp [State.dictAdd, Slots.write, hk]
    · simpa [State.dictAdd, Slots.write, lookupCell_insertCell_other _ hk] using h.written k h1 (by omega)
  · rw [dictAt_dictAdd, validCode, hnext]
    split
    · subst k; simp only; unfold validCode at hc; omega
    · have hp := h.parent k h1 (by omega)
      unfold validCode at hp; omega
  · rw [dictAt_dictAdd, dictAt_dictAdd] at heq
    split at heq <;> split at heq
    · omega
    · exact absurd heq.symm (hfresh k hk1 (by omega))
    · exact absurd heq (hfresh j hj1 (by omega))
    · exact h.unique j k hj1 (by omega) hk1 (by omega) heq

/-- HIT answers a valid code (R81). -/
theorem dictFind_valid (h : EngineInv s) {n : Node} {x : Byte} {k : Code} (hhit : s.dictFind n x = some k) :
    validCode s k.toNat := by
  cases n with
  | root =>
    cases hhit
    have := x.isLt
    rw [zextCode_toNat]; exact .inl (by omega)
  | code c =>
    obtain ⟨hlow, hhigh, -⟩ := dictFind_some h.high hhit
    exact .inr ⟨hlow, hhigh⟩

/-! ## ENGINE's invariant in COMPRESS mode -/

theorem engineInv_compress (hmode : s.core.mode = .compress) (hlow : 257 ≤ s.eng.nextCode.toNat)
    (hhigh : s.eng.nextCode.toNat ≤ 4096) (h : CompressInv s) : EngineInv s :=
  ⟨hlow, hhigh, fun _ => h, fun hd => by simp [hmode] at hd⟩

/-- In COMPRESS mode an update that keeps the dictionary keeps ENGINE's invariant where it keeps eng.cur a valid code and
meets what the new state asks. -/
theorem engineInv_compressMove (h : EngineInv s) (hmode : s.core.mode = .compress) {st : EngState} {cur : Node} {x : Byte}
    (hstate : compressState st) (hcur : ∀ c, cur = .code c → validCode s c.toNat)
    (hpending : st = .cEmit ∨ st = .cReset ∨ st = .cFinal → cur ≠ .root)
    (hfull : st = .cReset → s.eng.nextCode.toNat = 4096) (hmissed : st = .cEmit → s.dictFind cur x = none) :
    EngineInv (s.setEng { s.eng with state := st, cur := cur, sym := x }) := by
  obtain ⟨hwritten, hparent, hunique⟩ := (h.compress hmode).dict
  exact engineInv_compress hmode h.low h.high ⟨hstate, hwritten, hparent, hunique, hcur, hpending, hfull, hmissed⟩

/-- Back at the root with a dictionary that meets its own rules (R100, R102). -/
theorem engineInv_atRoot (hmode : s.core.mode = .compress) (hlow : 257 ≤ s.eng.nextCode.toNat)
    (hhigh : s.eng.nextCode.toNat ≤ 4096) (h : DictInv s) :
    EngineInv (s.setEng { s.eng with cur := .root, state := .cMatch }) := by
  obtain ⟨hwritten, hparent, hunique⟩ := h
  exact engineInv_compress hmode hlow hhigh
    ⟨by simp [compressState], hwritten, hparent, hunique, nofun, nofun, nofun, nofun⟩

/-! ## ENGINE's steps in COMPRESS mode -/

section
variable (hmode : s.core.mode = .compress)
include hmode

theorem cFetchSym_end (hst : s.eng.state = .cFetch) {v : Code} (hitem : s.holdsItem .a v) (x : Byte) :
    StageEnd s (detectDone ((s.qGet .a).setEng { s.eng with sym := x, state := .cMatch })) := by
  obtain ⟨hget, hfront⟩ := canGet_of_peek hitem
  refine .engineGetsItem hget (hfront ▸ elemTag_itemElem v) (by simp [hst]) (by simp [engineGotEos]) (fun h => ?_)
    fun h => h.memory.2.2
  exact engineInv_compressMove h.engine hmode (by simp [compressState]) (h.engine.compress hmode).cur nofun nofun nofun

theorem cFetchEos_end (hst : s.eng.state = .cFetch) (hheld : s.holdsEos .a) :
    StageEnd s (detectDone ((s.qGet .a).setEng { s.eng with state := if s.eng.cur = .root then .cEos else .cFinal })) := by
  obtain ⟨hget, htag⟩ := canGet_of_holdsEos hheld
  refine .engineGetsEos hget htag (by simp [hst]) (by split <;> simp) fun h => ?_
  have hcur := (h.engine.compress hmode).cur
  split
  next => exact engineInv_compressMove h.engine hmode (by simp [compressState]) hcur nofun nofun nofun
  next hroot => exact engineInv_compressMove h.engine hmode (by simp [compressState]) hcur (fun _ => hroot) nofun nofun

theorem cMatchHit_end (hst : s.eng.state = .cMatch) {k : Code} (hhit : s.dictFind s.eng.cur s.eng.sym = some k) :
    StageEnd s (detectDone (s.setEng { s.eng with cur := .code k, state := .cFetch })) := by
  refine .finished rfl fun h => h.engineMoves ?_ rfl rfl (by simp [engineGotEos, hst]) (by simp [hst])
  refine engineInv_compressMove h.engine hmode (by simp [compressState]) (fun c hc => ?_) nofun nofun nofun
  cases hc
  exact dictFind_valid h.engine hhit

theorem cMatchMiss_end (hst : s.eng.state = .cMatch) (hmiss : s.dictFind s.eng.cur s.eng.sym = none) :
    StageEnd s (detectDone (s.setEng { s.eng with state := .cEmit })) := by
  refine .finished rfl fun h => h.engineMoves ?_ rfl rfl (by simp [engineGotEos, hst]) (by simp [hst])
  refine engineInv_compressMove h.engine hmode (by simp [compressState]) (h.engine.compress hmode).cur (fun _ hroot => ?_)
    nofun fun _ => hmiss
  simp [hroot, State.dictFind] at hmiss

theorem cEmitAdd_end (hst : s.eng.state = .cEmit) (hn : s.eng.nextCode.toNat ≤ 4095) (hput : canPut s .b) {c : Code}
    (hcur : s.eng.cur = .code c) :
    StageEnd s (detectDone (((s.qPut .b (itemElem c)).dictAdd c s.eng.sym).setEng
      { ((s.qPut .b (itemElem c)).dictAdd c s.eng.sym).eng with cur := .root, state := .cMatch })) := by
  refine .enginePutsItem (e := { (s.dictAdd c s.eng.sym).eng with cur := .root, state := .cMatch }) hput (by simp [hst])
    nofun (by simp [engineGotEos, hst]) (by simp [hmode]) (fun h => ?_)
    fun h => ⟨cellsWf_write h.memory.2.2.1 _ _, h.memory.2.2.2⟩
  have hc := h.engine.compress hmode
  have hadd := hc.dict.dictAdd h.engine.low hn (hc.cur c hcur) (hcur ▸ hc.missed hst)
  have hnext := dictAdd_nextCode hn c s.eng.sym
  have hlow := h.engine.low
  exact engineInv_atRoot (s := s.dictAdd c s.eng.sym) hmode (by omega) (by omega) hadd

theorem cEmitFull_end (hst : s.eng.state = .cEmit) (hn : s.eng.nextCode.toNat = 4096) (hput : canPut s .b) {c : Code} :
    StageEnd s (detectDone ((s.qPut .b (itemElem c)).setEng { s.eng with state := .cReset })) := by
  refine .enginePutsItem hput (by simp [hst]) nofun (by simp [engineGotEos, hst]) (by simp [hmode]) (fun h => ?_)
    fun h => h.memory.2.2
  have hc := h.engine.compress hmode
  exact engineInv_compressMove h.engine hmode (by simp [compressState]) hc.cur (fun _ => hc.pending (.inl hst))
    (fun _ => hn) nofun

theorem cReset_end (hst : s.eng.state = .cReset) (hput : canPut s .b) :
    StageEnd s (detectDone (((s.qPut .b (itemElem resetCode)).dictReset).setEng
      { ((s.qPut .b (itemElem resetCode)).dictReset).eng with cur := .root, state := .cMatch })) := by
  refine .enginePutsItem (e := { s.dictReset.eng with cur := .root, state := .cMatch }) hput (by simp [hst]) nofun
    (by simp [engineGotEos, hst]) (by simp [hmode]) (fun h => ?_) fun h => h.memory.2.2
  have hn : s.dictReset.eng.nextCode.toNat = 257 := rfl
  exact engineInv_atRoot (s := s.dictReset) hmode hn.ge (hn.trans_le (by decide)) (dictInv_of_empty hn)

theorem cFinal_end (hst : s.eng.state = .cFinal) (hput : canPut s .b) {c : Code} :
    StageEnd s (detectDone ((s.qPut .b (itemElem c)).setEng { s.eng with state := .cEos })) := by
  refine .enginePutsItem hput (by simp [hst]) nofun (by simp [engineGotEos, hst]) (by simp [hmode]) (fun h => ?_)
    fun h => h.memory.2.2
  exact engineInv_compressMove h.engine hmode (by simp [compressState]) (h.engine.compress hmode).cur nofun nofun nofun

theorem cEos_end (hst : s.eng.state = .cEos) (hput : canPut s .b) :
    StageEnd s (detectDone ((s.qPut .b eosElem).setEng { s.eng with state := .done })) :=
  .enginePutsEos hput (.inl hst) fun h =>
    engineInv_compressMove h.engine hmode (by simp [compressState]) (h.engine.compress hmode).cur nofun nofun nofun

end

/-- Every operation of ENGINE in COMPRESS mode ends as R128 says. -/
theorem compressOp_effect {i : Instr} {t : State} (hop : CompressOp i) (h : exec i s = .next t) : StageEffect s t := by
  cases hop with
  | fetchSym v =>
    exact (execCFetchSym_next h).imp_right fun ⟨⟨⟨hrun, hmode, hst⟩, hitem⟩, ht⟩ =>
      ⟨hrun, ht ▸ cFetchSym_end hmode hst hitem _⟩
  | fetchEos =>
    exact (execCFetchEos_next h).imp_right fun ⟨⟨⟨hrun, hmode, hst⟩, heos⟩, ht⟩ =>
      ⟨hrun, ht ▸ cFetchEos_end hmode hst heos⟩
  | matchHit =>
    exact (execCMatchHit_next h).imp_right fun ⟨_, ⟨⟨hrun, hmode, hst⟩, hhit⟩, ht⟩ =>
      ⟨hrun, ht ▸ cMatchHit_end hmode hst hhit⟩
  | matchMiss =>
    exact (execCMatchMiss_next h).imp_right fun ⟨⟨⟨hrun, hmode, hst⟩, hmiss⟩, ht⟩ =>
      ⟨hrun, ht ▸ cMatchMiss_end hmode hst hmiss⟩
  | emitAdd =>
    exact (execCEmitAdd_next h).imp_right fun ⟨_, ⟨⟨hrun, hmode, hst⟩, hn, hput⟩, hcur, ht⟩ =>
      ⟨hrun, ht ▸ cEmitAdd_end hmode hst hn hput hcur⟩
  | emitFull =>
    exact (execCEmitFull_next h).imp_right fun ⟨_, ⟨⟨hrun, hmode, hst⟩, hn, hput⟩, _, ht⟩ =>
      ⟨hrun, ht ▸ cEmitFull_end hmode hst hn hput⟩
  | reset =>
    exact (execCReset_next h).imp_right fun ⟨⟨⟨hrun, hmode, hst⟩, hput⟩, ht⟩ =>
      ⟨hrun, ht ▸ cReset_end hmode hst hput⟩
  | final =>
    exact (execCFinal_next h).imp_right fun ⟨_, ⟨⟨hrun, hmode, hst⟩, hput⟩, _, ht⟩ =>
      ⟨hrun, ht ▸ cFinal_end hmode hst hput⟩
  | eos =>
    exact (execCEos_next h).imp_right fun ⟨⟨⟨hrun, hmode, hst⟩, hput⟩, ht⟩ =>
      ⟨hrun, ht ▸ cEos_end hmode hst hput⟩

end Sys2Proof.Machine
end

section
/-! SUPPORT. ENGINE's steps in DECOMPRESS mode: each keeps the invariant of a running job. -/

namespace Sys2Proof.Machine

variable {s : State}

/-! ## ENGINE's invariant in DECOMPRESS mode -/

theorem engineInv_decompress (hmode : s.core.mode = .decompress) (hlow : 257 ≤ s.eng.nextCode.toNat)
    (hhigh : s.eng.nextCode.toNat ≤ 4096) (h : DecompressInv s) : EngineInv s :=
  ⟨hlow, hhigh, fun hc => by simp [hmode] at hc, fun _ => h⟩

/-- In DECOMPRESS mode an update that keeps the string table and eng.prev keeps ENGINE's invariant where the next byte of
eng.obuf exists in D_EMIT. -/
theorem engineInv_decompressMove (h : EngineInv s) (hmode : s.core.mode = .decompress) {st : EngState}
    {oidx : BitVec 12} (hstate : decompressState st) (hemit : st = .dEmit → oidx.toNat < s.eng.obuf.length) :
    EngineInv (s.setEng { s.eng with state := st, oidx := oidx }) := by
  obtain ⟨-, hwritten, hlength, hfresh, hprev, hstart, -, hobuf⟩ := h.decompress hmode
  exact engineInv_decompress hmode h.low h.high ⟨hstate, hwritten, hlength, hfresh, hprev, hstart, hemit, hobuf⟩

/-! ## The string table (R109, R119) -/

/-- ENGINE's registers and tables after D.LIT, D.SEQ or D.KWK has decoded first :: rest. -/
def Engine.decoded (e : Engine) (first : Byte) (rest : Str) : Engine :=
  { e with
    table := if e.prev = [] then e.table else e.table.write e.nextCode.toNat (e.prev ++ [first])
    nextCode := if e.prev = [] then e.nextCode else e.nextCode + 1
    prev := first :: rest, fresh := false, obuf := first :: rest, oidx := 0, state := .dEmit }

theorem dDecoded_eq (s : State) (first : Byte) (rest : Str) :
    s.dDecoded first rest = s.setEng (s.eng.decoded first rest) := by
  unfold State.dDecoded State.dAdd Engine.decoded
  by_cases hp : s.eng.prev = [] <;> simp [hp, State.setEng]

/-- The decoded string is no longer than the code standing for it allows, and next_code has room for D_ADD's entry. -/
structure Decodes (e : Engine) (p : Str) : Prop where
  first : e.prev = [] → p.length = 1
  room : e.prev ≠ [] → e.nextCode.toNat ≤ 4095
  length : e.prev ≠ [] → p.length ≤ e.nextCode.toNat - 255

theorem decoded_nextCode {e : Engine} {first : Byte} {rest : Str} (h : Decodes e (first :: rest)) :
    (e.decoded first rest).nextCode.toNat = if e.prev = [] then e.nextCode.toNat else e.nextCode.toNat + 1 := by
  unfold Engine.decoded
  by_cases hp : e.prev = []
  · simp [hp]
  · have := h.room hp
    simpa [hp] using next_succ (n := e.nextCode) (by omega)

/-- D_ADD's entry is the string of next_code; every other entry is as it was. -/
theorem tableAt_decoded (first : Byte) (rest : Str) (k : Nat) :
    (s.setEng (s.eng.decoded first rest)).tableAt k =
      if s.eng.prev ≠ [] ∧ k = s.eng.nextCode.toNat then s.eng.prev ++ [first] else s.tableAt k := by
  by_cases hp : s.eng.prev = []
  · simp [State.tableAt, Engine.decoded, hp]
  · simp only [hp, ne_eq, not_false_eq_true, true_and]
    exact tableAt_write s _ k _ (by simp [Engine.decoded, hp])

/-- D_ADD's entry is written, and every entry written before still is. -/
theorem isSome_lookupCell_decoded {e : Engine} (first : Byte) (rest : Str) {k : Nat}
    (hk : (lookupCell e.table.cells k).isSome = true ∨ (e.prev ≠ [] ∧ k = e.nextCode.toNat)) :
    (lookupCell (e.decoded first rest).table.cells k).isSome = true := by
  unfold Engine.decoded
  by_cases hp : e.prev = []
  · simpa [hp] using hk
  · by_cases hn : k = e.nextCode.toNat
    · simp [hp, hn, Slots.write]
    · simpa [hp, hn, Slots.write, lookupCell_insertCell_other _ hn] using hk

theorem cellsWf_decoded (h : Memory.cellsWf s.eng.table.cells) (first : Byte) (rest : Str) :
    Memory.cellsWf (s.eng.decoded first rest).table.cells := by
  by_cases hp : s.eng.prev = []
  · simpa [Engine.decoded, hp] using h
  · simpa [Engine.decoded, hp] using cellsWf_write h _ _

/-- Decoding a string of a length its code allows keeps ENGINE's invariant (R109). -/
theorem engineInv_decoded (h : EngineInv s) (hmode : s.core.mode = .decompress) {first : Byte} {rest : Str}
    (hp : Decodes s.eng (first :: rest)) : EngineInv (s.setEng (s.eng.decoded first rest)) := by
  have hd := h.decompress hmode
  have hlow := h.low
  have hstart := hd.start
  have hprev := hd.prevLength
  have hnext := decoded_nextCode hp
  obtain ⟨hfirst, hroom, hlen⟩ := hp
  have hnew : ∀ k, k < (s.eng.decoded first rest).nextCode.toNat →
      k < s.eng.nextCode.toNat ∨ (s.eng.prev ≠ [] ∧ k = s.eng.nextCode.toNat) := by grind
  refine engineInv_decompress hmode ?_ ?_ ⟨.inr (.inl rfl), fun k hk1 hk2 => ?_, fun k hk1 hk2 => ?_, nofun, ?_, nofun,
    fun _ => Nat.succ_pos _, ?_⟩
  · show 257 ≤ (s.eng.decoded first rest).nextCode.toNat
    rw [hnext]; split <;> omega
  · show (s.eng.decoded first rest).nextCode.toNat ≤ 4096
    grind
  · exact isSome_lookupCell_decoded first rest ((hnew k hk2).imp_left (hd.written k hk1))
  · rw [tableAt_decoded]
    split
    next hk =>
      have := List.length_pos_iff.mpr hk.1
      simp only [List.length_append, List.length_singleton]
      omega
    next hk => exact hd.length k hk1 ((hnew k hk2).resolve_right hk)
  · show (first :: rest).length ≤ (s.eng.decoded first rest).nextCode.toNat - 256
    grind
  · show (first :: rest).length ≤ obufDepth
    grind

/-! ## ENGINE's steps in DECOMPRESS mode -/

/-- An element of a class other than EOS_IN is there to be got, and is an item. -/
theorem item_of_dClass {k : DClass} (hclass : s.dClass = some k) (hk : k ≠ .eosIn) :
    canGet s .a ∧ elemTag (s.front .a) = false := by
  obtain ⟨e, hpeek, rfl⟩ := dClass_some hclass
  obtain ⟨hget, hfront⟩ := canGet_of_peek hpeek
  exact ⟨hget, hfront ▸ classify_item hk⟩

/-- The class of an item is that of its code. -/
theorem classify_of_fetchesClass {k : DClass} {c : Code} (hclass : fetchesClass s k) (hitem : s.holdsItem .a c) :
    classify (itemElem c) s.eng.fresh s.eng.prev.isEmpty s.eng.nextCode = k := by
  obtain ⟨e, hpeek, hk⟩ := dClass_some hclass.2
  rw [State.holdsItem, hpeek] at hitem
  cases hitem
  exact hk

theorem dEosIn_end (hclass : fetchesClass s .eosIn) :
    StageEnd s (detectDone ((s.qGet .a).setEng { s.eng with state := .dEos })) := by
  obtain ⟨⟨-, hmode, hst⟩, hk⟩ := hclass
  obtain ⟨e, hpeek, hk⟩ := dClass_some hk
  obtain ⟨hget, hfront⟩ := canGet_of_peek hpeek
  refine .engineGetsEos hget (hfront ▸ classify_eosIn hk) (by simp [hst]) (by simp) fun h => ?_
  exact engineInv_decompressMove (oidx := s.eng.oidx) h.engine hmode (by simp [decompressState]) nofun

theorem dReset_end (hclass : fetchesClass s .reset) :
    StageEnd s (detectDone ((s.qGet .a).setEng
      { s.eng with nextCode := 257, prev := [], fresh := true, state := .dFetch })) := by
  obtain ⟨⟨-, hmode, hst⟩, hk⟩ := hclass
  obtain ⟨hget, htag⟩ := item_of_dClass hk nofun
  refine .engineGetsItem hget htag (by simp [hst]) (by simp [engineGotEos]) (fun h => ?_) fun h => h.memory.2.2
  refine engineInv_decompress hmode (by simp) (by simp)
    ⟨.inl rfl, fun k hk1 hk2 => ?_, fun k hk1 hk2 => ?_, fun _ => rfl, by simp, fun _ => rfl, nofun,
      (h.engine.decompress hmode).obufLength⟩
  · simp at hk2; omega
  · simp at hk2; omega

/-- D.LIT, D.SEQ and D.KWK, whose element decodes to first :: rest. -/
theorem dDecoded_end {k : DClass} (hclass : fetchesClass s k) (hk : k ≠ .eosIn) {first : Byte} {rest : Str}
    (hp : EngineInv s → Decodes s.eng (first :: rest)) :
    StageEnd s (detectDone ((s.qGet .a).dDecoded first rest)) := by
  obtain ⟨⟨-, hmode, hst⟩, hdc⟩ := hclass
  obtain ⟨hget, htag⟩ := item_of_dClass hdc hk
  rw [dDecoded_eq, State.qGet_eng]
  refine .engineGetsItem hget htag (by simp [hst]) (by simp [engineGotEos, Engine.decoded])
    (fun h => engineInv_decoded h.engine hmode (hp h.engine)) fun h => ?_
  exact ⟨h.memory.2.2.1, cellsWf_decoded h.memory.2.2.2 first rest⟩

theorem dLit_end {b : Byte} (hclass : fetchesClass s .lit) (hitem : s.holdsItem .a (zextCode b)) :
    StageEnd s (detectDone ((s.qGet .a).dDecoded b [])) := by
  have hk := (classify_lit (classify_of_fetchesClass hclass hitem)).1
  refine dDecoded_end hclass nofun fun h => ⟨fun _ => rfl, fun hne => ?_, fun _ => ?_⟩
  · have hn : s.eng.nextCode.toNat ≠ 4096 := hk.resolve_left (by simpa using hne)
    have := h.high
    omega
  · have := h.low
    simp only [List.length_singleton]; omega

theorem dSeq_end {c : Code} (hclass : fetchesClass s .seq) (hitem : s.holdsItem .a c) (hn : s.eng.nextCode.toNat ≤ 4095)
    {first : Byte} {rest : Str} (htable : s.tableAt c.toNat = first :: rest) :
    StageEnd s (detectDone ((s.qGet .a).dDecoded first rest)) := by
  obtain ⟨hprev, -, hc1, hc2⟩ := classify_seq (classify_of_fetchesClass hclass hitem)
  rw [elemPayload_itemElem] at hc1 hc2
  refine dDecoded_end hclass nofun fun h => ⟨fun he => by simp [he] at hprev, fun _ => hn, fun _ => ?_⟩
  have hlen := ((h.decompress hclass.1.2.1).length c.toNat hc1 hc2).2
  rw [htable] at hlen
  exact hlen.trans (Nat.sub_le_sub_right hc2.le 255)

theorem dKwk_end {c : Code} (hclass : fetchesClass s .kwk) (hitem : s.holdsItem .a c) {first : Byte} {rest : Str}
    (hprev : s.eng.prev = first :: rest) :
    StageEnd s (detectDone ((s.qGet .a).dDecoded first (rest ++ [first]))) := by
  obtain ⟨-, hn, -, -⟩ := classify_kwk (classify_of_fetchesClass hclass hitem)
  refine dDecoded_end hclass nofun fun h => ⟨fun he => by simp [he] at hprev, fun _ => ?_, fun _ => ?_⟩
  · have := h.high
    omega
  · have hlen := (h.decompress hclass.1.2.1).prevLength
    have hlow := h.low
    rw [hprev] at hlen
    simp only [List.length_cons, List.length_append, List.length_nil] at hlen ⊢
    omega

/-- `eng.oidx + 1` fits its register while eng.oidx is within a string (R11, R13). -/
theorem oidx_succ {i : BitVec 12} (h : i.toNat < obufDepth) : (i + 1).toNat = i.toNat + 1 := by
  rw [BitVec.toNat_add]
  simp only [obufDepth] at h
  simp; omega

theorem dEmit_end (hat : engineAt s .decompress .dEmit) (hput : canPut s .b) (b : Byte) :
    StageEnd s (detectDone ((s.qPut .b (itemElem (zextCode b))).setEng
      { s.eng with oidx := s.eng.oidx + 1,
                   state := if (s.eng.oidx + 1).toNat = s.eng.obuf.length then .dFetch else .dEmit })) := by
  obtain ⟨-, hmode, hst⟩ := hat
  have hb := b.isLt
  refine .enginePutsItem hput (by simp [hst]) (by simp only; split <;> nofun) ?_
    (fun _ => by rw [zextCode_toNat]; omega) (fun h => ?_) fun h => h.memory.2.2
  · refine iff_of_false ?_ (by simp [engineGotEos, hst])
    simp only [engineGotEos, State.setEng_eng]; split <;> simp
  · have hd := h.engine.decompress hmode
    have hlt := hd.emitting hst
    refine engineInv_decompressMove h.engine hmode (by split <;> simp [decompressState]) fun hnext => ?_
    have hne : (s.eng.oidx + 1).toNat ≠ s.eng.obuf.length := fun he => nomatch (if_pos he).symm.trans hnext
    rw [oidx_succ (hlt.trans_le hd.obufLength)] at hne ⊢
    omega

theorem dEosOut_end (hat : engineAt s .decompress .dEos) (hput : canPut s .b) :
    StageEnd s (detectDone ((s.qPut .b eosElem).setEng { s.eng with state := .done })) :=
  .enginePutsEos hput (.inr hat.2.2) fun h =>
    engineInv_decompressMove (oidx := s.eng.oidx) h.engine hat.2.1 (by simp [decompressState]) nofun

/-- A corrupt code aborts and keeps no other effect (R112, R114, R115). -/
theorem StageEnd.corrupt (reason : ErrReason) (c : Code) : StageEnd s (s.abort .corrupt reason c) :=
  .aborted s.host nofun fun h => absurd rfl h

/-- Every operation of ENGINE in DECOMPRESS mode ends as R128 or R149 says. -/
theorem decompressOp_effect {i : Instr} {t : State} (hop : DecompressOp i) (h : exec i s = .next t) :
    StageEffect s t := by
  cases hop with
  | eosIn =>
    exact (execDEosIn_next h).imp_right fun ⟨hclass, ht⟩ => ⟨hclass.1.1, ht ▸ dEosIn_end hclass⟩
  | errFresh c =>
    exact (execDErrFresh_next h).imp_right fun ⟨⟨hclass, _⟩, ht⟩ => ⟨hclass.1.1, ht ▸ .corrupt .fresh c⟩
  | reset =>
    exact (execDReset_next h).imp_right fun ⟨hclass, ht⟩ => ⟨hclass.1.1, ht ▸ dReset_end hclass⟩
  | errRange c =>
    exact (execDErrRange_next h).imp_right fun ⟨⟨hclass, _⟩, ht⟩ => ⟨hclass.1.1, ht ▸ .corrupt .range c⟩
  | errOverflow c =>
    exact (execDErrOverflow_next h).imp_right fun ⟨⟨hclass, _⟩, ht⟩ => ⟨hclass.1.1, ht ▸ .corrupt .overflow c⟩
  | lit b =>
    exact (execDLit_next h).imp_right fun ⟨⟨hclass, hitem⟩, ht⟩ => ⟨hclass.1.1, ht ▸ dLit_end hclass hitem⟩
  | seq c =>
    exact (execDSeq_next h).imp_right fun ⟨_, _, ⟨hclass, hitem, hn⟩, htable, ht⟩ =>
      ⟨hclass.1.1, ht ▸ dSeq_end hclass hitem hn htable⟩
  | kwk c =>
    exact (execDKwk_next h).imp_right fun ⟨_, _, ⟨hclass, hitem⟩, hprev, ht⟩ =>
      ⟨hclass.1.1, ht ▸ dKwk_end hclass hitem hprev⟩
  | emit =>
    exact (execDEmit_next h).imp_right fun ⟨b, ⟨hat, hput⟩, _, ht⟩ => ⟨hat.1, ht ▸ dEmit_end hat hput b⟩
  | eosOut =>
    exact (execDEosOut_next h).imp_right fun ⟨⟨hat, hput⟩, ht⟩ => ⟨hat.1, ht ▸ dEosOut_end hat hput⟩

end Sys2Proof.Machine
end

section
/-! SUPPORT. What a turn makes of the state (R7, R21): RST and START in the ways R161 and R127 say, every other turn as a
stage's operation or not at all. -/

namespace Sys2Proof.Machine

/-- Every operation of a stage is blocked, or ends as R128 or R149 says. -/
theorem stageOp_effect {i : Instr} {s t : State} (hop : StageOp i) (h : exec i s = .next t) : StageEffect s t := by
  cases hop with
  | reader hop => exact readerOp_effect hop h
  | compress hop => exact compressOp_effect hop h
  | decompress hop => exact decompressOp_effect hop h
  | writer hop => exact writerOp_effect hop h

/-- A turn of a stage, or an answer of the HOST: neither RST nor START. -/
abbrev agentTurn (u : Turn) : Prop := u ≠ .rst ∧ ∀ m, u ≠ .start m

/-- What the turn `u`, already taken out of the schedule, makes of `s`. -/
inductive TurnEffect (s : State) : Turn → State → Prop where
  | rst : TurnEffect s .rst s.hardReset
  | start (m : Mode) (hidle : s.core.status ≠ .running) : TurnEffect s (.start m) (s.startJob m)
  | startIgnored (m : Mode) (hrun : s.core.status = .running) : TurnEffect s (.start m) s
  | passed {u : Turn} (hu : agentTurn u) : TurnEffect s u s
  | answered {u : Turn} (hu : agentTurn u) (hrun : s.core.status = .running) (h : HostSide) :
      TurnEffect s u (s.setHost h)
  | ended {u : Turn} {t : State} (hu : agentTurn u) (hrun : s.core.status = .running) (h : HostSide)
      (hend : StageEnd (s.setHost h) t) : TurnEffect s u t

/-- A stage's operation on an answer the HOST gives in a running job. -/
theorem turnEffect_of_answer {u : Turn} {i : Instr} {s t : State} (hu : agentTurn u) (hrun : s.core.status = .running)
    (hop : StageOp i) {h : HostSide} (hexec : exec i (s.setHost h) = .next t) : TurnEffect s u t := by
  rcases stageOp_effect hop hexec with rfl | ⟨-, hend⟩
  · exact .answered hu hrun h
  · exact .ended hu hrun h hend

theorem turnEffect_of_exec {u : Turn} {i : Instr} {s t : State} (hop : TurnOp u i) (hexec : exec i s = .next t) :
    TurnEffect s u t := by
  cases hop with
  | stage hu hop =>
    have hu : agentTurn u := by rcases hu with rfl | rfl | rfl <;> exact ⟨nofun, nofun⟩
    rcases stageOp_effect hop hexec with rfl | ⟨hrun, hend⟩
    · exact .passed hu
    · exact .ended hu hrun s.host hend
  | start m =>
    rcases execStart_next hexec with ⟨hrun, rfl⟩ | ⟨hidle, rfl⟩
    · exact .startIgnored m hrun
    · exact .start m hidle
  | rst => cases hexec; exact .rst
  | srcAnswer w k d =>
    have hu : agentTurn (.srcAnswer w) := ⟨nofun, nofun⟩
    have hexec : execHostSrcAnswer k d s = .next t := hexec
    rcases execHostSrcAnswer_eq k d s with heq | ⟨⟨hrun, -⟩, i, hdec, heq⟩ <;> rw [heq] at hexec
    · cases hexec; exact .passed hu
    · exact turnEffect_of_answer hu hrun (.reader (decodeSource_readerOp hdec)) hexec
  | snkAnswer r q =>
    have hu : agentTurn (.snkAnswer r) := ⟨nofun, nofun⟩
    have hexec : execHostSnkAnswer q s = .next t := hexec
    rcases execHostSnkAnswer_eq q s with heq | ⟨hrun, -, i, hdec, heq⟩ <;> rw [heq] at hexec
    · cases hexec; exact .passed hu
    · exact turnEffect_of_answer hu hrun (.writer (decodeWriter_writerOp hdec)) hexec

/-- A turn whose tuple selects no operation is a stage's or an answer's: RST and START always decode. -/
theorem agentTurn_of_decode_error {s : State} {u : Turn} {e : NoOperation} (h : decode (s.opcode u) = .error e) :
    agentTurn u := by
  constructor
  · rintro rfl; cases h
  · rintro m rfl; cases h

/-- What a step makes of the state its turn is taken from. -/
theorem step_turnEffect {s t : State} (h : step s = .next t) : TurnEffect s.nextTurn.2 s.nextTurn.1 t := by
  obtain ⟨-, ⟨e, hdec, rfl⟩ | ⟨i, hdec, hexec⟩⟩ := step_next h
  · exact .passed (agentTurn_of_decode_error hdec)
  · exact turnEffect_of_exec (decode_opcode_turnOp hdec) hexec

/-! ## The core registers -/

/-- What a stage's turn or an answer makes of the core registers: nothing; or, in a running job, DONE with all stages
done, or an abort. -/
inductive CoreEffect (s t : State) : Prop where
  | kept (hcore : t.core = s.core)
  | done (hrun : s.core.status = .running) (hall : allDone t) (hcore : t.core = { s.core with status := .done })
  | aborted {code : ErrCode} {reason : ErrReason} {info : Code} (hrun : s.core.status = .running)
      (hcode : code ≠ .none) (hreason : code ≠ .corrupt → reason = .none ∧ info = 0)
      (hcore : t.core = s.core.aborted code reason info)

theorem StageEnd.coreEffect {s t : State} {side : HostSide} (h : StageEnd (s.setHost side) t)
    (hrun : s.core.status = .running) : CoreEffect s t := by
  cases h with
  | @finished u hcore _ =>
    by_cases hall : allDone u
    · exact .done hrun (by simpa [allDone] using hall) (by simp [detectDone_eq, CoreRegs.doneIf, hall, hcore])
    · exact .kept (by rw [detectDone_eq_self hall, hcore]; rfl)
  | aborted h hcode hreason => exact .aborted hrun hcode hreason rfl

/-- The core registers after a turn: as RST or START leaves them, or as an agent's turn does. -/
theorem TurnEffect.core_cases {s t : State} {u : Turn} (h : TurnEffect s u t) :
    (u = .rst ∧ t = s.hardReset) ∨ (∃ m, u = .start m ∧ s.core.status ≠ .running ∧ t = s.startJob m) ∨
      (∃ m, u = .start m ∧ s.core.status = .running ∧ t = s) ∨ (agentTurn u ∧ CoreEffect s t) := by
  cases h with
  | rst => exact .inl ⟨rfl, rfl⟩
  | start m hidle => exact .inr (.inl ⟨m, rfl, hidle, rfl⟩)
  | startIgnored m hrun => exact .inr (.inr (.inl ⟨m, rfl, hrun, rfl⟩))
  | passed hu => exact .inr (.inr (.inr ⟨hu, .kept rfl⟩))
  | answered hu _ _ => exact .inr (.inr (.inr ⟨hu, .kept rfl⟩))
  | ended hu hrun _ hend => exact .inr (.inr (.inr ⟨hu, hend.coreEffect hrun⟩))

/-- Outside RUNNING an agent's turn passes (R21). -/
theorem TurnEffect.eq_of_not_running {s t : State} {u : Turn} (h : TurnEffect s u t) (hu : agentTurn u)
    (hidle : s.core.status ≠ .running) : t = s := by
  cases h with
  | rst => exact absurd rfl hu.1
  | start m _ => exact absurd rfl (hu.2 m)
  | startIgnored m _ => rfl
  | passed _ => rfl
  | answered _ hrun _ => exact absurd hrun hidle
  | ended _ hrun _ _ => exact absurd hrun hidle

/-- What changes core.status (R21). -/
theorem TurnEffect.status_change {s t : State} {u : Turn} (h : TurnEffect s u t)
    (hne : t.core.status ≠ s.core.status) :
    (u = .rst ∧ t.core.status = .idle) ∨
      ((∃ m, u = .start m) ∧ s.core.status ≠ .running ∧ t.core.status = .running) ∨
      (s.core.status = .running ∧ t.core.status = .done ∧ allDone t) ∨
      (s.core.status = .running ∧ t.core.status = .aborted ∧ t.core.errCode ≠ .none) := by
  rcases h.core_cases with ⟨hu, rfl⟩ | ⟨m, hu, hidle, rfl⟩ | ⟨_, _, _, rfl⟩ | ⟨_, heff⟩
  · exact .inl ⟨hu, rfl⟩
  · exact .inr (.inl ⟨⟨m, hu⟩, hidle, rfl⟩)
  · exact absurd rfl hne
  · cases heff with
    | kept hcore => exact absurd (congrArg CoreRegs.status hcore) hne
    | done hrun hall hcore => exact .inr (.inr (.inl ⟨hrun, by rw [hcore], hall⟩))
    | aborted hrun hcode _ hcore =>
      exact .inr (.inr (.inr ⟨hrun, by rw [hcore]; rfl, by rw [hcore]; exact hcode⟩))

/-- RST leaves IDLE. -/
theorem TurnEffect.status_rst {s t : State} (h : TurnEffect s .rst t) : t.core.status = .idle := by
  rcases h.core_cases with ⟨_, rfl⟩ | ⟨_, hu, _⟩ | ⟨_, hu, _⟩ | ⟨hu, _⟩
  · rfl
  · cases hu
  · cases hu
  · exact absurd rfl hu.1

/-- START leaves RUNNING, in a job it begins or in the one that runs. -/
theorem TurnEffect.status_start {s t : State} {m : Mode} (h : TurnEffect s (.start m) t) :
    t.core.status = .running := by
  rcases h.core_cases with ⟨hu, _⟩ | ⟨_, _, _, rfl⟩ | ⟨_, _, hrun, rfl⟩ | ⟨hu, _⟩
  · cases hu
  · rfl
  · exact hrun
  · exact absurd rfl (hu.2 m)

/-- A running job keeps its mode, RST excepted (R22). -/
theorem TurnEffect.mode_of_running {s t : State} {u : Turn} (h : TurnEffect s u t) (hrun : s.core.status = .running)
    (hu : u ≠ .rst) : t.core.mode = s.core.mode := by
  rcases h.core_cases with ⟨hrst, _⟩ | ⟨_, _, hidle, _⟩ | ⟨_, _, _, rfl⟩ | ⟨_, heff⟩
  · exact absurd hrst hu
  · exact absurd hrun hidle
  · rfl
  · cases heff with
    | kept hcore => rw [hcore]
    | done _ _ hcore => rw [hcore]
    | aborted _ _ _ hcore => rw [hcore]; rfl

/-- START that begins a job loads the mode (R22). -/
theorem TurnEffect.mode_start {s t : State} {m : Mode} (h : TurnEffect s (.start m) t)
    (hidle : s.core.status ≠ .running) : t.core.mode = m := by
  rcases h.core_cases with ⟨hu, _⟩ | ⟨_, hu, _, rfl⟩ | ⟨_, _, hrun, _⟩ | ⟨hu, _⟩
  · cases hu
  · cases hu; rfl
  · exact absurd hrun hidle
  · exact absurd rfl (hu.2 m)

/-- What a turn makes of the error registers (R23). -/
theorem TurnEffect.errors {s t : State} {u : Turn} (h : TurnEffect s u t) :
    (t.core.errCode = s.core.errCode ∧ t.core.errReason = s.core.errReason ∧ t.core.errInfo = s.core.errInfo) ∨
      (s.core.status = .running ∧ t.core.status = .aborted ∧
        (t.core.errCode ≠ .corrupt → t.core.errReason = .none ∧ t.core.errInfo = 0)) ∨
      ((u = .rst ∨ ∃ m, u = .start m) ∧ t.core.errCode = .none ∧ t.core.errReason = .none ∧ t.core.errInfo = 0) := by
  rcases h.core_cases with ⟨hu, rfl⟩ | ⟨m, hu, _, rfl⟩ | ⟨_, _, _, rfl⟩ | ⟨_, heff⟩
  · exact .inr (.inr ⟨.inl hu, rfl, rfl, rfl⟩)
  · exact .inr (.inr ⟨.inr ⟨m, hu⟩, rfl, rfl, rfl⟩)
  · exact .inl ⟨rfl, rfl, rfl⟩
  · cases heff with
    | kept hcore => exact .inl (by rw [hcore]; exact ⟨rfl, rfl, rfl⟩)
    | done _ _ hcore => exact .inl (by rw [hcore]; exact ⟨rfl, rfl, rfl⟩)
    | aborted hrun _ hreason hcore => exact .inr (.inl ⟨hrun, by rw [hcore]; rfl, by rw [hcore]; exact hreason⟩)

end Sys2Proof.Machine
end

section
/-! SUPPORT. The machine's invariant across a turn: the schedule and the host's side, RST, START, and a stage's step; and
that no turn from a state that meets it faults. -/

namespace Sys2Proof.Machine

variable {s : State}

/-! ## What carries no claim -/

/-- The host's side, the draws and the sub-operations' result carry no claim, in a job or out of one. -/
theorem Inv.host {t : State} (h : Inv s) (h1 : t.core = s.core) (h2 : t.qa = s.qa) (h3 : t.qb = s.qb)
    (h4 : t.rd = s.rd) (h5 : t.eng = s.eng) (h6 : t.wr = s.wr) (h7 : t.qcap = s.qcap) : Inv t := by
  obtain ⟨core, qa, qb, rd, eng, wr, qcap, host, draws, ret⟩ := s
  obtain ⟨core', qa', qb', rd', eng', wr', qcap', host', draws', ret'⟩ := t
  simp only at h1 h2 h3 h4 h5 h6 h7
  subst h1 h2 h3 h4 h5 h6 h7
  refine ⟨h.capacity, h.memory, h.phase.imp (fun hi => ?_) fun hj => ?_⟩
  · exact ⟨hi.status, hi.mode, hi.errors, hi.states⟩
  · exact ⟨hj.status, hj.qa, hj.qb, hj.reader.congr rfl rfl, hj.engine.congr rfl rfl, hj.writer.congr rfl rfl, hj.qaEos,
      hj.qbEos, hj.done, hj.noError, hj.error, hj.reason⟩

theorem Inv.setHost (h : Inv s) (side : HostSide) : Inv (s.setHost side) := h.host rfl rfl rfl rfl rfl rfl rfl

theorem Inv.nextTurn (h : Inv s) : Inv s.nextTurn.2 := by
  obtain ⟨h1, h2, h3, h4, h5, h6, h7⟩ := nextTurn_same s
  exact h.host h1 h2 h3 h4 h5 h6 h7

/-! ## Each turn keeps the invariant -/

theorem Inv.hardReset (h : Inv s) : Inv s.hardReset :=
  ⟨h.capacity, ⟨cellsWf_unwritten _, cellsWf_unwritten _, cellsWf_unwritten _, cellsWf_unwritten _⟩,
    .inl ⟨rfl, rfl, ⟨rfl, rfl, rfl⟩, ⟨rfl, rfl, rfl⟩⟩⟩

/-- On an empty queue with no EOS behind it the end-of-stream protocol has just begun (R74). -/
theorem eosInv_nil {bytes put got : Prop} (hput : ¬ put) (hgot : ¬ got) : EosInv [] bytes put got :=
  ⟨fun _ _ he => absurd he List.not_mem_nil, fun h => absurd h hput, fun h => absurd h hgot⟩

theorem readerInv_startJob (s : State) (m : Mode) : ReaderInv (s.startJob m) := by
  constructor <;> simp [State.startJob]

theorem writerInv_startJob (s : State) (m : Mode) : WriterInv (s.startJob m) := by
  constructor <;> simp [State.startJob]

theorem engineInv_startJob (s : State) (m : Mode) : EngineInv (s.startJob m) := by
  have hn : (s.startJob m).eng.nextCode.toNat = 257 := rfl
  cases m with
  | compress =>
    obtain ⟨hwritten, hparent, hunique⟩ := dictInv_of_empty hn
    exact engineInv_compress rfl hn.ge (hn.trans_le (by decide))
      ⟨.inl rfl, hwritten, hparent, hunique, nofun, nofun, nofun, nofun⟩
  | decompress =>
    exact engineInv_decompress rfl hn.ge (hn.trans_le (by decide))
      ⟨.inl rfl, fun k _ _ => by omega, fun k _ _ => by omega, fun _ => rfl, Nat.zero_le _, fun _ => hn, nofun,
        Nat.zero_le _⟩

/-- START begins a job whose queues are empty and whose stages are at their first states (R127). -/
theorem runInv_startJob (hcap : 1 ≤ s.qcap) (m : Mode) : RunInv (s.startJob m) where
  running := rfl
  capacity := hcap
  memory := ⟨cellsWf_unwritten _, cellsWf_unwritten _, cellsWf_unwritten _, cellsWf_unwritten _⟩
  qa := queueInv_qInit hcap .a
  qb := queueInv_qInit (s := s.qInit .a) hcap .b
  reader := readerInv_startJob s m
  engine := engineInv_startJob s m
  writer := writerInv_startJob s m
  qaEos := eosInv_nil (by simp [State.startJob]) (by cases m <;> simp [State.startJob, engineGotEos])
  qbEos := eosInv_nil (by cases m <;> simp [State.startJob]) (by simp [State.startJob, writerGotEos])
  noError := ⟨rfl, rfl, rfl⟩

theorem Inv.startJob (h : Inv s) (m : Mode) : Inv (s.startJob m) :=
  detectDone_eq_self (s := s.startJob m) (by simp [allDone, State.startJob]) ▸ (runInv_startJob h.capacity m).finish

theorem Inv.stageEnd {t : State} (h : Inv s) (hrun : s.core.status = .running) (hend : StageEnd s t) : Inv t := by
  obtain ⟨hinv, hnot⟩ := h.run hrun
  cases hend with
  | finished _ hkeeps => exact (hkeeps hinv).finish
  | aborted side hcode hreason =>
    exact RunInv.aborted (s := s.setHost side) (hinv.host rfl rfl rfl rfl rfl rfl rfl) hnot _ _ _ hcode hreason

theorem TurnEffect.inv {t : State} {u : Turn} (h : TurnEffect s u t) (hinv : Inv s) : Inv t := by
  cases h with
  | rst => exact hinv.hardReset
  | start m _ => exact hinv.startJob m
  | startIgnored _ _ => exact hinv
  | passed _ => exact hinv
  | answered _ _ side => exact hinv.setHost side
  | ended _ hrun side hend => exact (hinv.setHost side).stageEnd hrun hend

/-! ## No turn faults (log 12) -/

/-- A guarded step answers a next state. -/
theorem guarded_answers (c : Prop) [Decidable c] (s u : State) : ∃ t, (if c then .next u else noStep s : Out) = .next t := by
  split <;> exact ⟨_, rfl⟩

theorem readerOp_answers {i : Instr} (hop : ReaderOp i) (s : State) : ∃ t, exec i s = .next t := by
  cases hop <;> exact guarded_answers _ _ _

/-- A sink write answers a next state, with either answer. -/
theorem writerOp_answers {i : Instr} (hop : WriterOp i) (s : State) : ∃ t, exec i s = .next t := by
  cases hop with
  | packCode c => exact guarded_answers _ _ _
  | packEos => exact guarded_answers _ _ _
  | packEmit r => cases r <;> exact guarded_answers _ _ _
  | packFlush r => cases r <;> exact guarded_answers _ _ _
  | rawByte v => exact guarded_answers _ _ _
  | rawEos => exact guarded_answers _ _ _
  | rawEmit r => cases r <;> exact guarded_answers _ _ _

section
variable (hinv : s.core.status = .running → RunInv s)
include hinv

/-- Where an operation puts eng.cur, it is a code (R32). -/
theorem cur_ne_root {st : EngState} (hat : engineAt s .compress st) (hst : st = .cEmit ∨ st = .cReset ∨ st = .cFinal) :
    s.eng.cur ≠ .root := by
  obtain ⟨hrun, hmode, rfl⟩ := hat
  exact ((hinv hrun).engine.compress hmode).pending hst

theorem execCEmitAdd_answers : ∃ t, execCEmitAdd s = .next t := by
  unfold execCEmitAdd
  split
  next hc =>
    split
    next hroot => exact absurd hroot (cur_ne_root hinv hc.1 (.inl rfl))
    next => exact ⟨_, rfl⟩
  next => exact ⟨s, rfl⟩

theorem execCEmitFull_answers : ∃ t, execCEmitFull s = .next t := by
  unfold execCEmitFull
  split
  next hc =>
    split
    next hroot => exact absurd hroot (cur_ne_root hinv hc.1 (.inl rfl))
    next => exact ⟨_, rfl⟩
  next => exact ⟨s, rfl⟩

theorem execCFinal_answers : ∃ t, execCFinal s = .next t := by
  unfold execCFinal
  split
  next hc =>
    split
    next hroot => exact absurd hroot (cur_ne_root hinv hc.1 (.inr (.inr rfl)))
    next => exact ⟨_, rfl⟩
  next => exact ⟨s, rfl⟩

/-- D.SEQ reads a defined code, whose string has at least two bytes (R109). -/
theorem execDSeq_answers (c : Code) : ∃ t, execDSeq c s = .next t := by
  unfold execDSeq
  split
  next hc =>
    obtain ⟨hclass, hitem, -⟩ := hc
    obtain ⟨-, -, hlow, hhigh⟩ := classify_seq (classify_of_fetchesClass hclass hitem)
    rw [elemPayload_itemElem] at hlow hhigh
    obtain ⟨⟨hrun, hmode, -⟩, -⟩ := hclass
    split
    next hnil =>
      have hlen := (((hinv hrun).engine.decompress hmode).length c.toNat hlow hhigh).1
      simp [hnil] at hlen
    next => exact ⟨_, rfl⟩
  next => exact ⟨s, rfl⟩

/-- In D_EMIT eng.oidx is within eng.obuf (R32). -/
theorem execDEmit_answers : ∃ t, execDEmit s = .next t := by
  unfold execDEmit
  split
  next hc =>
    obtain ⟨⟨hrun, hmode, hst⟩, -⟩ := hc
    split
    next hnone =>
      have hlt := ((hinv hrun).engine.decompress hmode).emitting hst
      exact absurd (List.getElem?_eq_none_iff.mp hnone) (Nat.not_le.mpr hlt)
    next => exact ⟨_, rfl⟩
  next => exact ⟨s, rfl⟩

theorem compressOp_answers {i : Instr} (hop : CompressOp i) : ∃ t, exec i s = .next t := by
  cases hop with
  | fetchSym v => exact guarded_answers _ _ _
  | fetchEos => exact guarded_answers _ _ _
  | matchHit => simp only [exec, execCMatchHit]; split <;> [split; skip] <;> exact ⟨_, rfl⟩
  | matchMiss => exact guarded_answers _ _ _
  | emitAdd => exact execCEmitAdd_answers hinv
  | emitFull => exact execCEmitFull_answers hinv
  | reset => exact guarded_answers _ _ _
  | final => exact execCFinal_answers hinv
  | eos => exact guarded_answers _ _ _

theorem decompressOp_answers {i : Instr} (hop : DecompressOp i) : ∃ t, exec i s = .next t := by
  cases hop with
  | eosIn => exact guarded_answers _ _ _
  | errFresh c => exact guarded_answers _ _ _
  | reset => exact guarded_answers _ _ _
  | errRange c => exact guarded_answers _ _ _
  | errOverflow c => exact guarded_answers _ _ _
  | lit b => exact guarded_answers _ _ _
  | seq c => exact execDSeq_answers hinv c
  | kwk c => simp only [exec, execDKwk]; split <;> [split; skip] <;> exact ⟨_, rfl⟩
  | emit => exact execDEmit_answers hinv
  | eosOut => exact guarded_answers _ _ _

theorem stageOp_answers {i : Instr} (hop : StageOp i) : ∃ t, exec i s = .next t := by
  cases hop with
  | reader hop => exact readerOp_answers hop s
  | compress hop => exact compressOp_answers hinv hop
  | decompress hop => exact decompressOp_answers hinv hop
  | writer hop => exact writerOp_answers hop s

end

theorem execStart_answers (hcap : 1 ≤ s.qcap) (m : Mode) : ∃ t, execStart m s = .next t := by
  rw [execStart, if_neg (Nat.ne_of_gt hcap)]
  split <;> exact ⟨_, rfl⟩

/-- From a state that meets the invariant the operation of any turn answers a next state. -/
theorem Inv.exec_answers (h : Inv s) {u : Turn} {i : Instr} (hop : TurnOp u i) : ∃ t, exec i s = .next t := by
  cases hop with
  | stage _ hop => exact stageOp_answers (fun hrun => (h.run hrun).1) hop
  | start m => exact execStart_answers h.capacity m
  | rst => exact ⟨_, rfl⟩
  | srcAnswer w k d =>
    rcases execHostSrcAnswer_eq k d s with heq | ⟨-, i, hdec, heq⟩
    · exact ⟨s, heq⟩
    · obtain ⟨t, ht⟩ := readerOp_answers (decodeSource_readerOp hdec) (s.offerSource (srcWord k d))
      exact ⟨t, heq.trans ht⟩
  | snkAnswer r q =>
    rcases execHostSnkAnswer_eq q s with heq | ⟨-, -, i, hdec, heq⟩
    · exact ⟨s, heq⟩
    · obtain ⟨t, ht⟩ := writerOp_answers (decodeWriter_writerOp hdec) (s.offerSink q)
      exact ⟨t, heq.trans ht⟩

theorem Inv.step_answers (h : Inv s) : ∃ t, step s = .next t := by
  unfold step
  rw [if_neg (Nat.ne_of_gt h.capacity)]
  split
  next i hdec => exact h.nextTurn.exec_answers (decode_opcode_turnOp hdec)
  next => exact ⟨_, rfl⟩

end Sys2Proof.Machine
end

section
/-! The statements on the machine's state: reset, the invariant, and who writes core.status, core.mode and the error
registers. -/

namespace Sys2Proof.Proofs

open Sys2Proof Sys2Proof.Machine

/-- Settles O49: a turn is RST, START, or ends as R128 or R149 says, and each keeps the invariant. -/
theorem everyStepKeepsInv : Obligations.EveryStepKeepsInv :=
  fun _ _ hinv hstep => (step_turnEffect hstep).inv hinv.nextTurn

/-- Settles O50: the operations that can fault are enabled only where the invariant gives them their operand. -/
theorem invNeverStops : Obligations.InvNeverStops :=
  fun _ hinv => hinv.step_answers

/-- Settles O42: only RST, START and the two ways a stage's step can end write core.status. -/
theorem statusWriters : Obligations.StatusWriters := by
  refine ⟨⟨rfl, rfl, rfl, rfl⟩, fun s t hstep => ?_⟩
  have heff := step_turnEffect hstep
  rw [← (nextTurn_same s).1]
  exact ⟨heff.status_change, fun hu => (hu ▸ heff).status_rst, fun m hu => (hu ▸ heff).status_start,
    fun hidle hrst hstart => heff.eq_of_not_running ⟨hrst, hstart⟩ hidle⟩

/-- Settles O43: of the turns in a running job only RST writes core.mode, and START outside one loads it. -/
theorem modeIsStable : Obligations.ModeIsStable := by
  refine ⟨⟨rfl, rfl⟩, fun s t hstep => ?_⟩
  have heff := step_turnEffect hstep
  rw [← (nextTurn_same s).1]
  exact ⟨heff.mode_of_running, fun m hidle hu => (hu ▸ heff).mode_start hidle⟩

/-- Settles O44: a turn keeps the error registers, ends in the abort of a running job, or is RST or START. -/
theorem errorRegistersHold : Obligations.ErrorRegistersHold := by
  refine ⟨⟨rfl, rfl, rfl, rfl⟩, ⟨rfl, rfl, rfl, rfl⟩, fun s t hstep => ?_⟩
  rw [← (nextTurn_same s).1]
  exact (step_turnEffect hstep).errors

/-- Settles O1: State.reset holds R37's values, and the ports read their encodings (R24). -/
theorem resetState : Obligations.ResetState :=
  ⟨rfl, rfl, rfl, rfl, rfl, rfl, rfl, rfl⟩

/-- Settles O2: nothing is written in any array, and the machine waits for START. -/
theorem resetMeetsInv : Obligations.ResetMeetsInv :=
  ⟨by decide, ⟨cellsWf_unwritten 0, cellsWf_unwritten 0, cellsWf_unwritten 0, cellsWf_unwritten 0⟩,
    .inl ⟨rfl, rfl, ⟨rfl, rfl, rfl⟩, ⟨rfl, rfl, rfl⟩⟩⟩

end Sys2Proof.Proofs
end

section
/-! SUPPORT. The packed stream bit by bit (20_memory.md R42, R43): which byte and which bit of it a stream bit is, and the
codes' bits in the stream of `packBytes`. -/

namespace Sys2Proof.Machine

/-! ## The bits of a byte stream -/

/-- Stream bit `k` is bit 7 - k mod 8 of byte k / 8, where there is such a byte (R42). -/
def streamBit (bs : List Byte) (k : Nat) : Option Bool := bs[k / 8]?.map (·.getLsbD (7 - k % 8))

theorem streamBit_eq_some_iff {bs : List Byte} {k : Nat} {v : Bool} :
    streamBit bs k = some v ↔ ∃ b, bs[k / 8]? = some b ∧ b.getLsbD (7 - k % 8) = v :=
  Option.map_eq_some_iff

theorem streamBit_cons_of_lt (b : Byte) (bs : List Byte) {k : Nat} (hk : k < 8) :
    streamBit (b :: bs) k = some (b.getLsbD (7 - k)) := by
  simp [streamBit, Nat.div_eq_of_lt hk, Nat.mod_eq_of_lt hk]

@[simp] theorem streamBit_cons_add_eight (b : Byte) (bs : List Byte) (k : Nat) :
    streamBit (b :: bs) (k + 8) = streamBit bs k := by
  simp [streamBit]

/-! ## The bits of a packed code -/

/-- `BitVec.getLsbD_append` at the width of a byte made of two halves. -/
theorem getLsbD_byte_append (high low : BitVec 4) (k : Nat) :
    (high ++ low : Byte).getLsbD k = if k < 4 then low.getLsbD k else high.getLsbD (k - 4) :=
  BitVec.getLsbD_append

/-- A code at an even position fills a byte and the high half of the next (R43). -/
theorem streamBit_code_even (a : Code) (low : BitVec 4) (bs : List Byte) {j : Nat} (hj : j < 12) :
    streamBit (a.extractLsb' 4 8 :: (a.extractLsb' 0 4 ++ low) :: bs) (11 - j) = some (a.getLsbD j) := by
  by_cases hhigh : 4 ≤ j
  · rw [streamBit_cons_of_lt _ _ (by omega)]
    simp [show 7 - (11 - j) = j - 4 by omega, show j - 4 < 8 by omega, show 4 + (j - 4) = j by omega]
  · rw [show 11 - j = (3 - j) + 8 by omega, streamBit_cons_add_eight, streamBit_cons_of_lt _ _ (by omega)]
    simp [getLsbD_byte_append, show 7 - (3 - j) = j + 4 by omega, show j < 4 by omega]

/-- A code at an odd position fills the low half of a byte and the next byte (R43). -/
theorem streamBit_code_odd (b : Code) (high : BitVec 4) (bs : List Byte) {j : Nat} (hj : j < 12) :
    streamBit ((high ++ b.extractLsb' 8 4) :: b.setWidth 8 :: bs) (15 - j) = some (b.getLsbD j) := by
  by_cases hhigh : 8 ≤ j
  · rw [streamBit_cons_of_lt _ _ (by omega)]
    simp [getLsbD_byte_append, show 7 - (15 - j) = j - 8 by omega, show j - 8 < 4 by omega,
      show 8 + (j - 8) = j by omega]
  · rw [show 15 - j = (7 - j) + 8 by omega, streamBit_cons_add_eight, streamBit_cons_of_lt _ _ (by omega)]
    simp [show 7 - (7 - j) = j by omega, show j < 8 by omega]

/-! ## The bits of the packed stream -/

theorem streamBit_packBytes_head (a : Code) (cs : List Code) {j : Nat} (hj : j < 12) :
    streamBit (packBytes (a :: cs)) (11 - j) = some (a.getLsbD j) := by
  cases cs <;> exact streamBit_code_even a _ _ hj

theorem streamBit_packBytes_second (a b : Code) (cs : List Code) {j : Nat} (hj : j < 12) :
    streamBit (packBytes (a :: b :: cs)) (12 + (11 - j)) = some (b.getLsbD j) := by
  rw [packBytes, show 12 + (11 - j) = (15 - j) + 8 by omega, streamBit_cons_add_eight]
  exact streamBit_code_odd b _ _ hj

/-- The first two codes take the stream's first 24 bits. -/
theorem streamBit_packBytes_add_pair (a b : Code) (cs : List Code) (k : Nat) :
    streamBit (packBytes (a :: b :: cs)) (k + 8 + 8 + 8) = streamBit (packBytes cs) k := by
  simp only [packBytes, streamBit_cons_add_eight]

/-- R42 for every code list, by induction on its pairs of codes. -/
theorem streamBit_packBytes {j : Nat} (hj : j < 12) (cs : List Code) (i : Nat) (c : Code) (hc : cs[i]? = some c) :
    streamBit (packBytes cs) (12 * i + (11 - j)) = some (c.getLsbD j) := by
  induction cs using packBytes.induct generalizing i with
  | case1 => simp at hc
  | case2 a =>
    obtain ⟨rfl, rfl⟩ : i = 0 ∧ a = c := by simpa [List.getElem?_singleton] using hc
    rw [Nat.mul_zero, Nat.zero_add]
    exact streamBit_packBytes_head a [] hj
  | case3 a b rest ih =>
    match i with
    | 0 =>
      obtain rfl : a = c := by simpa using hc
      rw [Nat.mul_zero, Nat.zero_add]
      exact streamBit_packBytes_head a _ hj
    | 1 =>
      obtain rfl : b = c := by simpa using hc
      exact streamBit_packBytes_second a b rest hj
    | i + 2 =>
      rw [show 12 * (i + 2) + (11 - j) = 12 * i + (11 - j) + 8 + 8 + 8 by omega, streamBit_packBytes_add_pair]
      exact ih i (by simpa using hc)

end Sys2Proof.Machine
end

section
/-! The statement on the packed stream's bit order (20_memory.md R42). -/

namespace Sys2Proof.Proofs

open Sys2Proof Sys2Proof.Machine

/-- Settles O51: the stream bit of every code's bit is that bit, by induction on the pairs `packBytes` packs. -/
theorem streamBitOrder : Obligations.StreamBitOrder :=
  fun cs i _ c hc hj => streamBit_eq_some_iff.mp (streamBit_packBytes hj cs i c hc)

end Sys2Proof.Proofs
end

section
/-! SUPPORT. The encoder over all operations (30_encoding.md R54, R61): the round trip of each. -/

namespace Sys2Proof.Laws.EncodingRoundTrip

/-- The family of Laws/PerInstr.lean covers every operation. -/
theorem statement_of_instr : ∀ i : Instr, Statement i
  | .qInit q => qInit q
  | .qPut q e => qPut q e
  | .qGet q => qGet q
  | .dictInit => dictInit
  | .dictFind n x => dictFind n x
  | .dictAdd n x => dictAdd n x
  | .dictReset => dictReset
  | .dAdd first rest => dAdd first rest
  | .rdRawByte b => rdRawByte b
  | .rdRawEnd => rdRawEnd
  | .rdSrcError m => rdSrcError m
  | .unpackByte b => unpackByte b
  | .unpackEnd => unpackEnd
  | .rdPut m => rdPut m
  | .rdEos m => rdEos m
  | .cFetchSym v => cFetchSym v
  | .cFetchEos => cFetchEos
  | .cMatchHit => cMatchHit
  | .cMatchMiss => cMatchMiss
  | .cEmitAdd => cEmitAdd
  | .cEmitFull => cEmitFull
  | .cReset => cReset
  | .cFinal => cFinal
  | .cEos => cEos
  | .dEosIn => dEosIn
  | .dErrFresh c => dErrFresh c
  | .dReset => dReset
  | .dErrRange c => dErrRange c
  | .dErrOverflow c => dErrOverflow c
  | .dLit b => dLit b
  | .dSeq c => dSeq c
  | .dKwk c => dKwk c
  | .dEmit => dEmit
  | .dEosOut => dEosOut
  | .packCode c => packCode c
  | .packEos => packEos
  | .packEmit r => packEmit r
  | .packFlush r => packFlush r
  | .wrRawByte v => wrRawByte v
  | .wrRawEos => wrRawEos
  | .wrRawEmit r => wrRawEmit r
  | .start m => start m
  | .rst => rst
  | .done => done
  | .hostSrcAnswer kind data => hostSrcAnswer kind data
  | .hostSnkAnswer r => hostSnkAnswer r

end Sys2Proof.Laws.EncodingRoundTrip
end

section
/-! SUPPORT. The decoder over the machine's states (30_encoding.md R61, R62): what an agent's tuple decodes to where its
mode, its FSM state and its item are known. -/

namespace Sys2Proof

/-- The operation of an element's class, `c` being the element's payload (R62). -/
def DClass.instr (c : Code) : DClass → Instr
  | .eosIn => .dEosIn
  | .errFresh => .dErrFresh c
  | .reset => .dReset
  | .errRange => .dErrRange c
  | .errOverflow => .dErrOverflow c
  | .lit => .dLit (payloadByte c)
  | .seq => .dSeq c
  | .kwk => .dKwk c

theorem decodeClass_eq_instr (e : Elem13) (g : Guard) :
    decodeClass e g = (classify e g.fresh g.prevEmpty g.nextCode).instr (elemPayload e) := by
  unfold decodeClass
  cases classify e g.fresh g.prevEmpty g.nextCode <;> rfl

end Sys2Proof

namespace Sys2Proof.Machine

variable {s : State}

/-! ## READER -/

theorem decode_opcode_rdRead {w : SrcWord} (hst : s.rd.state = .read) (hresp : s.host.src.head? = some w) :
    decode (s.opcode .reader) = decodeSource s.core.mode w := by
  rw [decode_opcode_reader, hst, State.sourceNext, hresp, decodeReader]

theorem decode_opcode_rdAt {st : RdState} (hst : s.rd.state = st) :
    decode (s.opcode .reader) = decodeReader s.core.mode st s.sourceNext := by
  rw [decode_opcode_reader, hst]

/-! ## ENGINE -/

theorem decode_opcode_compressAt {st : EngState} (hmode : s.core.mode = .compress) (hst : s.eng.state = st) :
    decode (s.opcode .engine) = decodeCompress st (s.peek .a) s.guard := by
  rw [decode_opcode_engine, hmode, hst]

theorem decode_opcode_decompressAt {st : EngState} (hmode : s.core.mode = .decompress) (hst : s.eng.state = st) :
    decode (s.opcode .engine) = decodeDecompress st (s.peek .a) s.guard := by
  rw [decode_opcode_engine, hmode, hst]

/-- In D_FETCH the class of the element got selects the operation (R62). -/
theorem decode_opcode_dFetch {e : Elem13} (hmode : s.core.mode = .decompress) (hst : s.eng.state = .dFetch)
    (hpeek : s.peek .a = some e) :
    decode (s.opcode .engine) =
      .ok ((classify e s.eng.fresh s.eng.prev.isEmpty s.eng.nextCode).instr (elemPayload e)) := by
  rw [decode_opcode_decompressAt hmode hst, hpeek, decodeDecompress, decodeClass_eq_instr, State.guard]

/-! ## WRITER -/

theorem decode_opcode_wrAt {st : WrState} (hst : s.wr.state = st) :
    decode (s.opcode .writer) = decodeWriter s.core.mode st (s.peek .b) (s.sinkNext.map sinkBit) := by
  rw [decode_opcode_writer, hst]

theorem decode_opcode_wrGet {m : Mode} {e : Elem13} (hmode : s.core.mode = m) (hst : s.wr.state = .get)
    (hpeek : s.peek .b = some e) :
    decode (s.opcode .writer) = decodeWriter m .get (some e) (s.sinkNext.map sinkBit) := by
  rw [decode_opcode_wrAt hst, hmode, hpeek]

theorem decode_opcode_wrAnswered {m : Mode} {st : WrState} {r : SinkAnswer} (hmode : s.core.mode = m)
    (hst : s.wr.state = st) (hanswer : s.host.snk.head? = some r) :
    decode (s.opcode .writer) = decodeWriter m st (s.peek .b) (some (sinkBit r)) := by
  rw [decode_opcode_wrAt hst, hmode, State.sinkNext, hanswer, Option.map_some]

/-! ## The states without a step -/

theorem decode_opcode_rdNoStep (hst : s.rd.state = .idle ∨ s.rd.state = .done) :
    decode (s.opcode .reader) = .error .stateHasNoStep := by
  obtain hst | hst := hst <;> exact decode_opcode_rdAt hst

theorem decode_opcode_engNoStep (hst : s.eng.state = .idle ∨ s.eng.state = .done) :
    decode (s.opcode .engine) = .error .stateHasNoStep := by
  cases hmode : s.core.mode with
  | compress => obtain hst | hst := hst <;> exact decode_opcode_compressAt hmode hst
  | decompress => obtain hst | hst := hst <;> exact decode_opcode_decompressAt hmode hst

theorem decode_opcode_wrNoStep (hst : s.wr.state = .idle ∨ s.wr.state = .done) :
    decode (s.opcode .writer) = .error .stateHasNoStep := by
  obtain hst | hst := hst <;> exact decode_opcode_wrAt hst

end Sys2Proof.Machine
end

section
/-! SUPPORT. Unpacking the packed stream (20_memory.md R43, 42_bitpack.md R93, R94). -/

namespace Sys2Proof.Machine

/-- The code at an even position, put together from its byte and the high half of the next. -/
theorem code_of_packed_even (a : Code) (low : BitVec 4) :
    a.extractLsb' 4 8 ++ (a.extractLsb' 0 4 ++ low : Byte).extractLsb' 4 4 = a := by
  rw [BitVec.extractLsb'_append_eq_left]
  exact BitVec.extractLsb'_append_extractLsb' (w := 8) (len := 4)

/-- The code at an odd position, put together from the low half of a byte and the next byte. -/
theorem code_of_packed_odd (b : Code) (high : BitVec 4) :
    (high ++ b.extractLsb' 8 4 : Byte).extractLsb' 0 4 ++ b.setWidth 8 = b := by
  rw [BitVec.extractLsb'_append_eq_right, BitVec.setWidth_eq_extractLsb' (by decide)]
  exact BitVec.extractLsb'_append_extractLsb' (w := 4) (len := 8)

/-- R58, by induction on the pairs `packBytes` packs: two codes fill three bytes. -/
theorem packBytes_length (cs : List Code) : (packBytes cs).length = (12 * cs.length + 7) / 8 := by
  induction cs using packBytes.induct with
  | case1 => rfl
  | case2 a => simp [packBytes]
  | case3 a b rest ih =>
    simp only [packBytes, List.length_cons, ih]
    omega

/-- R94, by the same induction. -/
theorem unpackCodes_packBytes (cs : List Code) : unpackCodes (packBytes cs) = cs := by
  induction cs using packBytes.induct with
  | case1 => rfl
  | case2 a => rw [packBytes, unpackCodes, code_of_packed_even]
  | case3 a b rest ih => rw [packBytes, unpackCodes, code_of_packed_even, code_of_packed_odd, ih]

end Sys2Proof.Machine
end

section
/-! The statements on the encodings (30_encoding.md). -/

namespace Sys2Proof.Proofs

open Sys2Proof Sys2Proof.Machine

/-- Settles O41: every operation's round trip, and the encoder's answer for each operation. -/
theorem encodingRoundTrips : Obligations.EncodingRoundTrips := by
  refine fun i => ⟨Laws.EncodingRoundTrip.statement_of_instr i, ?_⟩
  cases i <;> simp [encode]

/-- Settles O52: by induction on the pairs `packBytes` packs. -/
theorem packedStream : Obligations.PackedStream :=
  fun cs => ⟨packBytes_length cs, unpackCodes_packBytes cs⟩

/-- Settles O37: the decoder evaluated on each word. -/
theorem wordsDecode : Obligations.WordsDecode :=
  ⟨rfl, rfl, rfl, rfl, rfl, rfl, rfl, rfl, rfl, rfl, rfl, rfl, rfl⟩

/-- Settles O39: agent by agent, the decoder's answer in each state of the map. -/
theorem operationMap : Obligations.OperationMap := by
  intro s
  refine ⟨fun w hst hresp => ?_, decode_opcode_rdAt, decode_opcode_rdAt, fun hmode => ?_, fun hmode => ?_,
    fun m => ?_, rfl, fun w hkind => if_neg hkind, fun r => ?_, fun hst i => ?_, fun hst i => ?_, fun hst i => ?_⟩
  · rw [decode_opcode_rdRead hst hresp]
    unfold decodeSource
    exact ⟨fun hkind => by rw [hkind]; rfl, fun hkind => by rw [hkind]; rfl, fun hkind => by rw [hkind]; rfl⟩
  · refine ⟨fun e hst hpeek => ?_, fun hst => ?_, decode_opcode_compressAt hmode, decode_opcode_compressAt hmode,
      decode_opcode_compressAt hmode, decode_opcode_compressAt hmode, fun e => decode_opcode_wrGet hmode,
      fun r hst hanswer => ?_, fun r hst hanswer => ?_⟩
    · rw [decode_opcode_compressAt hmode hst, hpeek, decodeCompress]
    · rw [decode_opcode_compressAt hmode hst, decodeCompress, State.guard]
      cases s.dictFind s.eng.cur s.eng.sym <;> rfl
    · rw [decode_opcode_wrAnswered hmode hst hanswer, decodeWriter, sinkOfBit_sinkBit]
    · rw [decode_opcode_wrAnswered hmode hst hanswer, decodeWriter, sinkOfBit_sinkBit]
  · refine ⟨fun e hst hpeek => ⟨_, decode_opcode_dFetch hmode hst hpeek⟩, decode_opcode_decompressAt hmode,
      decode_opcode_decompressAt hmode, fun e => decode_opcode_wrGet hmode, fun r hst hanswer => ?_⟩
    rw [decode_opcode_wrAnswered hmode hst hanswer, decodeWriter, sinkOfBit_sinkBit]
  · rw [State.opcode, decode, modeOfBit_modeBit]
  · rw [State.opcode, decode, sinkOfBit_sinkBit]
  · simp [decode_opcode_rdNoStep hst]
  · simp [decode_opcode_engNoStep hst]
  · simp [decode_opcode_wrNoStep hst]

/-- Settles O40: the lines of `classify` in their order; where none holds, c is at least and at most next_code. -/
theorem classesOfFetch : Obligations.ClassesOfFetch := by
  intro s e hmode hst hpeek
  rw [decode_opcode_dFetch hmode hst hpeek]
  simp only [classify, List.isEmpty_iff, List.isEmpty_eq_false_iff]
  refine ⟨fun h1 => ?_, fun h1 h2 => ?_, fun h1 h2 h3 => ?_, fun h1 h2 h3 h4 => ?_, fun h1 h2 h3 h4 h5 => ?_,
    fun h1 h2 h3 h4 h5 h6 => ?_, fun h1 h2 h3 h4 h5 h6 h7 => ?_, fun h1 h2 h3 h4 h5 h6 h7 => ⟨?_, ?_⟩⟩
  · rw [if_pos h1, DClass.instr]
  · rw [if_neg h1, if_pos h2, DClass.instr]
  · rw [if_neg h1, if_neg h2, if_pos h3, DClass.instr]
  · rw [if_neg h1, if_neg h2, if_neg h3, if_pos h4, DClass.instr]
  · rw [if_neg h1, if_neg h2, if_neg h3, if_neg h4, if_pos h5, DClass.instr]
  · rw [if_neg h1, if_neg h2, if_neg h3, if_neg h4, if_neg h5, if_pos h6, DClass.instr]
  · rw [if_neg h1, if_neg h2, if_neg h3, if_neg h4, if_neg h5, if_neg h6, if_pos h7, DClass.instr]
  · rw [if_neg h1, if_neg h2, if_neg h3, if_neg h4, if_neg h5, if_neg h6, if_neg h7, DClass.instr]
  · have hle : ¬ s.eng.nextCode.toNat < (elemPayload e).toNat := fun hlt => h4 ⟨by omega, .inr hlt⟩
    omega

end Sys2Proof.Proofs
end

section
/-! SUPPORT. The queue rows run on their own (40_queue.md): what each row answers, enabled and blocked,
and what runs of puts and runs of gets make of a queue that meets R27. -/

namespace Sys2Proof.Machine

/-! ## The answer of each row -/

theorem exec_qInit {s : State} (hcap : 1 ≤ s.qcap) (q : QueueId) : exec (.qInit q) s = .next (s.qInit q) :=
  if_neg (Nat.ne_of_gt hcap)

theorem exec_qPut {s : State} {q : QueueId} (hput : canPut s q) (e : Elem13) :
    exec (.qPut q e) s = .next (s.qPut q e) :=
  if_pos hput

theorem exec_qPut_blocked {s : State} {q : QueueId} (hput : ¬ canPut s q) (e : Elem13) :
    exec (.qPut q e) s = .next s :=
  if_neg hput

theorem exec_qGet {s : State} {q : QueueId} (hget : canGet s q) :
    exec (.qGet q) s = .next ((s.qGet q).setRet (.elem (s.front q))) :=
  if_pos hget

theorem exec_qGet_blocked {s : State} {q : QueueId} (hget : ¬ canGet s q) : exec (.qGet q) s = .next s :=
  if_neg hget

theorem execAll_cons {i : Instr} {s t : State} (h : exec i s = .next t) (is : List Instr) :
    execAll (i :: is) s = execAll is t := by
  simp only [execAll, h]

/-! ## The queue each row leaves -/

theorem qInit_queue_other (s : State) {id other : QueueId} (h : other ≠ id) :
    (s.qInit id).queue other = s.queue other :=
  State.setQueue_queue_other s h _

@[simp] theorem setRet_queue (s : State) (r : SubResult) (id : QueueId) : (s.setRet r).queue id = s.queue id := by
  cases id <;> rfl

@[simp] theorem contents_setRet (s : State) (r : SubResult) (id : QueueId) :
    (s.setRet r).contents id = s.contents id :=
  contents_congr (setRet_queue s r id) rfl

/-- A put changes what is read at the tail's slot and nowhere else (R69). -/
theorem afterPut_slot (n : Nat) (q : Queue) (e : Elem13) (id : QueueId) (k : Nat) :
    (q.afterPut n e).slot id k = if k = q.tail then e else q.slot id k := by
  split
  · simp [Queue.slot, Queue.afterPut, Slots.write, *]
  · simp [Queue.slot, Queue.afterPut, Slots.write, lookupCell_insertCell_other _ ‹_›]

/-! ## With one slot a queue is full or empty (R76) -/

section
variable {s : State} {q : QueueId} (hcap : s.qcap = 1) (h : QueueInv s.qcap (s.queue q))
include hcap h

theorem canPut_iff_not_canGet : canPut s q ↔ ¬ canGet s q := by
  have := h.counts
  unfold canPut canGet
  omega

theorem qPut_fills_single (hput : canPut s q) (e : Elem13) : ¬ canPut (s.qPut q e) q ∧ canGet (s.qPut q e) q := by
  have := h.counts
  unfold canPut canGet at *
  simp only [qPut_queue]
  omega

theorem qGet_empties_single (hget : canGet s q) : canPut (s.qGet q) q ∧ ¬ canGet (s.qGet q) q := by
  have := h.counts
  unfold canPut canGet at *
  simp only [qGet_queue]
  omega

end

/-! ## Runs of puts and of gets (R72) -/

/-- Putting a list that fits appends it to the contents: by induction on the list, with R27 kept by each put. -/
theorem execAll_qPut (q : QueueId) (es : List Elem13) :
    ∀ s : State, QueueInv s.qcap (s.queue q) → es.length ≤ (s.queue q).free →
      ∃ t, execAll (es.map (Instr.qPut q)) s = .next t ∧ QueueInv t.qcap (t.queue q) ∧
        t.contents q = s.contents q ++ es := by
  induction es with
  | nil => exact fun s h _ => ⟨s, rfl, h, (List.append_nil _).symm⟩
  | cons e es ih =>
    intro s h hroom
    have hput : canPut s q := Nat.zero_lt_of_lt hroom
    have hroom' : es.length ≤ ((s.qPut q e).queue q).free := by
      rw [qPut_queue]
      exact Nat.le_sub_one_of_lt hroom
    obtain ⟨t, hrun, ht, hcontents⟩ := ih (s.qPut q e)
      (by rw [State.qPut_qcap]; exact queueInv_qPut h hput e) hroom'
    refine ⟨t, ?_, ht, ?_⟩
    · rw [List.map_cons, execAll_cons (exec_qPut hput e), hrun]
    · rw [hcontents, contents_qPut h hput, List.append_assoc, List.singleton_append]

theorem canGet_of_contents {s : State} {q : QueueId} {k : Nat} {e : Elem13} (he : (s.contents q)[k]? = some e) :
    canGet s q := by
  obtain ⟨hk, -⟩ := List.getElem?_eq_some_iff.mp he
  rw [contents_length] at hk
  exact Nat.zero_lt_of_lt hk

/-- The (k+1)-th get returns element k of the contents: by induction on k, each get taking the first element. -/
theorem execAll_qGet (q : QueueId) (k : Nat) :
    ∀ (s : State) (e : Elem13), QueueInv s.qcap (s.queue q) → (s.contents q)[k]? = some e →
      ∃ t, execAll (List.replicate (k + 1) (.qGet q)) s = .next t ∧ t.ret = .elem e ∧
        t.contents q = (s.contents q).drop (k + 1) := by
  induction k with
  | zero =>
    intro s e h he
    have hget := canGet_of_contents he
    rw [contents_qGet h hget] at he ⊢
    obtain rfl : s.front q = e := Option.some.inj he
    exact ⟨_, execAll_cons (exec_qGet hget) [], rfl, contents_setRet _ _ q⟩
  | succ k ih =>
    intro s e h he
    have hget := canGet_of_contents he
    rw [contents_qGet h hget] at he ⊢
    obtain ⟨t, hrun, hret, hcontents⟩ := ih ((s.qGet q).setRet (.elem (s.front q))) e
      (by rw [State.setRet_qcap, State.qGet_qcap, setRet_queue]; exact queueInv_qGet h hget) (by rwa [contents_setRet])
    exact ⟨t, (execAll_cons (exec_qGet hget) _).trans hrun, hret, by rw [hcontents, contents_setRet]; rfl⟩

end Sys2Proof.Machine
end

section
/-! The statements on the queues (40_queue.md). -/

namespace Sys2Proof.Proofs

open Sys2Proof Sys2Proof.Machine

/-- Settles O11: the puts append the list to the contents, and the gets take the contents from the front. -/
theorem queueIsFifo : Obligations.QueueIsFifo := by
  intro s q es h hroom
  obtain ⟨full, hputs, hfull, hcontents⟩ := execAll_qPut q es s h hroom
  refine ⟨full, hputs, fun k e he => ?_⟩
  rw [← hcontents] at he ⊢
  exact execAll_qGet q k full e hfull he

/-- Settles O7: the row answers Q.INIT's state, whose fields `qInit_queue` and the frame lemmas give. -/
theorem qInitEmpties : Obligations.QInitEmpties := by
  intro s q hcap
  refine ⟨s.qInit q, exec_qInit hcap q, ?_, fun other hother => qInit_queue_other s hother, ?_⟩
  · simp [qInit_queue]
  · simp

/-- Settles O8: a put is enabled exactly where free > 0, and the written slot is the tail's. -/
theorem qPutInserts : Obligations.QPutInserts :=
  fun s q e => ⟨fun hfree => ⟨exec_qPut hfree e, afterPut_slot s.qcap (s.queue q) e q⟩,
    fun hfull => exec_qPut_blocked (Nat.not_lt.mpr (Nat.le_of_eq hfull)) e⟩

/-- Settles O9: a get is enabled exactly where filled > 0. -/
theorem qGetRemoves : Obligations.QGetRemoves :=
  fun _ _ => ⟨exec_qGet, fun hempty => exec_qGet_blocked (Nat.not_lt.mpr (Nat.le_of_eq hempty))⟩

/-- Settles O10: with free + filled = 1 one of the two counts is 1 and the other 0. -/
theorem capacityOneAlternates : Obligations.CapacityOneAlternates := by
  intro s q hcap h
  refine ⟨canPut_iff_not_canGet hcap h, fun hput e => ?_, fun hget => ?_⟩
  · exact ⟨s.qPut q e, exec_qPut hput e, qPut_fills_single hcap h hput e⟩
  · refine ⟨_, exec_qGet hget, ?_⟩
    simpa only [canPut, canGet, setRet_queue] using qGet_empties_single hcap h hget

end Sys2Proof.Proofs
end

section
/-! SUPPORT. The dictionary rows run on their own (41_dictionary.md): what each row answers, and that an empty
dictionary has no entry to find. -/

namespace Sys2Proof.Machine

variable {s : State}

theorem exec_dictFind_hit {n : Node} {x : Byte} {k : Code} (hfind : s.dictFind n x = some k) :
    exec (.dictFind n x) s = .next (s.setRet (.hit k)) := by
  simp only [exec, execDictFind, hfind]

theorem exec_dictFind_miss {n : Node} {x : Byte} (hfind : s.dictFind n x = none) :
    exec (.dictFind n x) s = .next (s.setRet .miss) := by
  simp only [exec, execDictFind, hfind]

theorem exec_dictAdd (hn : s.eng.nextCode.toNat ≤ 4095) (c : Code) (x : Byte) :
    exec (.dictAdd c x) s = .next ((s.dictAdd c x).setRet (.newCode (s.eng.nextCode.setWidth 12))) := by
  rw [← BitVec.ofNat_toNat]
  exact if_pos hn

/-- A HIT is a code from 257 to next_code - 1, and at next_code = 257 there is none (R80, R83). -/
theorem dictFind_empty (hn : s.eng.nextCode.toNat = 257) (c : Code) (x : Byte) : s.dictFind (.code c) x = none := by
  refine Option.eq_none_iff_forall_ne_some.mpr fun k hfind => ?_
  obtain ⟨hlow, hhigh, -⟩ := dictFind_some (hn.trans_le (by decide)) hfind
  omega

end Sys2Proof.Machine
end

section
/-! The statements on the dictionary (41_dictionary.md). -/

namespace Sys2Proof.Proofs

open Sys2Proof Sys2Proof.Machine

/-- Settles O13: the root's answer by definition; at a code, a hit is an entry below next_code and a miss rules every
such entry out. -/
theorem dictFindAnswers : Obligations.DictFindAnswers := by
  intro s n x hn
  cases n with
  | root => exact ⟨.hit (zextCode x), exec_dictFind_hit rfl, fun _ => rfl, nofun⟩
  | code c =>
    cases hfind : s.dictFind (.code c) x with
    | none =>
      refine ⟨.miss, exec_dictFind_miss hfind, nofun, ?_⟩
      rintro _ ⟨⟩
      exact ⟨fun j hlow hhigh hentry => absurd hentry (dictFind_none hfind hlow hhigh), fun _ => rfl⟩
    | some k =>
      refine ⟨.hit k, exec_dictFind_hit hfind, nofun, ?_⟩
      rintro _ ⟨⟩
      obtain ⟨hlow, hhigh, hentry⟩ := dictFind_some hn hfind
      exact ⟨fun _ _ _ _ => ⟨k, rfl, hlow, hhigh, hentry⟩, fun hno => absurd hentry (hno k.toNat hlow hhigh)⟩

/-- Settles O12: both rows answer the state with next_code = 257, where the dictionary is empty. -/
theorem dictInitAndReset : Obligations.DictInitAndReset :=
  fun _ => ⟨rfl, rfl, dictFind_empty rfl⟩

/-- Settles O14: the row answers `State.dictAdd`'s state with the old next_code returned, and next_code does not wrap. -/
theorem dictAddWrites : Obligations.DictAddWrites :=
  fun s c x hn => ⟨_, exec_dictAdd hn c x, rfl, dictAdd_nextCode hn c x, dictAt_dictAdd s c x⟩

end Sys2Proof.Proofs
end

section
/-! SUPPORT. The bit packer as a function of the codes it gets (42_bitpack.md R87 to R90): from an empty buffer it
writes R43's stream (R93). -/

namespace Sys2Proof.Machine

/-- The bytes the packer writes from the buffer `(acc, nbits)` on, `cs` being the codes it gets before EOS. -/
def packFrom (acc : BitBuf) (nbits : BitCount) (cs : List Code) : List Byte :=
  if 8 ≤ nbits.toNat then packedByte acc nbits :: packFrom (keepLow acc (nbits - 8)) (nbits - 8) cs
  else match cs with
    | [] => if 0 < nbits.toNat then [paddedByte acc nbits] else []
    | c :: cs => packFrom (pushCode acc c) (nbits + 12) cs
termination_by (cs.length, nbits.toNat)
decreasing_by
  · exact Prod.Lex.right _ (by bv_omega)
  · exact Prod.Lex.left _ _ (Nat.lt_succ_self _)

theorem packFrom_emit {nbits : BitCount} (h : 8 ≤ nbits.toNat) (acc : BitBuf) (cs : List Code) :
    packFrom acc nbits cs = packedByte acc nbits :: packFrom (keepLow acc (nbits - 8)) (nbits - 8) cs := by
  rw [packFrom.eq_def, if_pos h]

theorem packFrom_take {nbits : BitCount} (h : nbits.toNat < 8) (acc : BitBuf) (c : Code) (cs : List Code) :
    packFrom acc nbits (c :: cs) = packFrom (pushCode acc c) (nbits + 12) cs := by
  rw [packFrom.eq_def, if_neg (Nat.not_le.mpr h)]

theorem packFrom_nil {nbits : BitCount} (h : nbits.toNat < 8) (acc : BitBuf) :
    packFrom acc nbits [] = if 0 < nbits.toNat then [paddedByte acc nbits] else [] := by
  rw [packFrom.eq_def, if_neg (Nat.not_le.mpr h)]

/-! ## The bits of the packer's words -/

theorem getLsbD_keepLow (acc : BitBuf) {nbits : BitCount} (h : nbits.toNat ≤ 16) (i : Nat) :
    (keepLow acc nbits).getLsbD i = (decide (i < nbits.toNat) && acc.getLsbD i) := by
  simp only [BitVec.getLsbD, keepLow_toNat acc h, Nat.testBit_mod_two_pow]

theorem getLsbD_packedByte (acc : BitBuf) (nbits : BitCount) (i : Nat) :
    (packedByte acc nbits).getLsbD i = (decide (i < 8) && acc.getLsbD ((nbits - 8).toNat + i)) := by
  rw [packedByte, BitVec.getLsbD_setWidth, BitVec.getLsbD_ushiftRight]

theorem getLsbD_pushCode (acc : BitBuf) (c : Code) {i : Nat} (hi : i < 16) :
    (pushCode acc c).getLsbD i = if i < 12 then c.getLsbD i else acc.getLsbD (i - 12) := by
  rw [pushCode, BitVec.getLsbD_or, BitVec.getLsbD_shiftLeft, BitVec.getLsbD_setWidth]
  by_cases h : i < 12
  · simp [h, hi]
  · simp only [h, hi, BitVec.getLsbD_of_ge c i (Nat.not_lt.mp h), decide_true, decide_false, Bool.not_false,
      Bool.true_and, Bool.and_false, Bool.or_false, if_false]

/-! ## The packer's stream -/

/-- A code taken into an empty buffer leaves a byte and four bits over. -/
theorem packFrom_even (a : Code) (cs : List Code) :
    packFrom 0 0 (a :: cs) = a.extractLsb' 4 8 :: packFrom ((a.extractLsb' 0 4).setWidth 16) 4 cs := by
  have hbyte : packedByte (pushCode 0 a) 12 = a.extractLsb' 4 8 := by
    refine BitVec.eq_of_getLsbD_eq fun i hi => ?_
    rw [getLsbD_packedByte, show (12 - 8 : BitCount).toNat = 4 from rfl, getLsbD_pushCode _ _ (by omega),
      if_pos (by omega), BitVec.getLsbD_extractLsb']
  have hrest : keepLow (pushCode 0 a) 4 = (a.extractLsb' 0 4).setWidth 16 := by
    refine BitVec.eq_of_getLsbD_eq fun i hi => ?_
    rw [getLsbD_keepLow _ (by decide), getLsbD_pushCode _ _ hi]
    by_cases h : i < 4
    · simp [h, hi, show i < 12 by omega]
    · simp [h]
  rw [packFrom_take (by decide), packFrom_emit (by decide)]
  exact congrArg₂ _ hbyte (congrArg (packFrom · 4 cs) hrest)

/-- A code taken onto four bits leaves two bytes and an empty buffer. -/
theorem packFrom_odd (low : BitVec 4) (b : Code) (cs : List Code) :
    packFrom (low.setWidth 16) 4 (b :: cs) = (low ++ b.extractLsb' 8 4) :: b.setWidth 8 :: packFrom 0 0 cs := by
  have hfirst : packedByte (pushCode (low.setWidth 16) b) 16 = low ++ b.extractLsb' 8 4 := by
    refine BitVec.eq_of_getLsbD_eq fun i hi => ?_
    rw [getLsbD_packedByte, show (16 - 8 : BitCount).toNat = 8 from rfl, getLsbD_pushCode _ _ (by omega),
      getLsbD_byte_append]
    by_cases h : i < 4
    · simp [h, hi, show 8 + i < 12 by omega]
    · simp [h, hi, show ¬ 8 + i < 12 by omega, show 8 + i - 12 = i - 4 by omega, show i - 4 < 16 by omega]
  have hsecond : packedByte (keepLow (pushCode (low.setWidth 16) b) 8) 8 = b.setWidth 8 := by
    refine BitVec.eq_of_getLsbD_eq fun i hi => ?_
    rw [getLsbD_packedByte, show (8 - 8 : BitCount).toNat + i = i from Nat.zero_add i,
      getLsbD_keepLow _ (by decide), getLsbD_pushCode _ _ (by omega), if_pos (by omega)]
    simp [hi]
  have hrest : keepLow (keepLow (pushCode (low.setWidth 16) b) 8) 0 = 0 := by
    refine BitVec.eq_of_toNat_eq ?_
    rw [keepLow_toNat _ (by decide)]
    exact Nat.mod_one _
  rw [packFrom_take (by decide), packFrom_emit (by decide), packFrom_emit (by decide)]
  exact congrArg₂ _ hfirst (congrArg₂ _ hsecond (congrArg (packFrom · 0 cs) hrest))

/-- At EOS four bits left over are padded with zeros. -/
theorem packFrom_last (low : BitVec 4) : packFrom (low.setWidth 16) 4 [] = [low ++ 0#4] := by
  rw [packFrom_nil (by decide), if_pos (by decide)]
  refine congrArg (fun b : Byte => [b]) (BitVec.eq_of_getLsbD_eq fun i hi => ?_)
  rw [getLsbD_byte_append, paddedByte, show (8 - 4 : BitCount).toNat = 4 from rfl]
  by_cases h : i < 4
  · simp [h]
  · simp [h, hi]

/-- From an empty buffer the packer writes R43's stream, by induction on the pairs `packBytes` packs. -/
theorem packFrom_eq_packBytes (cs : List Code) : packFrom 0 0 cs = packBytes cs := by
  induction cs using packBytes.induct with
  | case1 => rw [packFrom_nil (by decide), packBytes, if_neg (by decide)]
  | case2 a => rw [packFrom_even, packFrom_last, packBytes]
  | case3 a b rest ih => rw [packFrom_even, packFrom_odd, ih, packBytes]

end Sys2Proof.Machine
end

section
/-! SUPPORT. Runs of stage turns: what every operation of a stage keeps of a state, a run of stage turns keeps. -/

namespace Sys2Proof.Machine

/-! ## The schedule is no stage's (log 1) -/

@[simp] theorem sourceRead_turns (s : State) : s.sourceRead.host.turns = s.host.turns := rfl

@[simp] theorem sinkWrite_turns (s : State) (b : Byte) (r : SinkAnswer) :
    (s.sinkWrite b r).host.turns = s.host.turns := by
  cases r <;> rfl

theorem turns_of_guarded {c : Prop} {s t u : State} (h : t = s ∨ (c ∧ t = u))
    (hu : u.host.turns = s.host.turns) : t.host.turns = s.host.turns := by
  rcases h with rfl | ⟨-, rfl⟩
  · rfl
  · exact hu

theorem readerOp_turns {i : Instr} {s t : State} (hop : ReaderOp i) (h : exec i s = .next t) :
    t.host.turns = s.host.turns := by
  cases hop with
  | rawByte b => exact turns_of_guarded (execRdRawByte_next h) (by simp)
  | rawEnd => exact turns_of_guarded (execRdRawEnd_next h) (by simp)
  | srcError m => exact turns_of_guarded (execRdSrcError_next h) (by simp)
  | unpackByte b => exact turns_of_guarded (execUnpackByte_next h) (by simp)
  | unpackEnd => exact turns_of_guarded (execUnpackEnd_next h) (by simp)
  | put m => exact turns_of_guarded (execRdPut_next h) (by simp)
  | eos m => exact turns_of_guarded (execRdEos_next h) (by simp)

theorem compressOp_host {i : Instr} {s t : State} (hop : CompressOp i) (h : exec i s = .next t) : t.host = s.host := by
  cases hop with
  | fetchSym v => rcases execCFetchSym_next h with rfl | ⟨-, rfl⟩ <;> simp
  | fetchEos => rcases execCFetchEos_next h with rfl | ⟨-, rfl⟩ <;> simp
  | matchHit => rcases execCMatchHit_next h with rfl | ⟨_, -, rfl⟩ <;> simp
  | matchMiss => rcases execCMatchMiss_next h with rfl | ⟨-, rfl⟩ <;> simp
  | emitAdd => rcases execCEmitAdd_next h with rfl | ⟨_, -, -, rfl⟩ <;> simp
  | emitFull => rcases execCEmitFull_next h with rfl | ⟨_, -, -, rfl⟩ <;> simp
  | reset => rcases execCReset_next h with rfl | ⟨-, rfl⟩ <;> simp
  | final => rcases execCFinal_next h with rfl | ⟨_, -, -, rfl⟩ <;> simp
  | eos => rcases execCEos_next h with rfl | ⟨-, rfl⟩ <;> simp

theorem decompressOp_host {i : Instr} {s t : State} (hop : DecompressOp i) (h : exec i s = .next t) :
    t.host = s.host := by
  cases hop with
  | eosIn => rcases execDEosIn_next h with rfl | ⟨-, rfl⟩ <;> simp
  | errFresh c => rcases execDErrFresh_next h with rfl | ⟨-, rfl⟩ <;> simp
  | reset => rcases execDReset_next h with rfl | ⟨-, rfl⟩ <;> simp
  | errRange c => rcases execDErrRange_next h with rfl | ⟨-, rfl⟩ <;> simp
  | errOverflow c => rcases execDErrOverflow_next h with rfl | ⟨-, rfl⟩ <;> simp
  | lit b => rcases execDLit_next h with rfl | ⟨-, rfl⟩ <;> simp
  | seq c => rcases execDSeq_next h with rfl | ⟨_, _, -, -, rfl⟩ <;> simp
  | kwk c => rcases execDKwk_next h with rfl | ⟨_, _, -, -, rfl⟩ <;> simp
  | emit => rcases execDEmit_next h with rfl | ⟨_, -, -, rfl⟩ <;> simp
  | eosOut => rcases execDEosOut_next h with rfl | ⟨-, rfl⟩ <;> simp

theorem writerOp_turns {i : Instr} {s t : State} (hop : WriterOp i) (h : exec i s = .next t) :
    t.host.turns = s.host.turns := by
  cases hop with
  | packCode c => exact turns_of_guarded (execPackCode_next h) (by simp)
  | packEos => exact turns_of_guarded (execPackEos_next h) (by simp)
  | packEmit r => rcases execPackEmit_next h with rfl | ⟨-, ⟨-, rfl⟩ | ⟨-, rfl⟩⟩ <;> simp
  | packFlush r => rcases execPackFlush_next h with rfl | ⟨-, ⟨-, rfl⟩ | ⟨-, rfl⟩⟩ <;> simp
  | rawByte v => exact turns_of_guarded (execWrRawByte_next h) (by simp)
  | rawEos => exact turns_of_guarded (execWrRawEos_next h) (by simp)
  | rawEmit r => rcases execWrRawEmit_next h with rfl | ⟨-, ⟨-, rfl⟩ | ⟨-, rfl⟩⟩ <;> simp

theorem stageOp_turns {i : Instr} {s t : State} (hop : StageOp i) (h : exec i s = .next t) :
    t.host.turns = s.host.turns := by
  cases hop with
  | reader hop => exact readerOp_turns hop h
  | compress hop => rw [compressOp_host hop h]
  | decompress hop => rw [decompressOp_host hop h]
  | writer hop => exact writerOp_turns hop h

/-! ## Runs -/

/-- The operations a stage's turn can run in a job of mode `m`: ENGINE has those of the mode alone (R61). -/
inductive ModeOp : Mode → Instr → Prop where
  | reader {m : Mode} {i : Instr} (h : ReaderOp i) : ModeOp m i
  | compress {i : Instr} (h : CompressOp i) : ModeOp .compress i
  | decompress {i : Instr} (h : DecompressOp i) : ModeOp .decompress i
  | writer {m : Mode} {i : Instr} (h : WriterOp i) : ModeOp m i

theorem ModeOp.stageOp {m : Mode} {i : Instr} (h : ModeOp m i) : StageOp i := by
  cases h with
  | reader h => exact .reader h
  | compress h => exact .compress h
  | decompress h => exact .decompress h
  | writer h => exact .writer h

theorem decode_opcode_modeOp {s : State} {u : Turn} {i : Instr} (hu : stageTurn u) (h : decode (s.opcode u) = .ok i) :
    ModeOp s.core.mode i := by
  rcases hu with rfl | rfl | rfl
  · rw [decode_opcode_reader] at h
    exact .reader (decodeReader_readerOp h)
  · rw [decode_opcode_engine] at h
    split at h
    next hmode => exact hmode ▸ .compress (decodeCompress_compressOp h)
    next hmode => exact hmode ▸ .decompress (decodeDecompress_decompressOp h)
  · rw [decode_opcode_writer] at h
    exact .writer (decodeWriter_writerOp h)

theorem runSteps_succ {n : Nat} {s t : State} (h : runSteps (n + 1) s = .next t) :
    ∃ u, step s = .next u ∧ runSteps n u = .next t := by
  rw [runSteps] at h
  split at h
  · exact ⟨_, ‹_›, h⟩
  · exact nomatch h
  · exact nomatch h

/-- A step on a stage's turn passes or runs one of the operations of the job's mode. -/
theorem step_stageTurn {s t : State} {u : Turn} {rest : List Turn} (hturns : s.host.turns = u :: rest)
    (hu : stageTurn u) (h : step s = .next t) :
    t = s.withTurns rest ∨ ∃ i, ModeOp s.core.mode i ∧ exec i (s.withTurns rest) = .next t := by
  have hnext : s.nextTurn = (u, s.withTurns rest) := nextTurn_cons hturns
  obtain ⟨-, ⟨_, -, ht⟩ | ⟨i, hdec, hexec⟩⟩ := step_next h
  · exact .inl (by rw [ht, hnext])
  · rw [hnext] at hdec hexec
    exact .inr ⟨i, decode_opcode_modeOp (s := s.withTurns rest) hu hdec, hexec⟩

/-- START, as the next turn, begins a job from every state outside RUNNING. -/
theorem step_start {s : State} {m : Mode} {ts : List Turn} (hcap : 1 ≤ s.qcap) (hidle : s.core.status ≠ .running)
    (hturns : s.host.turns = .start m :: ts) : step s = .next ((s.withTurns ts).startJob m) := by
  have hstep := (step_of_nextTurn hcap (nextTurn_cons hturns)).1 (.start m) (by simp [State.opcode, decode])
  rw [hstep]
  simp only [exec, execStart]
  rw [if_neg (Nat.ne_of_gt hcap), if_neg hidle]
  rfl

theorem inv_startJob {s : State} (hcap : 1 ≤ s.qcap) (m : Mode) : Inv (s.startJob m) :=
  detectDone_eq_self (s := s.startJob m) (by simp [allDone, State.startJob]) ▸ (runInv_startJob hcap m).finish

/-- What every operation of a stage keeps, whatever the schedule, a run of stage turns keeps: by induction on the run. -/
theorem runSteps_keeps {P : State → Prop} (hturns : ∀ s ts, P s → P (s.withTurns ts))
    (hexec : ∀ s t i, ModeOp s.core.mode i → P s → exec i s = .next t → P t) :
    ∀ (n : Nat) (s t : State), (∀ u ∈ s.host.turns, stageTurn u) → n ≤ s.host.turns.length → P s →
      runSteps n s = .next t → P t := by
  intro n
  induction n with
  | zero =>
    intro s t _ _ hs hrun
    cases hrun
    exact hs
  | succ n ih =>
    intro s t hstage hlen hs hrun
    obtain ⟨mid, hstep, hrun⟩ := runSteps_succ hrun
    obtain ⟨u, rest, hcons⟩ := List.exists_cons_of_length_pos (Nat.zero_lt_of_lt hlen)
    rw [hcons] at hstage hlen
    have hrest : ∀ u ∈ rest, stageTurn u := fun u hu => hstage u (List.mem_cons_of_mem _ hu)
    have hmid : P mid ∧ mid.host.turns = rest := by
      rcases step_stageTurn hcons (hstage u List.mem_cons_self) hstep with rfl | ⟨i, hop, hi⟩
      · exact ⟨hturns s rest hs, rfl⟩
      · exact ⟨hexec (s.withTurns rest) mid i hop (hturns s rest hs) hi, stageOp_turns hop.stageOp hi⟩
    refine ih mid t ?_ ?_ hmid.1 hrun
    · rw [hmid.2]; exact hrest
    · rw [hmid.2]; exact Nat.le_of_succ_le_succ hlen

end Sys2Proof.Machine
end

section
/-! SUPPORT. What the host gives a job, and where READER stands in it (45_pipeline.md R129 to R131). -/

namespace Sys2Proof.Machine

/-- A job's input, its end and what follows it in the host's list, and the output before the job. -/
structure Job where
  bytes : List Byte
  last : SrcWord
  later : List SrcWord
  out : List Byte

/-- READER has the bytes `ys` still to read, and has read END where it reads no more. -/
structure SourceAt (j : Job) (s : State) (ys : List Byte) : Prop where
  ahead : s.rd.state = .read ∨ s.rd.state = .put → s.host.src = byteResponses ys ++ j.last :: j.later
  ended : s.rd.state = .eos ∨ s.rd.state = .done → ys = [] ∧ srcKind j.last = 1

variable {j : Job} {s : State}

theorem sourceAt_reading {ys : List Byte} (hst : s.rd.state = .read ∨ s.rd.state = .put)
    (hsrc : s.host.src = byteResponses ys ++ j.last :: j.later) : SourceAt j s ys :=
  ⟨fun _ => hsrc, fun hend => by rcases hst with hst | hst <;> simp [hst] at hend⟩

theorem sourceAt_ended (hst : s.rd.state = .eos ∨ s.rd.state = .done) (hlast : srcKind j.last = 1) :
    SourceAt j s [] :=
  ⟨fun hahead => by rcases hst with hst | hst <;> simp [hst] at hahead, fun _ => ⟨rfl, hlast⟩⟩

section
variable {ys : List Byte} (h : SourceAt j s ys) (hread : s.rd.state = .read)
include h hread

/-- A byte that READER reads is the first of those it has still to read. -/
theorem SourceAt.byte (hlast : srcKind j.last ≠ 0) {b : Byte} (hw : s.sourceNext = some (srcWord 0 b)) :
    ∃ ys', ys = b :: ys' ∧ s.sourceRead.host.src = byteResponses ys' ++ j.last :: j.later := by
  have hsrc := h.ahead (.inl hread)
  rw [State.sourceNext, hsrc] at hw
  rw [State.sourceRead, State.setHost_host, hsrc]
  cases ys with
  | nil => exact absurd (by rw [Option.some.inj hw, srcKind_srcWord]) hlast
  | cons y ys =>
    have hy : y = b := by simpa using congrArg srcData (Option.some.inj hw)
    exact ⟨ys, by rw [hy], rfl⟩

/-- A response that is no byte is the end of the input, and no byte is still to be read. -/
theorem SourceAt.atEnd {k : BitVec 2} (hk : k ≠ 0) (hw : s.sourceNext.map srcKind = some k) :
    ys = [] ∧ srcKind j.last = k := by
  rw [State.sourceNext, h.ahead (.inl hread)] at hw
  cases ys with
  | nil => exact ⟨rfl, Option.some.inj hw⟩
  | cons y ys => exact absurd ((Option.some.inj hw).symm.trans (srcKind_srcWord 0 y)) hk

end

end Sys2Proof.Machine
end

section
/-! SUPPORT. The codes in a queue, and the codes ENGINE still puts in COMPRESS mode (43_compress.md R106). -/

namespace Sys2Proof.Machine

variable {s : State}

/-! ## The codes in a queue -/

/-- The code of an item, none for EOS. -/
def itemCode (e : Elem13) : Option Code := if elemTag e = true then none else some (elemPayload e)

@[simp] theorem itemCode_itemElem (v : Code) : itemCode (itemElem v) = some v := by simp [itemCode]

@[simp] theorem itemCode_eosElem : itemCode eosElem = none := by simp [itemCode]

theorem itemCode_of_tag {e : Elem13} (h : elemTag e = true) : itemCode e = none := if_pos h

/-- The codes of the items in a queue, in order. -/
def State.queuedCodes (s : State) (id : QueueId) : List Code := (s.contents id).filterMap itemCode

theorem queuedCodes_of_contents {id : QueueId} (h : s.contents id = []) : s.queuedCodes id = [] := by
  rw [State.queuedCodes, h, List.filterMap_nil]

theorem queuedCodes_congr {t : State} {id : QueueId} (hq : t.queue id = s.queue id) (hn : t.qcap = s.qcap) :
    t.queuedCodes id = s.queuedCodes id := by
  rw [State.queuedCodes, contents_congr hq hn, State.queuedCodes]

@[simp] theorem queuedCodes_setRd (s : State) (r : Reader) (id : QueueId) :
    (s.setRd r).queuedCodes id = s.queuedCodes id := by simp [State.queuedCodes]
@[simp] theorem queuedCodes_setEng (s : State) (e : Engine) (id : QueueId) :
    (s.setEng e).queuedCodes id = s.queuedCodes id := by simp [State.queuedCodes]
@[simp] theorem queuedCodes_setWr (s : State) (w : Writer) (id : QueueId) :
    (s.setWr w).queuedCodes id = s.queuedCodes id := by simp [State.queuedCodes]
@[simp] theorem queuedCodes_sourceRead (s : State) (id : QueueId) :
    s.sourceRead.queuedCodes id = s.queuedCodes id := by simp [State.queuedCodes]
@[simp] theorem queuedCodes_sinkWrite (s : State) (b : Byte) (r : SinkAnswer) (id : QueueId) :
    (s.sinkWrite b r).queuedCodes id = s.queuedCodes id := by simp [State.queuedCodes]
@[simp] theorem queuedCodes_detectDone (s : State) (id : QueueId) :
    (detectDone s).queuedCodes id = s.queuedCodes id := by simp [State.queuedCodes]
@[simp] theorem queuedCodes_dictAdd (s : State) (c : Code) (x : Byte) (id : QueueId) :
    (s.dictAdd c x).queuedCodes id = s.queuedCodes id := queuedCodes_setEng s _ id
@[simp] theorem queuedCodes_dictReset (s : State) (id : QueueId) :
    s.dictReset.queuedCodes id = s.queuedCodes id := queuedCodes_setEng s _ id
@[simp] theorem queuedCodes_qPut_b_a (s : State) (e : Elem13) : (s.qPut .b e).queuedCodes .a = s.queuedCodes .a :=
  queuedCodes_congr rfl rfl
@[simp] theorem queuedCodes_qGet_a_b (s : State) : (s.qGet .a).queuedCodes .b = s.queuedCodes .b :=
  queuedCodes_congr rfl rfl

section
variable {id : QueueId} (h : QueueInv s.qcap (s.queue id))
include h

theorem queuedCodes_putItem (hput : canPut s id) (v : Code) :
    (s.qPut id (itemElem v)).queuedCodes id = s.queuedCodes id ++ [v] := by
  simp [State.queuedCodes, contents_qPut h hput]

theorem queuedCodes_putEos (hput : canPut s id) : (s.qPut id eosElem).queuedCodes id = s.queuedCodes id := by
  simp [State.queuedCodes, contents_qPut h hput]

theorem queuedCodes_getItem {v : Code} (hitem : s.holdsItem id v) :
    s.queuedCodes id = v :: (s.qGet id).queuedCodes id := by
  obtain ⟨hget, hfront⟩ := canGet_of_peek hitem
  rw [State.queuedCodes, contents_qGet h hget, hfront, State.queuedCodes,
    List.filterMap_cons_some (itemCode_itemElem v)]

theorem queuedCodes_getEos (hheld : s.holdsEos id) : s.queuedCodes id = (s.qGet id).queuedCodes id := by
  obtain ⟨hget, htag⟩ := canGet_of_holdsEos hheld
  rw [State.queuedCodes, contents_qGet h hget, State.queuedCodes, List.filterMap_cons_none (itemCode_of_tag htag)]

end

/-! ## `encode` symbol by symbol (R106) -/

variable {st : EncState} {c k : Code} {x : Byte}

theorem encodeFrom_root (hcur : st.cur = .root) (x : Byte) (xs : List Byte) :
    encodeFrom st (x :: xs) = encodeFrom { st with cur := .code (zextCode x) } xs := by
  simp [encodeFrom, encSymbol, hcur]

theorem encodeFrom_hit (hcur : st.cur = .code c) (hhit : st.dict.lookup (c, x) = some k) (xs : List Byte) :
    encodeFrom st (x :: xs) = encodeFrom { st with cur := .code k } xs := by
  simp [encodeFrom, encSymbol, hcur, hhit]

/-- A miss with room puts the code out, adds the entry and reconsiders the symbol from the root. -/
theorem encodeFrom_miss (hcur : st.cur = .code c) (hmiss : st.dict.lookup (c, x) = none) (hn : st.next ≤ 4095)
    (xs : List Byte) :
    encodeFrom st (x :: xs) = c :: encodeFrom
      { cur := .root, next := st.next + 1, dict := ((c, x), BitVec.ofNat 12 st.next) :: st.dict } (x :: xs) := by
  simp [encodeFrom, encSymbol, hcur, hmiss, hn]

/-- A miss without room puts the code and the reset marker out and begins again with the symbol. -/
theorem encodeFrom_full (hcur : st.cur = .code c) (hmiss : st.dict.lookup (c, x) = none) (hn : st.next = 4096)
    (xs : List Byte) :
    encodeFrom st (x :: xs) = c :: resetCode :: encodeFrom encStart (x :: xs) := by
  simp [encodeFrom, encSymbol, encStart, hcur, hmiss, hn]

/-! ## The codes ENGINE still puts -/

/-- The variables of `encode` in ENGINE's registers, `dict` standing for DICT. -/
def Engine.encState (e : Engine) (dict : List ((Code × Byte) × Code)) : EncState :=
  { cur := e.cur, next := e.nextCode.toNat, dict := dict }

/-- The codes ENGINE still puts on QB in COMPRESS mode, `xs` being the symbols it has not fetched. -/
def Engine.toPut (e : Engine) (dict : List ((Code × Byte) × Code)) (xs : List Byte) : List Code :=
  match e.state with
  | .cFetch => encodeFrom (e.encState dict) xs
  | .cMatch => encodeFrom (e.encState dict) (e.sym :: xs)
  | .cEmit => encodeFrom (e.encState dict) (e.sym :: xs)
  | .cReset => resetCode :: encodeFrom encStart (e.sym :: xs)
  | .cFinal => encodeFrom (e.encState dict) []
  | _ => []

/-- `dict` answers as DICT.FIND does (R81). -/
def DictMap (s : State) (dict : List ((Code × Byte) × Code)) : Prop :=
  ∀ c x, dict.lookup (c, x) = s.dictFind (.code c) x

theorem DictMap.congr {t : State} {dict : List ((Code × Byte) × Code)} (h : DictMap s dict)
    (hd : t.eng.dict = s.eng.dict) (hn : t.eng.nextCode = s.eng.nextCode) : DictMap t dict := by
  have hat : t.dictAt = s.dictAt := by
    funext k
    rw [State.dictAt, hd, State.dictAt]
  intro c x
  rw [h c x, State.dictFind, State.dictFind, hat, hn]

theorem dictMap_empty (hn : s.eng.nextCode.toNat = 257) : DictMap s [] :=
  fun c x => (dictFind_empty hn c x).symm

/-- The entries below next_code are searched before the one DICT.ADD writes (R81, R82). -/
theorem dictFind_dictAdd (hlow : 257 ≤ s.eng.nextCode.toNat) (hhigh : s.eng.nextCode.toNat ≤ 4095) (c c' : Code)
    (x x' : Byte) :
    (s.dictAdd c x).dictFind (.code c') x' =
      (s.dictFind (.code c') x').or
        (if (c', x') = (c, x) then some (BitVec.ofNat 12 s.eng.nextCode.toNat) else none) := by
  have hold : ∀ k ∈ List.range' firstCode (s.eng.nextCode.toNat - firstCode),
      (s.dictAdd c x).dictAt k = s.dictAt k := fun k hk => by
    rw [List.mem_range'_1, firstCode] at hk
    rw [dictAt_dictAdd, if_neg (by omega)]
  have hfind : (List.range' firstCode (s.eng.nextCode.toNat - firstCode)).find?
      (fun k => decide ((s.dictAdd c x).dictAt k = { parent := c', symbol := x' })) =
      (List.range' firstCode (s.eng.nextCode.toNat - firstCode)).find?
        (fun k => decide (s.dictAt k = { parent := c', symbol := x' })) :=
    List.find?_congr fun k hk => by rw [hold k hk]
  have hlast : firstCode + 1 * (s.eng.nextCode.toNat - firstCode) = s.eng.nextCode.toNat := by
    rw [firstCode]; omega
  rw [State.dictFind, State.dictFind, dictAdd_nextCode hhigh, Nat.sub_add_comm hlow, List.range'_concat,
    List.find?_append, hfind, Option.map_or, hlast, List.find?_singleton, dictAt_dictAdd, if_pos rfl]
  refine congrArg _ ?_
  by_cases hkey : (c', x') = (c, x)
  · cases hkey
    simp
  · have hne : (⟨c, x⟩ : DictEntry) ≠ ⟨c', x'⟩ := fun he => hkey (by cases he; rfl)
    simp [hkey, hne]

theorem DictMap.dictAdd {dict : List ((Code × Byte) × Code)} (h : DictMap s dict) (hlow : 257 ≤ s.eng.nextCode.toNat)
    (hhigh : s.eng.nextCode.toNat ≤ 4095) (hmiss : s.dictFind (.code c) x = none) :
    DictMap (s.dictAdd c x) (((c, x), BitVec.ofNat 12 s.eng.nextCode.toNat) :: dict) := by
  intro c' x'
  rw [dictFind_dictAdd hlow hhigh, List.lookup_cons, ← h c' x']
  by_cases hkey : (c', x') = (c, x)
  · cases hkey
    simp [h c x, hmiss]
  · simp [hkey, beq_false_of_ne hkey]

end Sys2Proof.Machine
end

section
/-! SUPPORT. A COMPRESS job as a refinement of `encode` and the packed stream (42_bitpack.md R93, 43_compress.md R106):
what the sink has got, followed by what the registers and queues still hold, is the whole stream. -/

namespace Sys2Proof.Machine

/-- The byte READER has latched and not put (R129). -/
def Reader.latched (r : Reader) : List Byte := if r.state = .put then [payloadByte r.latch] else []

/-- The symbols ENGINE has still to fetch, `ys` being the bytes READER has still to read. -/
def State.symbols (s : State) (ys : List Byte) : List Byte :=
  (s.queuedCodes .a).map payloadByte ++ (s.rd.latched ++ ys)

/-- The bytes WRITER still writes, `cs` being the codes it has not got. -/
def Writer.toSend (w : Writer) (cs : List Code) : List Byte :=
  if w.state = .done then [] else packFrom w.acc w.nbits cs

/-- The simulation: the output, then what is still to come of the bits, the codes and the symbols in the machine. -/
structure CompressSim (j : Job) (s : State) : Prop where
  mode : s.core.mode = .compress
  live : s.core.status ≠ .aborted
  sent : j.out <+: s.host.out
  stream : ∃ ys dict, SourceAt j s ys ∧ DictMap s dict ∧
    s.host.out ++ s.wr.toSend (s.queuedCodes .b ++ s.eng.toPut dict (s.symbols ys)) =
      j.out ++ packBytes (lzwEncode j.bytes)

/-- A COMPRESS job that has ended by abort (R150). -/
structure CompressAborted (j : Job) (s : State) : Prop where
  status : s.core.status = .aborted
  sent : ∃ p, p <+: packBytes (lzwEncode j.bytes) ∧ s.host.out = j.out ++ p
  cause : s.core.errCode = .ioSink ∨ (s.core.errCode = .ioSource ∧ srcKind j.last = 2)

/-- A COMPRESS job, running or ended. -/
def CompressJob (j : Job) (s : State) : Prop := CompressSim j s ∨ CompressAborted j s

variable {j : Job} {s t : State}

theorem CompressSim.sent_prefix (h : CompressSim j s) :
    ∃ p, p <+: packBytes (lzwEncode j.bytes) ∧ s.host.out = j.out ++ p := by
  obtain ⟨p, hp⟩ := h.sent
  obtain ⟨ys, dict, -, -, hstream⟩ := h.stream
  rw [← hp, List.append_assoc] at hstream
  exact ⟨p, ⟨_, List.append_cancel_left hstream⟩, hp.symm⟩

/-! ## What ends a step: DONE detection, an abort -/

theorem CompressSim.detectDone (h : CompressSim j s) : CompressSim j (detectDone s) := by
  obtain ⟨hmode, hlive, hsent, ys, dict, ⟨hahead, hended⟩, hdict, hstream⟩ := h
  refine ⟨by simpa using hmode, ?_, by simpa using hsent, ys, dict, ⟨by simpa using hahead, by simpa using hended⟩,
    hdict.congr (by simp) (by simp), ?_⟩
  · rw [detectDone_status]; split <;> simp [hlive]
  · simpa [State.symbols] using hstream

theorem CompressSim.abort (h : CompressSim j s) (side : HostSide) (hout : side.out = s.host.out) {code : ErrCode}
    (hcause : code = .ioSink ∨ (code = .ioSource ∧ srcKind j.last = 2)) (reason : ErrReason) (info : Code) :
    CompressAborted j ((s.setHost side).abort code reason info) := by
  refine ⟨rfl, ?_, hcause⟩
  obtain ⟨p, hp, hs⟩ := h.sent_prefix
  exact ⟨p, hp, hout.trans hs⟩

/-! ## The three stages' steps: each keeps what is still to come of its own -/

/-- A step of READER keeps the symbols to come. -/
theorem CompressSim.readerStep (h : CompressSim j s) (hcore : t.core = s.core) (hqb : t.qb = s.qb)
    (heng : t.eng = s.eng) (hwr : t.wr = s.wr) (hcap : t.qcap = s.qcap) (hout : t.host.out = s.host.out)
    (hflow : ∀ ys, SourceAt j s ys → ∃ ys', SourceAt j t ys' ∧ t.symbols ys' = s.symbols ys) : CompressSim j t := by
  obtain ⟨hmode, hlive, hsent, ys, dict, hsrc, hdict, hstream⟩ := h
  obtain ⟨ys', hsrc', hsym⟩ := hflow ys hsrc
  have hqueued : t.queuedCodes .b = s.queuedCodes .b := queuedCodes_congr hqb hcap
  refine ⟨hcore ▸ hmode, hcore ▸ hlive, hout ▸ hsent, ys', dict, hsrc', hdict.congr (by rw [heng]) (by rw [heng]), ?_⟩
  rw [hout, hwr, heng, hqueued, hsym, hstream]

/-- A step of ENGINE keeps the codes to come. -/
theorem CompressSim.engineStep (h : CompressSim j s) (hcore : t.core = s.core) (hrd : t.rd = s.rd) (hwr : t.wr = s.wr)
    (hhost : t.host = s.host)
    (hflow : ∀ ys dict, SourceAt j s ys → DictMap s dict → ∃ dict', DictMap t dict' ∧
      t.queuedCodes .b ++ t.eng.toPut dict' (t.symbols ys) = s.queuedCodes .b ++ s.eng.toPut dict (s.symbols ys)) :
    CompressSim j t := by
  obtain ⟨hmode, hlive, hsent, ys, dict, hsrc, hdict, hstream⟩ := h
  obtain ⟨dict', hdict', hcodes⟩ := hflow ys dict hsrc hdict
  refine ⟨hcore ▸ hmode, hcore ▸ hlive, hhost ▸ hsent, ys, dict', ⟨?_, ?_⟩, hdict', ?_⟩
  · rw [hrd, hhost]; exact hsrc.ahead
  · rw [hrd]; exact hsrc.ended
  · rw [hhost, hwr, hcodes, hstream]

/-- A step of WRITER keeps the bytes sent and to come, no code being to come once ENGINE is done. -/
theorem CompressSim.writerStep (h : CompressSim j s) (hcore : t.core = s.core) (hqa : t.qa = s.qa) (hrd : t.rd = s.rd)
    (heng : t.eng = s.eng) (hcap : t.qcap = s.qcap) (hsrc : t.host.src = s.host.src) (hsent : s.host.out <+: t.host.out)
    (hflow : ∀ cs, (s.eng.state = .done → cs = []) →
      t.host.out ++ t.wr.toSend (t.queuedCodes .b ++ cs) = s.host.out ++ s.wr.toSend (s.queuedCodes .b ++ cs)) :
    CompressSim j t := by
  obtain ⟨hmode, hlive, hsent', ys, dict, hsource, hdict, hstream⟩ := h
  have hsym : t.symbols ys = s.symbols ys := by
    rw [State.symbols, State.symbols, queuedCodes_congr (s := s) (t := t) (id := .a) hqa hcap, hrd]
  refine ⟨hcore ▸ hmode, hcore ▸ hlive, hsent'.trans hsent, ys, dict, ⟨?_, ?_⟩,
    hdict.congr (by rw [heng]) (by rw [heng]), ?_⟩
  · rw [hrd, hsrc]; exact hsource.ahead
  · rw [hrd]; exact hsource.ended
  · rw [heng, hsym, hflow _ fun hdone => by rw [Engine.toPut, hdone], hstream]

end Sys2Proof.Machine
end

section
/-! SUPPORT. READER's steps in a COMPRESS job: each keeps the simulation, or aborts with IO_SOURCE. -/

namespace Sys2Proof.Machine

variable {j : Job} {s t : State}

section
variable (h : CompressSim j s)
include h

theorem CompressSim.rdRawByte (hread : s.rd.state = .read) (hlast : srcKind j.last ≠ 0) {b : Byte}
    (hw : s.sourceNext = some (srcWord 0 b)) :
    CompressSim j (s.sourceRead.setRd { s.rd with latch := zextCode b, state := .put }) := by
  refine h.readerStep rfl rfl rfl rfl rfl rfl fun ys hsrc => ?_
  obtain ⟨ys', rfl, hrest⟩ := hsrc.byte hread hlast hw
  refine ⟨ys', sourceAt_reading (.inr rfl) hrest, ?_⟩
  simp [State.symbols, Reader.latched, hread]

theorem CompressSim.rdRawEnd (hread : s.rd.state = .read) (hw : s.sourceNext.map srcKind = some 1) :
    CompressSim j (s.sourceRead.setRd { s.rd with state := .eos }) := by
  refine h.readerStep rfl rfl rfl rfl rfl rfl fun ys hsrc => ?_
  obtain ⟨rfl, hlast⟩ := hsrc.atEnd hread (by decide) hw
  refine ⟨[], sourceAt_ended (.inl rfl) hlast, ?_⟩
  simp [State.symbols, Reader.latched, hread]

theorem CompressSim.rdSrcError (hread : s.rd.state = .read) (hw : s.sourceNext.map srcKind = some 2) :
    CompressAborted j (s.sourceRead.abort .ioSource .none 0) := by
  obtain ⟨_, _, hsrc, -, -⟩ := h.stream
  exact h.abort { s.host with src := s.host.src.tail } rfl (.inr ⟨rfl, (hsrc.atEnd hread (by decide) hw).2⟩) _ _

theorem CompressSim.rdPut (hinv : RunInv s) (hst : s.rd.state = .put) (hput : canPut s .a) :
    CompressSim j ((s.qPut .a (itemElem s.rd.latch)).setRd { s.rd with state := .read }) := by
  refine h.readerStep rfl rfl rfl rfl rfl rfl fun ys hsrc => ?_
  refine ⟨ys, sourceAt_reading (.inl rfl) (hsrc.ahead (.inr hst)), ?_⟩
  simp [State.symbols, Reader.latched, hst, queuedCodes_putItem (id := .a) hinv.qa hput]

theorem CompressSim.rdEos (hinv : RunInv s) (hst : s.rd.state = .eos) (hput : canPut s .a) :
    CompressSim j ((s.qPut .a eosElem).setRd { s.rd with state := .done }) := by
  refine h.readerStep rfl rfl rfl rfl rfl rfl fun ys hsrc => ?_
  obtain ⟨rfl, hlast⟩ := hsrc.ended (.inl hst)
  refine ⟨[], sourceAt_ended (.inr rfl) hlast, ?_⟩
  simp [State.symbols, Reader.latched, hst, queuedCodes_putEos (id := .a) hinv.qa hput]

end

theorem readerOp_compressJob {i : Instr} (hinv : RunInv s) (hlast : srcKind j.last ≠ 0) (h : CompressSim j s)
    (hop : ReaderOp i) (hexec : exec i s = .next t) : CompressJob j t := by
  have hraw : s.core.mode ≠ .decompress := by simp [h.mode]
  cases hop with
  | rawByte b =>
    rcases execRdRawByte_next hexec with rfl | ⟨⟨⟨-, -, hst⟩, hw⟩, rfl⟩
    · exact .inl h
    · exact .inl (h.rdRawByte hst hlast hw).detectDone
  | rawEnd =>
    rcases execRdRawEnd_next hexec with rfl | ⟨⟨⟨-, -, hst⟩, hw⟩, rfl⟩
    · exact .inl h
    · exact .inl (h.rdRawEnd hst hw).detectDone
  | srcError m =>
    rcases execRdSrcError_next hexec with rfl | ⟨⟨⟨-, -, hst⟩, hw⟩, rfl⟩
    · exact .inl h
    · exact .inr (h.rdSrcError hst hw)
  | unpackByte b =>
    rcases execUnpackByte_next hexec with rfl | ⟨⟨⟨-, hmode, -⟩, -⟩, -⟩
    · exact .inl h
    · exact absurd hmode hraw
  | unpackEnd =>
    rcases execUnpackEnd_next hexec with rfl | ⟨⟨⟨-, hmode, -⟩, -⟩, -⟩
    · exact .inl h
    · exact absurd hmode hraw
  | put m =>
    rcases execRdPut_next hexec with rfl | ⟨⟨⟨-, -, hst⟩, hput⟩, rfl⟩
    · exact .inl h
    · exact .inl (h.rdPut hinv hst hput).detectDone
  | eos m =>
    rcases execRdEos_next hexec with rfl | ⟨⟨⟨-, -, hst⟩, hput⟩, rfl⟩
    · exact .inl h
    · exact .inl (h.rdEos hinv hst hput).detectDone

end Sys2Proof.Machine
end

section
/-! SUPPORT. ENGINE's steps in a COMPRESS job: each is a step of `encode` (43_compress.md R106). -/

namespace Sys2Proof.Machine

variable {j : Job} {s t : State}

@[simp] theorem symbols_setEng (s : State) (e : Engine) (ys : List Byte) :
    (s.setEng e).symbols ys = s.symbols ys := by simp [State.symbols]
@[simp] theorem symbols_dictAdd (s : State) (c : Code) (x : Byte) (ys : List Byte) :
    (s.dictAdd c x).symbols ys = s.symbols ys := symbols_setEng s _ ys
@[simp] theorem symbols_dictReset (s : State) (ys : List Byte) : s.dictReset.symbols ys = s.symbols ys :=
  symbols_setEng s _ ys
@[simp] theorem symbols_qPut_b (s : State) (e : Elem13) (ys : List Byte) :
    (s.qPut .b e).symbols ys = s.symbols ys := by simp [State.symbols]

section
variable (h : CompressSim j s)
include h

theorem CompressSim.cMatchHit (hst : s.eng.state = .cMatch) {k : Code}
    (hhit : s.dictFind s.eng.cur s.eng.sym = some k) :
    CompressSim j (s.setEng { s.eng with cur := .code k, state := .cFetch }) := by
  refine h.engineStep rfl rfl rfl rfl fun ys dict _ hdict => ⟨dict, hdict.congr rfl rfl, ?_⟩
  have hcodes : s.eng.toPut dict (s.symbols ys) =
      encodeFrom { s.eng.encState dict with cur := .code k } (s.symbols ys) := by
    rw [Engine.toPut, hst]
    cases hcur : s.eng.cur with
    | root =>
      rw [hcur] at hhit
      cases hhit
      exact encodeFrom_root hcur _ _
    | code c =>
      rw [hcur, ← hdict] at hhit
      exact encodeFrom_hit hcur hhit _
  rw [hcodes]
  simp [Engine.toPut, Engine.encState]

theorem CompressSim.cMatchMiss (hst : s.eng.state = .cMatch) :
    CompressSim j (s.setEng { s.eng with state := .cEmit }) := by
  refine h.engineStep rfl rfl rfl rfl fun ys dict _ hdict => ⟨dict, hdict.congr rfl rfl, ?_⟩
  simp [Engine.toPut, Engine.encState, hst]

variable (hinv : RunInv s)
include hinv

theorem CompressSim.cFetchSym (hst : s.eng.state = .cFetch) {v : Code} (hitem : s.holdsItem .a v) :
    CompressSim j ((s.qGet .a).setEng { s.eng with sym := payloadByte v, state := .cMatch }) := by
  refine h.engineStep rfl rfl rfl rfl fun ys dict _ hdict => ⟨dict, hdict.congr rfl rfl, ?_⟩
  have hsym : s.symbols ys = payloadByte v :: (s.qGet .a).symbols ys := by
    simp [State.symbols, queuedCodes_getItem (id := .a) hinv.qa hitem]
  simp [Engine.toPut, Engine.encState, hst, hsym]

/-- At EOS no symbol is to come, and the code still to be put is that of eng.cur. -/
theorem CompressSim.cFetchEos (hst : s.eng.state = .cFetch) (hheld : s.holdsEos .a) :
    CompressSim j ((s.qGet .a).setEng { s.eng with state := if s.eng.cur = .root then .cEos else .cFinal }) := by
  obtain ⟨hget, htag⟩ := canGet_of_holdsEos hheld
  have heos := hinv.qaEos
  rw [contents_qGet (id := .a) hinv.qa hget] at heos
  obtain ⟨-, hrd, hempty⟩ := heos.getEos (g' := True) htag trivial
  refine h.engineStep rfl rfl rfl rfl fun ys dict hsrc hdict => ⟨dict, hdict.congr rfl rfl, ?_⟩
  have hsym : s.symbols ys = [] := by
    simp [State.symbols, queuedCodes_getEos (id := .a) hinv.qa hheld, queuedCodes_of_contents hempty,
      Reader.latched, hrd, (hsrc.ended (.inr hrd)).1]
  by_cases hcur : s.eng.cur = .root <;> simp [Engine.toPut, Engine.encState, hst, hsym, hcur, encodeFrom]

theorem CompressSim.cEmitAdd (hst : s.eng.state = .cEmit) (hn : s.eng.nextCode.toNat ≤ 4095) (hput : canPut s .b)
    {c : Code} (hcur : s.eng.cur = .code c) :
    CompressSim j (((s.qPut .b (itemElem c)).dictAdd c s.eng.sym).setEng
      { ((s.qPut .b (itemElem c)).dictAdd c s.eng.sym).eng with cur := .root, state := .cMatch }) := by
  have hmiss := hcur ▸ (hinv.engine.compress h.mode).missed hst
  refine h.engineStep rfl rfl rfl rfl fun ys dict _ hdict =>
    ⟨_, (hdict.dictAdd hinv.engine.low hn hmiss).congr rfl rfl, ?_⟩
  have hcodes : s.eng.toPut dict (s.symbols ys) = c :: encodeFrom
      { cur := .root, next := (s.dictAdd c s.eng.sym).eng.nextCode.toNat,
        dict := ((c, s.eng.sym), BitVec.ofNat 12 s.eng.nextCode.toNat) :: dict } (s.eng.sym :: s.symbols ys) := by
    rw [Engine.toPut, hst, dictAdd_nextCode hn]
    exact encodeFrom_miss hcur ((hdict c _).trans hmiss) hn _
  rw [hcodes]
  simp [Engine.toPut, Engine.encState, State.dictAdd, queuedCodes_putItem (id := .b) hinv.qb hput]

theorem CompressSim.cEmitFull (hst : s.eng.state = .cEmit) (hn : s.eng.nextCode.toNat = 4096) (hput : canPut s .b)
    {c : Code} (hcur : s.eng.cur = .code c) :
    CompressSim j ((s.qPut .b (itemElem c)).setEng { s.eng with state := .cReset }) := by
  have hmiss := hcur ▸ (hinv.engine.compress h.mode).missed hst
  refine h.engineStep rfl rfl rfl rfl fun ys dict _ hdict => ⟨dict, hdict.congr rfl rfl, ?_⟩
  have hcodes : s.eng.toPut dict (s.symbols ys) =
      c :: resetCode :: encodeFrom encStart (s.eng.sym :: s.symbols ys) := by
    rw [Engine.toPut, hst]
    exact encodeFrom_full hcur ((hdict c _).trans hmiss) hn _
  rw [hcodes]
  simp [Engine.toPut, queuedCodes_putItem (id := .b) hinv.qb hput]

theorem CompressSim.cReset (hst : s.eng.state = .cReset) (hput : canPut s .b) :
    CompressSim j (((s.qPut .b (itemElem resetCode)).dictReset).setEng
      { ((s.qPut .b (itemElem resetCode)).dictReset).eng with cur := .root, state := .cMatch }) := by
  refine h.engineStep rfl rfl rfl rfl fun ys dict _ _ => ⟨[], dictMap_empty rfl, ?_⟩
  simp [Engine.toPut, hst, queuedCodes_putItem (id := .b) hinv.qb hput, Engine.encState, encStart, State.dictReset]

theorem CompressSim.cFinal (hst : s.eng.state = .cFinal) (hput : canPut s .b) {c : Code} (hcur : s.eng.cur = .code c) :
    CompressSim j ((s.qPut .b (itemElem c)).setEng { s.eng with state := .cEos }) := by
  refine h.engineStep rfl rfl rfl rfl fun ys dict _ hdict => ⟨dict, hdict.congr rfl rfl, ?_⟩
  simp [Engine.toPut, Engine.encState, hst, encodeFrom, hcur, queuedCodes_putItem (id := .b) hinv.qb hput]

theorem CompressSim.cEos (hst : s.eng.state = .cEos) (hput : canPut s .b) :
    CompressSim j ((s.qPut .b eosElem).setEng { s.eng with state := .done }) := by
  refine h.engineStep rfl rfl rfl rfl fun ys dict _ hdict => ⟨dict, hdict.congr rfl rfl, ?_⟩
  simp [Engine.toPut, hst, queuedCodes_putEos (id := .b) hinv.qb hput]

end

theorem compressOp_compressJob {i : Instr} (hinv : RunInv s) (h : CompressSim j s) (hop : CompressOp i)
    (hexec : exec i s = .next t) : CompressJob j t := by
  refine .inl ?_
  cases hop with
  | fetchSym v =>
    rcases execCFetchSym_next hexec with rfl | ⟨⟨⟨-, -, hst⟩, hitem⟩, rfl⟩
    · exact h
    · exact (h.cFetchSym hinv hst hitem).detectDone
  | fetchEos =>
    rcases execCFetchEos_next hexec with rfl | ⟨⟨⟨-, -, hst⟩, hheld⟩, rfl⟩
    · exact h
    · exact (h.cFetchEos hinv hst hheld).detectDone
  | matchHit =>
    rcases execCMatchHit_next hexec with rfl | ⟨k, ⟨⟨-, -, hst⟩, hhit⟩, rfl⟩
    · exact h
    · exact (h.cMatchHit hst hhit).detectDone
  | matchMiss =>
    rcases execCMatchMiss_next hexec with rfl | ⟨⟨⟨-, -, hst⟩, -⟩, rfl⟩
    · exact h
    · exact (h.cMatchMiss hst).detectDone
  | emitAdd =>
    rcases execCEmitAdd_next hexec with rfl | ⟨c, ⟨⟨-, -, hst⟩, hn, hput⟩, hcur, rfl⟩
    · exact h
    · exact (h.cEmitAdd hinv hst hn hput hcur).detectDone
  | emitFull =>
    rcases execCEmitFull_next hexec with rfl | ⟨c, ⟨⟨-, -, hst⟩, hn, hput⟩, hcur, rfl⟩
    · exact h
    · exact (h.cEmitFull hinv hst hn hput hcur).detectDone
  | reset =>
    rcases execCReset_next hexec with rfl | ⟨⟨⟨-, -, hst⟩, hput⟩, rfl⟩
    · exact h
    · exact (h.cReset hinv hst hput).detectDone
  | final =>
    rcases execCFinal_next hexec with rfl | ⟨c, ⟨⟨-, -, hst⟩, hput⟩, hcur, rfl⟩
    · exact h
    · exact (h.cFinal hinv hst hput hcur).detectDone
  | eos =>
    rcases execCEos_next hexec with rfl | ⟨⟨⟨-, -, hst⟩, hput⟩, rfl⟩
    · exact h
    · exact (h.cEos hinv hst hput).detectDone

end Sys2Proof.Machine
end

section
/-! SUPPORT. WRITER's steps in a COMPRESS job: each is a step of the packer, or aborts with IO_SINK. -/

namespace Sys2Proof.Machine

variable {j : Job} {s t : State}

@[simp] theorem sinkWrite_ok_out (s : State) (b : Byte) : (s.sinkWrite b .ok).host.out = s.host.out ++ [b] := rfl

theorem toSend_of_ne_done {w : Writer} (h : w.state ≠ .done) (cs : List Code) :
    w.toSend cs = packFrom w.acc w.nbits cs :=
  if_neg h

theorem toSend_of_done {w : Writer} (h : w.state = .done) (cs : List Code) : w.toSend cs = [] := if_pos h

section
variable (h : CompressSim j s) (hinv : RunInv s)
include h hinv

/-- In W_GET and W_PAD less than a byte is in the bit buffer (R34). -/
theorem CompressSim.wr_nbits_lt (hst : s.wr.state = .get ∨ s.wr.state = .pad) : s.wr.nbits.toNat < 8 := by
  rcases hst with hst | hst
  · rcases hinv.writer.get h.mode (.inl hst) with hn | hn <;> rw [hn] <;> decide
  · rw [hinv.writer.pad hst]; decide

theorem CompressSim.packCode (hst : s.wr.state = .get) {c : Code} (hitem : s.holdsItem .b c) :
    CompressSim j ((s.qGet .b).setWr
      { s.wr with acc := pushCode s.wr.acc c, nbits := s.wr.nbits + 12, state := .emit }) := by
  refine h.writerStep rfl rfl rfl rfl rfl rfl (List.prefix_refl _) fun cs _ => ?_
  rw [queuedCodes_getItem (id := .b) hinv.qb hitem, toSend_of_ne_done (w := s.wr) (by simp [hst]), List.cons_append,
    packFrom_take (h.wr_nbits_lt hinv (.inl hst))]
  simp [toSend_of_ne_done]

/-- At EOS no code is to come, and what is to be written are the bits left over. -/
theorem CompressSim.packEos (hst : s.wr.state = .get) (hheld : s.holdsEos .b) :
    CompressSim j ((s.qGet .b).setWr { s.wr with state := if 0 < s.wr.nbits.toNat then .pad else .done }) := by
  obtain ⟨hget, htag⟩ := canGet_of_holdsEos hheld
  have heos := hinv.qbEos
  rw [contents_qGet (id := .b) hinv.qb hget] at heos
  obtain ⟨-, heng, hempty⟩ := heos.getEos (g' := True) htag trivial
  refine h.writerStep rfl rfl rfl rfl rfl rfl (List.prefix_refl _) fun cs hcs => ?_
  rw [hcs heng, queuedCodes_getEos (id := .b) hinv.qb hheld, queuedCodes_setWr, queuedCodes_of_contents hempty]
  by_cases hbits : 0 < s.wr.nbits.toNat
  · simp [Writer.toSend, hst, hbits]
  · simp [Writer.toSend, hst, hbits, packFrom_nil (h.wr_nbits_lt hinv (.inl hst))]

theorem CompressSim.packEmit (hst : s.wr.state = .emit) :
    CompressSim j ((s.sinkWrite (packedByte s.wr.acc s.wr.nbits) .ok).setWr
      { s.wr with nbits := s.wr.nbits - 8, acc := keepLow s.wr.acc (s.wr.nbits - 8),
                  state := if (s.wr.nbits - 8).toNat < 8 then .get else .emit }) := by
  have hbits : 8 ≤ s.wr.nbits.toNat := by
    rcases hinv.writer.emit h.mode hst with hn | hn | hn <;> rw [hn] <;> decide
  refine h.writerStep rfl rfl rfl rfl rfl rfl (List.prefix_append _ _) fun cs _ => ?_
  have hnew : (if (s.wr.nbits - 8).toNat < 8 then WrState.get else .emit) ≠ .done := by split <;> nofun
  rw [toSend_of_ne_done (w := s.wr) (by simp [hst]), packFrom_emit hbits, State.setWr_wr, toSend_of_ne_done hnew]
  simp

/-- In W_PAD no code is to come, and the last byte is written. -/
theorem CompressSim.packFlush (hst : s.wr.state = .pad) :
    CompressSim j ((s.sinkWrite (paddedByte s.wr.acc s.wr.nbits) .ok).setWr
      { s.wr with acc := 0, nbits := 0, state := .done }) := by
  obtain ⟨heng, hempty⟩ := hinv.qbEos.finished (.inl hst)
  refine h.writerStep rfl rfl rfl rfl rfl rfl (List.prefix_append _ _) fun cs hcs => ?_
  rw [hcs heng, queuedCodes_of_contents hempty, toSend_of_done rfl, toSend_of_ne_done (w := s.wr) (by simp [hst]),
    List.nil_append, packFrom_nil (h.wr_nbits_lt hinv (.inr hst)), if_pos (by rw [hinv.writer.pad hst]; decide)]
  simp

end

theorem CompressSim.sinkError (h : CompressSim j s) (b : Byte) :
    CompressAborted j ((s.sinkWrite b .error).abort .ioSink .none 0) :=
  h.abort { s.host with snk := s.host.snk.tail } rfl (.inl rfl) _ _

theorem writerOp_compressJob {i : Instr} (hinv : RunInv s) (h : CompressSim j s) (hop : WriterOp i)
    (hexec : exec i s = .next t) : CompressJob j t := by
  have hpack : s.core.mode ≠ .decompress := by simp [h.mode]
  cases hop with
  | packCode c =>
    rcases execPackCode_next hexec with rfl | ⟨⟨⟨-, -, hst⟩, hitem⟩, rfl⟩
    · exact .inl h
    · exact .inl (h.packCode hinv hst hitem).detectDone
  | packEos =>
    rcases execPackEos_next hexec with rfl | ⟨⟨⟨-, -, hst⟩, hheld⟩, rfl⟩
    · exact .inl h
    · exact .inl (h.packEos hinv hst hheld).detectDone
  | packEmit r =>
    rcases execPackEmit_next hexec with rfl | ⟨⟨⟨-, -, hst⟩, -⟩, ⟨-, rfl⟩ | ⟨-, rfl⟩⟩
    · exact .inl h
    · exact .inr (h.sinkError _)
    · exact .inl (h.packEmit hinv hst).detectDone
  | packFlush r =>
    rcases execPackFlush_next hexec with rfl | ⟨⟨⟨-, -, hst⟩, -⟩, ⟨-, rfl⟩ | ⟨-, rfl⟩⟩
    · exact .inl h
    · exact .inr (h.sinkError _)
    · exact .inl (h.packFlush hinv hst).detectDone
  | rawByte v =>
    rcases execWrRawByte_next hexec with rfl | ⟨⟨⟨-, hmode, -⟩, -⟩, -⟩
    · exact .inl h
    · exact absurd hmode hpack
  | rawEos =>
    rcases execWrRawEos_next hexec with rfl | ⟨⟨⟨-, hmode, -⟩, -⟩, -⟩
    · exact .inl h
    · exact absurd hmode hpack
  | rawEmit r =>
    rcases execWrRawEmit_next hexec with rfl | ⟨⟨⟨-, hmode, -⟩, -⟩, -⟩
    · exact .inl h
    · exact absurd hmode hpack

end Sys2Proof.Machine
end

section
/-! SUPPORT. A whole COMPRESS job, from START on, for every schedule of stage turns. -/

namespace Sys2Proof.Machine

variable {j : Job} {s t : State}

/-- A stage's operation keeps the job, in a state that meets the machine's invariant. -/
theorem CompressJob.exec {i : Instr} (hinv : Inv s) (hlast : srcKind j.last ≠ 0) (h : CompressJob j s)
    (hop : ModeOp s.core.mode i) (hexec : exec i s = .next t) : Inv t ∧ CompressJob j t := by
  rcases stageOp_effect hop.stageOp hexec with rfl | ⟨hrun, hend⟩
  · exact ⟨hinv, h⟩
  refine ⟨hinv.stageEnd hrun hend, ?_⟩
  obtain ⟨hrunInv, -⟩ := hinv.run hrun
  rcases h with h | h
  · rw [h.mode] at hop
    cases hop with
    | reader hop => exact readerOp_compressJob hrunInv hlast h hop hexec
    | compress hop => exact compressOp_compressJob hrunInv h hop hexec
    | writer hop => exact writerOp_compressJob hrunInv h hop hexec
  · exact absurd (hrun.symm.trans h.status) nofun

/-- The schedule carries no claim on the job. -/
theorem CompressJob.withTurns (h : CompressJob j s) (ts : List Turn) : CompressJob j (s.withTurns ts) := by
  refine h.imp (fun h => ?_) fun h => ⟨h.status, h.sent, h.cause⟩
  obtain ⟨ys, dict, hsrc, hdict, hstream⟩ := h.stream
  exact ⟨h.mode, h.live, h.sent, ys, dict, ⟨hsrc.ahead, hsrc.ended⟩, hdict.congr rfl rfl, hstream⟩

/-- START begins the job with the whole of `encode`'s stream to come. -/
theorem compressSim_startJob (j : Job) (hsrc : s.host.src = byteResponses j.bytes ++ j.last :: j.later)
    (hout : s.host.out = j.out) : CompressSim j (s.startJob .compress) := by
  refine ⟨rfl, nofun, hout ▸ List.prefix_refl _, j.bytes, [], sourceAt_reading (.inl rfl) hsrc, dictMap_empty rfl, ?_⟩
  have hqa : (s.startJob .compress).queuedCodes .a = [] := rfl
  have hqb : (s.startJob .compress).queuedCodes .b = [] := rfl
  have hcodes : (s.startJob .compress).eng.toPut [] ((s.startJob .compress).symbols j.bytes) = lzwEncode j.bytes := by
    rw [State.symbols, hqa]
    rfl
  rw [hqb, hcodes, List.nil_append, toSend_of_ne_done (w := (s.startJob .compress).wr) nofun,
    ← packFrom_eq_packBytes, ← hout]
  rfl

/-- In DONE the source has ended with END, and nothing is to come. -/
theorem CompressJob.done (h : CompressJob j s) (hinv : Inv s) (hdone : s.core.status = .done) :
    srcKind j.last = 1 ∧ s.host.out = j.out ++ packBytes (lzwEncode j.bytes) := by
  rcases h with h | h
  · obtain ⟨hrd, -, hwr⟩ : allDone s := by
      rcases hinv.phase with hidle | hjob
      · exact absurd (hdone.symm.trans hidle.status) nofun
      · exact hjob.done.mp hdone
    obtain ⟨_, _, hsrc, -, hstream⟩ := h.stream
    rw [toSend_of_done hwr, List.append_nil] at hstream
    exact ⟨(hsrc.ended (.inr hrd)).2, hstream⟩
  · exact absurd (hdone.symm.trans h.status) nofun

theorem CompressJob.aborted (h : CompressJob j s) (habort : s.core.status = .aborted) : CompressAborted j s :=
  h.resolve_left fun h => h.live habort

/-- A COMPRESS job after any run of stage turns from START: by induction on the run. -/
theorem compressJob_of_run {ts : List Turn} {n : Nat} (hcap : 1 ≤ s.qcap) (hidle : s.core.status ≠ .running)
    (hturns : s.host.turns = .start .compress :: ts) (hstage : ∀ u ∈ ts, stageTurn u) (hlast : srcKind j.last ≠ 0)
    (hsrc : s.host.src = byteResponses j.bytes ++ j.last :: j.later) (hout : s.host.out = j.out) (hn : n ≤ ts.length)
    (hrun : runSteps (n + 1) s = .next t) : Inv t ∧ CompressJob j t := by
  obtain ⟨s₀, hstart, hrun⟩ := runSteps_succ hrun
  rw [step_start hcap hidle hturns] at hstart
  cases hstart
  refine runSteps_keeps (P := fun s => Inv s ∧ CompressJob j s) (fun s ts h => ⟨h.1.setHost _, h.2.withTurns ts⟩)
    (fun s t i hop h hexec => h.2.exec h.1 hlast hop hexec) n _ t hstage hn ⟨?_, .inl ?_⟩ hrun
  · exact inv_startJob (s := s.withTurns ts) hcap _
  · exact compressSim_startJob j hsrc hout

end Sys2Proof.Machine
end

section
/-! SUPPORT. The rows of the packer and the unpacker (42_bitpack.md R87 to R92): what each answers, enabled and blocked,
and their registers as numbers (00_scope.md R13). -/

namespace Sys2Proof.Machine

variable {s : State}

/-! ## The parts of a step -/

theorem eq_ofNat_of_toNat_eq {w n : Nat} {x : BitVec w} (h : x.toNat = n) : x = BitVec.ofNat w n := by
  rw [← h, BitVec.ofNat_toNat, BitVec.setWidth_eq]

/-- DONE detection on equivalent conditions. -/
theorem doneIf_congr (c : CoreRegs) {p q : Prop} [Decidable p] [Decidable q] (h : p ↔ q) : c.doneIf p = c.doneIf q := by
  simp only [CoreRegs.doneIf, h]

theorem sourceRead_setRd {w : SrcWord} {rest : List SrcWord} (hsrc : s.host.src = w :: rest) (r : Reader) :
    s.sourceRead.setRd r = { s with rd := r, host := { s.host with src := rest } } := by
  simp [State.sourceRead, State.setRd, State.setHost, hsrc]

theorem sinkWrite_ok_setWr {a : SinkAnswer} {rest : List SinkAnswer} (hsnk : s.host.snk = a :: rest) (b : Byte)
    (w : Writer) :
    (s.sinkWrite b .ok).setWr w =
      { s with wr := w, host := { s.host with snk := rest, out := s.host.out ++ [b] } } := by
  simp [State.sinkWrite, State.setWr, State.setHost, hsnk]

theorem sinkWrite_error_abort {a : SinkAnswer} {rest : List SinkAnswer} (hsnk : s.host.snk = a :: rest) (b : Byte) :
    (s.sinkWrite b .error).abort .ioSink .none 0 =
      { s with core := s.core.aborted .ioSink .none 0, host := { s.host with snk := rest } } := by
  simp [State.sinkWrite, State.abort, State.setCore, State.setHost, CoreRegs.aborted, hsnk]

/-! ## The unpacker (R91, R92) -/

theorem exec_unpackByte (hat : readerAt s .decompress .read) {b : Byte} {rest : List SrcWord}
    (hsrc : s.host.src = srcWord 0 b :: rest) :
    exec (.unpackByte b) s = .next { s with rd := s.rd.unpacked b, host := { s.host with src := rest } } := by
  have hnext : s.sourceNext = some (srcWord 0 b) := by rw [State.sourceNext, hsrc, List.head?_cons]
  have hlive : ¬ allDone (s.sourceRead.setRd (s.rd.unpacked b)) := fun hd => by
    have hst : (s.rd.unpacked b).state = .done := hd.1
    unfold Reader.unpacked at hst
    split at hst <;> exact nomatch hst
  rw [← sourceRead_setRd hsrc, ← detectDone_eq_self hlive]
  exact if_pos ⟨hat, hnext⟩

theorem exec_unpackEnd (hat : readerAt s .decompress .read) {d : Byte} {rest : List SrcWord}
    (hsrc : s.host.src = srcWord 1 d :: rest) :
    exec .unpackEnd s = .next { s with
      rd := { s.rd with acc := 0, nbits := 0, state := .eos }, host := { s.host with src := rest } } := by
  have hnext : s.sourceNext.map srcKind = some 1 := by
    rw [State.sourceNext, hsrc, List.head?_cons, Option.map_some, srcKind_srcWord]
  rw [← sourceRead_setRd hsrc, ← detectDone_eq_self (s := s.sourceRead.setRd _) (by simp [allDone])]
  exact if_pos ⟨hat, hnext⟩

/-- READER's registers after UNPACK.BYTE, as numbers. -/
theorem Reader.unpacked_eq {r : Reader} (hbits : r.acc.toNat < 2 ^ r.nbits.toNat)
    (hn : r.nbits = 0 ∨ r.nbits = 4 ∨ r.nbits = 8) (b : Byte) :
    r.unpacked b =
      if 12 ≤ r.nbits.toNat + 8 then
        { latch := BitVec.ofNat 12 ((r.acc.toNat * 256 + b.toNat) / 2 ^ (r.nbits.toNat + 8 - 12)),
          nbits := BitVec.ofNat 5 (r.nbits.toNat + 8 - 12),
          acc := BitVec.ofNat 16 ((r.acc.toNat * 256 + b.toNat) % 2 ^ (r.nbits.toNat + 8 - 12)), state := .put }
      else
        { r with
          acc := BitVec.ofNat 16 (r.acc.toNat * 256 + b.toNat), nbits := BitVec.ofNat 5 (r.nbits.toNat + 8)
          state := .read } := by
  have hle : r.nbits.toNat ≤ 8 := by rcases hn with hn | hn | hn <;> rw [hn] <;> decide
  have hadd : (r.nbits + 8).toNat = r.nbits.toNat + 8 := by bv_omega
  have hpush := pushByte_toNat (hbits.trans_le (Nat.pow_le_pow_right (by decide) hle)) b
  unfold Reader.unpacked
  rw [hadd]
  split
  next h12 =>
    have hsub : (r.nbits + 8 - 12).toNat = r.nbits.toNat + 8 - 12 := by bv_omega
    have hlatch := unpackedCode_toNat (hadd ▸ pushByte_lt hbits hle b) (hadd ▸ h12)
    have hacc := keepLow_toNat (pushByte r.acc b) (nbits := r.nbits + 8 - 12) (by omega)
    rw [hadd, hpush] at hlatch
    rw [hsub, hpush] at hacc
    rw [eq_ofNat_of_toNat_eq hlatch, eq_ofNat_of_toNat_eq hacc, eq_ofNat_of_toNat_eq hsub]
  next => rw [eq_ofNat_of_toNat_eq hpush, eq_ofNat_of_toNat_eq hadd]

/-! ## The packer takes (R87, R89) -/

/-- PACK.CODE for every bit buffer R34 allows in W_GET, as numbers. -/
theorem exec_packCode (hat : writerAt s .compress .get) {c : Code} (hitem : s.holdsItem .b c)
    (hn : s.wr.nbits.toNat ≤ 4) (hacc : s.wr.acc.toNat < 16) :
    exec (.packCode c) s = .next { s with
      qb := s.qb.afterGet s.qcap
      wr := { s.wr with acc := BitVec.ofNat 16 (s.wr.acc.toNat * 4096 + c.toNat)
                        nbits := BitVec.ofNat 5 (s.wr.nbits.toNat + 12), state := .emit } } := by
  have hadd : (s.wr.nbits + 12).toNat = s.wr.nbits.toNat + 12 := by bv_omega
  have hstep : exec (.packCode c) s = .next (detectDone ((s.qGet .b).setWr
      { s.wr with acc := pushCode s.wr.acc c, nbits := s.wr.nbits + 12, state := .emit })) := if_pos ⟨hat, hitem⟩
  rw [hstep, detectDone_eq_self (by simp [allDone]), eq_ofNat_of_toNat_eq (pushCode_toNat hacc c),
    eq_ofNat_of_toNat_eq hadd]
  rfl

theorem exec_packEos (hat : writerAt s .compress .get) (hheld : s.holdsEos .b) :
    exec .packEos s = .next { s with
      core := s.core.doneIf (s.wr.nbits = 0 ∧ s.rd.state = .done ∧ s.eng.state = .done)
      qb := s.qb.afterGet s.qcap, wr := { s.wr with state := if s.wr.nbits = 0 then .done else .pad } } := by
  have hstep : exec .packEos s = .next (detectDone ((s.qGet .b).setWr
      { s.wr with state := if 0 < s.wr.nbits.toNat then .pad else .done })) := if_pos ⟨hat, hheld⟩
  have hstate : (if 0 < s.wr.nbits.toNat then WrState.pad else .done) = if s.wr.nbits = 0 then .done else .pad := by
    by_cases hn : s.wr.nbits = 0
    · simp [hn]
    · rw [if_pos (by bv_omega), if_neg hn]
  have hall : allDone ((s.qGet .b).setWr { s.wr with state := if s.wr.nbits = 0 then .done else .pad }) ↔
      s.wr.nbits = 0 ∧ s.rd.state = .done ∧ s.eng.state = .done := by
    simpa [allDone] using and_rotate.symm
  rw [hstep, hstate, detectDone_eq, doneIf_congr _ hall]
  rfl

theorem peek_of_empty {id : QueueId} (h : (s.queue id).filled = 0) : s.peek id = none :=
  if_neg (Nat.not_lt.mpr (Nat.le_of_eq h))

theorem exec_packCode_blocked (hempty : s.qb.filled = 0) (c : Code) : exec (.packCode c) s = .next s :=
  if_neg fun h => by simp [State.holdsItem, peek_of_empty (id := .b) hempty] at h

theorem exec_packEos_blocked (hempty : s.qb.filled = 0) : exec .packEos s = .next s :=
  if_neg fun h => by simp [State.holdsEos, peek_of_empty (id := .b) hempty] at h

/-! ## The packer writes (R88, R90) -/

section
variable {rest : List SinkAnswer}

theorem sinkNext_cons {a : SinkAnswer} (hsnk : s.host.snk = a :: rest) : s.sinkNext = some a := by
  rw [State.sinkNext, hsnk, List.head?_cons]

/-- PACK.EMIT answered OK, as numbers. -/
theorem exec_packEmit_ok (hat : writerAt s .compress .emit) (hacc : s.wr.acc.toNat < 2 ^ s.wr.nbits.toNat)
    (h8 : 8 ≤ s.wr.nbits.toNat) (h16 : s.wr.nbits.toNat ≤ 16) (hsnk : s.host.snk = .ok :: rest) :
    exec (.packEmit .ok) s = .next { s with
      wr := { s.wr with
        nbits := BitVec.ofNat 5 (s.wr.nbits.toNat - 8)
        acc := BitVec.ofNat 16 (s.wr.acc.toNat % 2 ^ (s.wr.nbits.toNat - 8))
        state := if s.wr.nbits.toNat - 8 < 8 then .get else .emit }
      host := { s.host with
        snk := rest
        out := s.host.out ++ [BitVec.ofNat 8 (s.wr.acc.toNat / 2 ^ (s.wr.nbits.toNat - 8))] } } := by
  have hsub : (s.wr.nbits - 8).toNat = s.wr.nbits.toNat - 8 := by bv_omega
  have hkeep := keepLow_toNat s.wr.acc (nbits := s.wr.nbits - 8) (by omega)
  have hstep : exec (.packEmit .ok) s = .next (detectDone ((s.sinkWrite (packedByte s.wr.acc s.wr.nbits) .ok).setWr
      { s.wr with nbits := s.wr.nbits - 8, acc := keepLow s.wr.acc (s.wr.nbits - 8),
                  state := if (s.wr.nbits - 8).toNat < 8 then .get else .emit })) :=
    if_pos ⟨hat, sinkNext_cons hsnk⟩
  have hnew : (if (s.wr.nbits - 8).toNat < 8 then WrState.get else .emit) ≠ .done := by split <;> nofun
  rw [hsub] at hkeep
  rw [hstep, detectDone_eq_self (fun hd => hnew hd.2.2), sinkWrite_ok_setWr hsnk,
    eq_ofNat_of_toNat_eq (packedByte_toNat hacc h8), eq_ofNat_of_toNat_eq hkeep, hsub, eq_ofNat_of_toNat_eq hsub]

/-- PACK.FLUSH answered OK, as numbers. -/
theorem exec_packFlush_ok (hat : writerAt s .compress .pad) (hn : s.wr.nbits = 4) (hacc : s.wr.acc.toNat < 16)
    (hsnk : s.host.snk = .ok :: rest) :
    exec (.packFlush .ok) s = .next { s with
      core := s.core.doneIf (s.rd.state = .done ∧ s.eng.state = .done)
      wr := { s.wr with acc := 0, nbits := 0, state := .done }
      host := { s.host with snk := rest, out := s.host.out ++ [BitVec.ofNat 8 (s.wr.acc.toNat * 16)] } } := by
  have hstep : exec (.packFlush .ok) s = .next (detectDone ((s.sinkWrite (paddedByte s.wr.acc s.wr.nbits) .ok).setWr
      { s.wr with acc := 0, nbits := 0, state := .done })) := if_pos ⟨hat, sinkNext_cons hsnk⟩
  rw [hstep, hn, eq_ofNat_of_toNat_eq (paddedByte_toNat hacc), sinkWrite_ok_setWr hsnk, detectDone_eq]
  simp only [allDone, and_true]

/-- A sink ERROR aborts the job (R88, R141). -/
theorem exec_packEmit_error (hat : writerAt s .compress .emit) (hsnk : s.host.snk = .error :: rest) :
    exec (.packEmit .error) s =
      .next { s with core := s.core.aborted .ioSink .none 0, host := { s.host with snk := rest } } := by
  rw [← sinkWrite_error_abort hsnk (packedByte s.wr.acc s.wr.nbits)]
  exact if_pos ⟨hat, sinkNext_cons hsnk⟩

theorem exec_packFlush_error (hat : writerAt s .compress .pad) (hsnk : s.host.snk = .error :: rest) :
    exec (.packFlush .error) s =
      .next { s with core := s.core.aborted .ioSink .none 0, host := { s.host with snk := rest } } := by
  rw [← sinkWrite_error_abort hsnk (paddedByte s.wr.acc s.wr.nbits)]
  exact if_pos ⟨hat, sinkNext_cons hsnk⟩

end

theorem sinkNext_nil (hsnk : s.host.snk = []) : s.sinkNext = none := by
  rw [State.sinkNext, hsnk, List.head?_nil]

theorem exec_packEmit_blocked (hsnk : s.host.snk = []) (r : SinkAnswer) : exec (.packEmit r) s = .next s :=
  if_neg fun h => by simp [sinkNext_nil hsnk] at h

theorem exec_packFlush_blocked (hsnk : s.host.snk = []) (r : SinkAnswer) : exec (.packFlush r) s = .next s :=
  if_neg fun h => by simp [sinkNext_nil hsnk] at h

end Sys2Proof.Machine
end

section
/-! The statements on the bit packer and the bit unpacker (42_bitpack.md). -/

namespace Sys2Proof.Proofs

open Sys2Proof Sys2Proof.Machine

/-- Settles O55: every operation of a stage keeps the simulation, in which the output followed by what the registers and
queues still hold is the packed stream of encode(X); in DONE nothing is still held. -/
theorem compressJobOutput : Obligations.CompressJobOutput := by
  intro s t xs w later ts n hcap hidle hturns hstage hsrc hw hn hrun
  have hlast : srcKind w ≠ 0 := by rcases hw with hw | hw <;> rw [hw] <;> decide
  obtain ⟨hinv, hjob⟩ :=
    compressJob_of_run (j := ⟨xs, w, later, s.host.out⟩) hcap hidle hturns hstage hlast hsrc rfl hn hrun
  refine ⟨hjob.done hinv, fun habort => ?_⟩
  obtain ⟨-, hsent, hcause⟩ := hjob.aborted habort
  exact ⟨hsent, hcause⟩

/-- Settles O17: the rows answer READER's registers, which are the rule's numbers for every bit buffer R29 allows. -/
theorem unpackerReads : Obligations.UnpackerReads := by
  intro s hrun hmode hst
  have hat : readerAt s .decompress .read := ⟨hrun, hmode, hst⟩
  refine ⟨fun b rest hbits hn hsrc => ?_, fun d rest hsrc => exec_unpackEnd hat hsrc⟩
  rw [exec_unpackByte hat hsrc, Reader.unpacked_eq hbits hn]

/-- Settles O31: a get finds the item or EOS at QB's head, or nothing. -/
theorem packerTakes : Obligations.PackerTakes := by
  intro s hrun hmode hst
  have hat : writerAt s .compress .get := ⟨hrun, hmode, hst⟩
  refine ⟨fun hfilled c hslot => ?_, fun hfilled htag => ?_, fun hempty => ?_⟩
  · exact exec_packCode hat ((peek_of_canGet (id := .b) hfilled).trans (congrArg some hslot))
  · refine exec_packEos hat ?_
    rw [State.holdsEos, peek_of_canGet (id := .b) hfilled]
    exact congrArg some htag
  · exact ⟨exec_packCode_blocked hempty, exec_packEos_blocked hempty⟩

/-- Settles O32: the sink's answer, or none, selects the row's branch, and the byte written is the rule's number. -/
theorem packerWrites : Obligations.PackerWrites := by
  intro s rest hrun hmode hacc
  refine ⟨fun hst h8 h16 => ?_, fun hst hn => ?_⟩
  · have hat : writerAt s .compress .emit := ⟨hrun, hmode, hst⟩
    exact ⟨exec_packEmit_ok hat hacc h8 h16, exec_packEmit_error hat, exec_packEmit_blocked⟩
  · have hat : writerAt s .compress .pad := ⟨hrun, hmode, hst⟩
    have hacc : s.wr.acc.toNat < 16 := by simpa [hn] using hacc
    exact ⟨exec_packFlush_ok hat hn hacc, exec_packFlush_error hat, exec_packFlush_blocked⟩

end Sys2Proof.Proofs
end

section
/-! SUPPORT. The length of `encode`'s code sequence (43_compress.md R106), and the rows of ENGINE in COMPRESS mode
(43_compress.md R96 to R104): what each answers, enabled and blocked. -/

namespace Sys2Proof.Machine

/-! ## The length of `encode` (R106) -/

/-- One symbol's share of the length: it pays for one code, and a reset marker (R102) is paid for by the 3840 misses
that move `next` from 257 to 4096 and then find the dictionary full. `n` is the number of symbols after it. -/
theorem encSymbol_length_le (st : EncState) (x : Byte) (n : Nat) :
    (encSymbol st x).1.length + (n + ((encSymbol st x).2.next - 257)) / 3840 ≤
      1 + (n + 1 + (st.next - 257)) / 3840 := by
  unfold encSymbol
  split
  next => simp only [List.length_nil]; omega
  next =>
    split
    next => simp only [List.length_nil]; omega
    next =>
      split
      next => simp only [List.length_cons, List.length_nil]; omega
      next => simp only [List.length_cons, List.length_nil]; omega

/-- At most one code for each symbol and one for the last match, and a reset marker for each 3840 symbols, those
already spent on entries counted. -/
theorem encodeFrom_length_le (st : EncState) (xs : List Byte) :
    (encodeFrom st xs).length ≤ xs.length + 1 + (xs.length + (st.next - 257)) / 3840 := by
  induction xs generalizing st with
  | nil => unfold encodeFrom; split <;> simp
  | cons x xs ih =>
    have hhead := encSymbol_length_le st x xs.length
    have htail := ih (encSymbol st x).2
    rw [encodeFrom, List.length_append, List.length_cons]
    omega

/-- After a symbol there is a match to put out. -/
theorem encSymbol_cur_ne_root (st : EncState) (x : Byte) : (encSymbol st x).2.cur ≠ .root := by
  unfold encSymbol
  split
  next => nofun
  next =>
    split
    next => nofun
    next => split <;> nofun

theorem encodeFrom_ne_nil {st : EncState} (hcur : st.cur ≠ .root) (xs : List Byte) : encodeFrom st xs ≠ [] := by
  induction xs generalizing st with
  | nil =>
    cases hc : st.cur with
    | root => exact absurd hc hcur
    | code c => simp [encodeFrom, hc]
  | cons x xs ih => exact List.append_ne_nil_of_right_ne_nil _ (ih (encSymbol_cur_ne_root st x))

/-- The variables of `encode` after its first symbol. -/
def encAfterFirst (x : Byte) : EncState := { encStart with cur := .code (zextCode x) }

theorem lzwEncode_cons (x : Byte) (xs : List Byte) : lzwEncode (x :: xs) = encodeFrom (encAfterFirst x) xs :=
  encodeFrom_root rfl x xs

variable {s : State}

/-! ## The parts of ENGINE's step -/

/-- While ENGINE goes on, DONE detection finds nothing. -/
theorem detectDone_of_eng (h : s.eng.state ≠ .done) : detectDone s = s := detectDone_eq_self fun hd => h hd.2.1

theorem not_canPut_of_full {id : QueueId} (h : (s.queue id).free = 0) : ¬ canPut s id :=
  Nat.not_lt.mpr (Nat.le_of_eq h)

/-! ## C.FETCH (R96, R97) -/

theorem exec_cFetchSym (hat : engineAt s .compress .cFetch) {v : Code} (hitem : s.holdsItem .a v) :
    exec (.cFetchSym v) s = .next { s with
      qa := s.qa.afterGet s.qcap, eng := { s.eng with sym := payloadByte v, state := .cMatch } } :=
  (if_pos ⟨hat, hitem⟩).trans (congrArg _ (detectDone_of_eng nofun))

theorem exec_cFetchEos (hat : engineAt s .compress .cFetch) (hheld : s.holdsEos .a) :
    exec .cFetchEos s = .next { s with
      qa := s.qa.afterGet s.qcap
      eng := { s.eng with state := if s.eng.cur = .root then .cEos else .cFinal } } := by
  have hlive : (if s.eng.cur = .root then EngState.cEos else .cFinal) ≠ .done := by split <;> nofun
  exact (if_pos ⟨hat, hheld⟩).trans (congrArg _ (detectDone_of_eng hlive))

theorem exec_cFetchSym_blocked (hempty : s.qa.filled = 0) (v : Code) : exec (.cFetchSym v) s = .next s :=
  if_neg fun h => by simp [State.holdsItem, peek_of_empty (id := .a) hempty] at h

theorem exec_cFetchEos_blocked (hempty : s.qa.filled = 0) : exec .cFetchEos s = .next s :=
  if_neg fun h => by simp [State.holdsEos, peek_of_empty (id := .a) hempty] at h

/-! ## C.MATCH (R98, R99) -/

theorem exec_cMatchHit (hat : engineAt s .compress .cMatch) {k : Code}
    (hhit : s.dictFind s.eng.cur s.eng.sym = some k) :
    exec .cMatchHit s = .next { s with eng := { s.eng with cur := .code k, state := .cFetch } } := by
  have hstep : execCMatchHit s = .next (detectDone (s.setEng { s.eng with cur := .code k, state := .cFetch })) := by
    rw [execCMatchHit, if_pos hat, hhit]
  exact hstep.trans (congrArg _ (detectDone_of_eng nofun))

theorem exec_cMatchMiss (hat : engineAt s .compress .cMatch) (hmiss : s.dictFind s.eng.cur s.eng.sym = none) :
    exec .cMatchMiss s = .next { s with eng := { s.eng with state := .cEmit } } :=
  (if_pos ⟨hat, hmiss⟩).trans (congrArg _ (detectDone_of_eng nofun))

/-! ## The rows that put (R100 to R104) -/

section
variable (hput : canPut s .b)
include hput

theorem exec_cEmitAdd (hat : engineAt s .compress .cEmit) (hn : s.eng.nextCode.toNat ≤ 4095) {c : Code}
    (hcur : s.eng.cur = .code c) :
    exec .cEmitAdd s = .next { s with
      qb := s.qb.afterPut s.qcap (itemElem c)
      eng := { s.eng with
        dict := s.eng.dict.write s.eng.nextCode.toNat { parent := c, symbol := s.eng.sym }
        nextCode := s.eng.nextCode + 1, cur := .root, state := .cMatch } } := by
  have hstep : execCEmitAdd s = .next (detectDone (((s.qPut .b (itemElem c)).dictAdd c s.eng.sym).setEng
      { ((s.qPut .b (itemElem c)).dictAdd c s.eng.sym).eng with cur := .root, state := .cMatch })) := by
    rw [execCEmitAdd, if_pos ⟨hat, hn, hput⟩, hcur]
  exact hstep.trans (congrArg _ (detectDone_of_eng nofun))

theorem exec_cEmitFull (hat : engineAt s .compress .cEmit) (hn : s.eng.nextCode.toNat = 4096) {c : Code}
    (hcur : s.eng.cur = .code c) :
    exec .cEmitFull s = .next { s with
      qb := s.qb.afterPut s.qcap (itemElem c), eng := { s.eng with state := .cReset } } := by
  have hstep : execCEmitFull s =
      .next (detectDone ((s.qPut .b (itemElem c)).setEng { s.eng with state := .cReset })) := by
    rw [execCEmitFull, if_pos ⟨hat, hn, hput⟩, hcur]
  exact hstep.trans (congrArg _ (detectDone_of_eng nofun))

theorem exec_cReset (hat : engineAt s .compress .cReset) :
    exec .cReset s = .next { s with
      qb := s.qb.afterPut s.qcap (itemElem resetCode)
      eng := { s.eng with nextCode := 257, cur := .root, state := .cMatch } } :=
  (if_pos ⟨hat, hput⟩).trans (congrArg _ (detectDone_of_eng nofun))

theorem exec_cFinal (hat : engineAt s .compress .cFinal) {c : Code} (hcur : s.eng.cur = .code c) :
    exec .cFinal s = .next { s with
      qb := s.qb.afterPut s.qcap (itemElem c), eng := { s.eng with state := .cEos } } := by
  have hstep : execCFinal s = .next (detectDone ((s.qPut .b (itemElem c)).setEng { s.eng with state := .cEos })) := by
    rw [execCFinal, if_pos ⟨hat, hput⟩, hcur]
  exact hstep.trans (congrArg _ (detectDone_of_eng nofun))

theorem exec_cEos (hat : engineAt s .compress .cEos) :
    exec .cEos s = .next { s with
      core := s.core.doneIf (s.rd.state = .done ∧ s.wr.state = .done)
      qb := s.qb.afterPut s.qcap eosElem, eng := { s.eng with state := .done } } := by
  have hstep : exec .cEos s = .next (detectDone ((s.qPut .b eosElem).setEng { s.eng with state := .done })) :=
    if_pos ⟨hat, hput⟩
  have hall : allDone ((s.qPut .b eosElem).setEng { s.eng with state := .done }) ↔
      s.rd.state = .done ∧ s.wr.state = .done := by simp [allDone]
  rw [hstep, detectDone_eq, doneIf_congr _ hall]
  rfl

end

/-! ## A full QB blocks the rows that put (R69) -/

section
variable (hfull : ¬ canPut s .b)
include hfull

theorem exec_cEmitAdd_blocked : exec .cEmitAdd s = .next s := if_neg fun h => hfull h.2.2

theorem exec_cEmitFull_blocked : exec .cEmitFull s = .next s := if_neg fun h => hfull h.2.2

theorem exec_cReset_blocked : exec .cReset s = .next s := if_neg fun h => hfull h.2

theorem exec_cFinal_blocked : exec .cFinal s = .next s := if_neg fun h => hfull h.2

theorem exec_cEos_blocked : exec .cEos s = .next s := if_neg fun h => hfull h.2

end

end Sys2Proof.Machine
end

section
/-! The statements on the compressor (43_compress.md). -/

namespace Sys2Proof.Proofs

open Sys2Proof Sys2Proof.Machine

/-- Settles O53: the first symbol puts nothing out and leaves a match, from which the bound on the rest counts. -/
theorem encodeLength : Obligations.EncodeLength := by
  intro xs
  cases xs with
  | nil => simp [lzwEncode, encodeFrom, encStart]
  | cons x xs =>
    have hlen := encodeFrom_length_le (encAfterFirst x) xs
    have hnext : (encAfterFirst x).next = 257 := rfl
    have hcur : (encAfterFirst x).cur ≠ .root := by simp [encAfterFirst]
    rw [lzwEncode_cons, List.length_cons]
    rw [hnext] at hlen
    exact ⟨by omega, iff_of_false (encodeFrom_ne_nil hcur xs) (List.cons_ne_nil x xs)⟩

/-- Settles O19: a get finds the item or EOS at QA's head, or nothing. -/
theorem compressFetches : Obligations.CompressFetches := by
  intro s hrun hmode hst
  have hat : engineAt s .compress .cFetch := ⟨hrun, hmode, hst⟩
  refine ⟨fun hfilled v hslot => ?_, fun hfilled htag => ?_, fun hempty => ?_⟩
  · exact exec_cFetchSym hat ((peek_of_canGet (id := .a) hfilled).trans (congrArg some hslot))
  · refine exec_cFetchEos hat ?_
    rw [State.holdsEos, peek_of_canGet (id := .a) hfilled]
    exact congrArg some htag
  · exact ⟨exec_cFetchSym_blocked hempty, exec_cFetchEos_blocked hempty⟩

/-- Settles O20: DICT.FIND's answer selects the row. -/
theorem compressMatches : Obligations.CompressMatches := by
  intro s hrun hmode hst
  have hat : engineAt s .compress .cMatch := ⟨hrun, hmode, hst⟩
  exact ⟨fun _ => exec_cMatchHit hat, exec_cMatchMiss hat⟩

/-- Settles O21: the row is enabled where QB has room and blocked where it has none. -/
theorem compressEmitsAndAdds : Obligations.CompressEmitsAndAdds := by
  intro s c hrun hmode hst hn hcur
  exact ⟨fun hput => exec_cEmitAdd hput ⟨hrun, hmode, hst⟩ hn hcur,
    fun hfull => exec_cEmitAdd_blocked (not_canPut_of_full (id := .b) hfull)⟩

/-- Settles O22: both rows are enabled where QB has room and blocked where it has none. -/
theorem compressFullAndReset : Obligations.CompressFullAndReset := by
  intro s hrun hmode
  refine ⟨fun c hst hn hcur => ⟨fun hput => ?_, fun hfull => ?_⟩, fun hst => ⟨fun hput => ?_, fun hfull => ?_⟩⟩
  · exact exec_cEmitFull hput ⟨hrun, hmode, hst⟩ (congrArg BitVec.toNat hn) hcur
  · exact exec_cEmitFull_blocked (not_canPut_of_full (id := .b) hfull)
  · exact exec_cReset hput ⟨hrun, hmode, hst⟩
  · exact exec_cReset_blocked (not_canPut_of_full (id := .b) hfull)

/-- Settles O23: both rows are enabled where QB has room and blocked where it has none. -/
theorem compressEnds : Obligations.CompressEnds := by
  intro s hrun hmode
  refine ⟨fun c hst hcur => ⟨fun hput => ?_, fun hfull => ?_⟩, fun hst => ⟨fun hput => ?_, fun hfull => ?_⟩⟩
  · exact exec_cFinal hput ⟨hrun, hmode, hst⟩ hcur
  · exact exec_cFinal_blocked (not_canPut_of_full (id := .b) hfull)
  · exact exec_cEos hput ⟨hrun, hmode, hst⟩
  · exact exec_cEos_blocked (not_canPut_of_full (id := .b) hfull)

end Sys2Proof.Proofs
end

section
/-! SUPPORT. `decode` undoes `encode` (44_decompress.md R123, R124): where both stand between two codes, the string the
encoder has matched and not yet put out makes the decoder's table the encoder's. -/

namespace Sys2Proof.Machine

/-- The string of a code in a string table (R109): a literal's byte, or the entry. -/
def codeString (table : List (Code × Str)) (c : Code) : Str :=
  if c.toNat ≤ 255 then [payloadByte c] else (table.lookup c).getD []

/-- A literal, or a code of the table with a next code of `next` (R77, R108). -/
def DefinedBelow (next : Nat) (c : Code) : Prop := c.toNat ≤ 255 ∨ (257 ≤ c.toNat ∧ c.toNat < next)

theorem DefinedBelow.mono {m n : Nat} {c : Code} (h : DefinedBelow m c) (hmn : m ≤ n) : DefinedBelow n c :=
  h.imp_right fun ⟨hlow, hlt⟩ => ⟨hlow, hlt.trans_le hmn⟩

theorem definedBelow_zextCode (n : Nat) (x : Byte) : DefinedBelow n (zextCode x) := by
  refine .inl ?_
  have := x.isLt
  rw [zextCode_toNat]; omega

theorem codeString_zextCode (table : List (Code × Str)) (x : Byte) : codeString table (zextCode x) = [x] := by
  have := x.isLt
  rw [codeString, if_pos (by rw [zextCode_toNat]; omega), payloadByte_zextCode]

/-- A new entry at `n` leaves the strings of the codes below `n` as they were. -/
theorem codeString_cons_of_definedBelow {n : Nat} {c : Code} (h : DefinedBelow n c) (hn : n ≤ 4095) (p : Str)
    (table : List (Code × Str)) : codeString ((BitVec.ofNat 12 n, p) :: table) c = codeString table c := by
  unfold codeString
  split
  next => rfl
  next hlit =>
    obtain ⟨-, hlt⟩ := h.resolve_left hlit
    have hne : c ≠ BitVec.ofNat 12 n := by bv_omega
    rw [List.lookup_cons, beq_false_of_ne hne]

theorem codeString_cons_self {n : Nat} (hlow : 257 ≤ n) (hn : n ≤ 4095) (p : Str) (table : List (Code × Str)) :
    codeString ((BitVec.ofNat 12 n, p) :: table) (BitVec.ofNat 12 n) = p := by
  have hnat : (BitVec.ofNat 12 n).toNat = n := by simp; omega
  rw [codeString, if_neg (by omega), List.lookup_cons, beq_self_eq_true]
  rfl

/-- Each entry of the encoder's dictionary stands for its parent's string followed by its symbol (R106), in `table`. -/
def DictStrings (next : Nat) (dict : List ((Code × Byte) × Code)) (table : List (Code × Str)) : Prop :=
  ∀ b x k, dict.lookup (b, x) = some k →
    DefinedBelow next b ∧ DefinedBelow next k ∧ codeString table k = codeString table b ++ [x]

/-- The encoder's new entry and the decoder's stand for the same string. -/
theorem DictStrings.add {next : Nat} {dict : List ((Code × Byte) × Code)} {table : List (Code × Str)} {c : Code}
    (h : DictStrings next dict table) (hlow : 257 ≤ next) (hn : next ≤ 4095) (hc : DefinedBelow next c) (x : Byte) :
    DictStrings (next + 1) (((c, x), BitVec.ofNat 12 next) :: dict)
      ((BitVec.ofNat 12 next, codeString table c ++ [x]) :: table) := by
  intro b y k hk
  rw [List.lookup_cons] at hk
  by_cases hkey : (b, y) = (c, x)
  · cases hkey
    simp only [beq_self_eq_true] at hk
    cases hk
    have hnew : (BitVec.ofNat 12 next).toNat = next := by simp; omega
    refine ⟨hc.mono (Nat.le_succ _), .inr (by omega), ?_⟩
    rw [codeString_cons_self hlow hn, codeString_cons_of_definedBelow hc hn]
  · rw [beq_false_of_ne hkey] at hk
    obtain ⟨hb, hdef, hstring⟩ := h b y k hk
    refine ⟨hb.mono (Nat.le_succ _), hdef.mono (Nat.le_succ _), ?_⟩
    rw [codeString_cons_of_definedBelow hdef hn, codeString_cons_of_definedBelow hb hn, hstring]

/-! ## The synchronisation (R123) -/

/-- The encoder `e` has matched the string `w` of its code `c`, and `d` has decoded all that `e` has put out: with `w`
taken as its next string, `d` has the encoder's next code and table. -/
structure InStep (e : EncState) (d : DecState) (c : Code) (w : Str) : Prop where
  cur : e.cur = .code c
  defined : DefinedBelow e.next c
  string : codeString (decAdvance d w).table c = w
  nonempty : w ≠ []
  next : (decAdvance d w).next = e.next
  low : 257 ≤ d.next
  high : e.next ≤ 4096
  fresh : d.fresh = true → d.prev = []
  start : d.prev = [] → d.next = 257
  dict : DictStrings e.next e.dict (decAdvance d w).table

/-- After a literal has been matched from an empty table, with nothing decoded since. -/
theorem inStep_literal {d : DecState} (hprev : d.prev = []) (hnext : d.next = 257) (x : Byte) :
    InStep (encAfterFirst x) d (zextCode x) [x] where
  cur := rfl
  defined := definedBelow_zextCode _ x
  string := codeString_zextCode _ x
  nonempty := nofun
  next := by simp [encAfterFirst, encStart, decAdvance, hprev, hnext]
  low := hnext.ge
  high := by simp [encAfterFirst, encStart]
  fresh _ := hprev
  start _ := hnext
  dict := nofun

variable {e : EncState} {d : DecState} {c k : Code} {w : Str} {x : Byte}

/-- D_ADD uses only the first byte of the string (R119). -/
theorem decAdvance_table_append (d : DecState) (hw : w ≠ []) (p : Str) :
    (decAdvance d (w ++ p)).table = (decAdvance d w).table := by
  cases w with
  | nil => exact absurd rfl hw
  | cons b w => simp [decAdvance]

theorem decAdvance_next_of_nil (h : d.prev = []) (p : Str) : (decAdvance d p).next = d.next := if_pos h

theorem decAdvance_table_of_nil (h : d.prev = []) (p : Str) : (decAdvance d p).table = d.table := if_pos h

theorem decAdvance_next_of_prev (h : d.prev ≠ []) (p : Str) : (decAdvance d p).next = d.next + 1 := if_neg h

theorem decAdvance_table_of_prev (h : d.prev ≠ []) (p : Str) :
    (decAdvance d p).table = (BitVec.ofNat 12 d.next, d.prev ++ p.take 1) :: d.table := if_neg h

theorem le_decAdvance_next (d : DecState) (p : Str) : d.next ≤ (decAdvance d p).next := by
  simp only [decAdvance]; split <;> omega

/-- The encoder takes a symbol with its match. -/
theorem InStep.hit (h : InStep e d c w) (hhit : e.dict.lookup (c, x) = some k) :
    InStep { e with cur := .code k } d k (w ++ [x]) := by
  have htable := decAdvance_table_append d h.nonempty [x]
  obtain ⟨-, hdef, hstring⟩ := h.dict c x k hhit
  exact { h with
    cur := rfl
    defined := hdef
    string := by rw [htable, hstring, h.string]
    nonempty := by simp
    dict := by rw [htable]; exact h.dict }

/-- The encoder puts its code out with room for an entry, and the decoder decodes it. -/
theorem InStep.miss (h : InStep e d c w) (hn : e.next ≤ 4095) (x : Byte) :
    InStep { cur := .code (zextCode x), next := e.next + 1, dict := ((c, x), BitVec.ofNat 12 e.next) :: e.dict }
      (decAdvance d w) (zextCode x) [x] := by
  have hlow : 257 ≤ e.next := h.next ▸ h.low.trans (le_decAdvance_next d w)
  have htable : (decAdvance (decAdvance d w) [x]).table =
      (BitVec.ofNat 12 e.next, codeString (decAdvance d w).table c ++ [x]) :: (decAdvance d w).table := by
    rw [decAdvance_table_of_prev h.nonempty, h.next, h.string]
    rfl
  exact {
    cur := rfl
    defined := definedBelow_zextCode _ x
    string := codeString_zextCode _ x
    nonempty := nofun
    next := by rw [decAdvance_next_of_prev h.nonempty, h.next]
    low := h.next.symm ▸ hlow
    high := Nat.succ_le_succ hn
    fresh := nofun
    start := fun hnil => absurd hnil h.nonempty
    dict := htable ▸ h.dict.add hlow hn h.defined x }

/-- The encoder is an entry ahead, so the decoder has room for one. -/
theorem InStep.room (h : InStep e d c w) (hprev : d.prev ≠ []) : d.next ≤ 4095 := by
  have hhigh := h.high
  rw [← h.next, decAdvance_next_of_prev hprev] at hhigh
  exact Nat.le_of_succ_le_succ hhigh

/-- Of a code the encoder puts out, the decoder has the entry, or the code is the entry it adds next (KwKwK). -/
theorem InStep.code_le_next (h : InStep e d c w) :
    c.toNat ≤ 255 ∨ (257 ≤ c.toNat ∧ c.toNat ≤ d.next ∧ d.prev ≠ []) := by
  refine h.defined.imp_right fun ⟨hlow, hlt⟩ => ?_
  have hprev : d.prev ≠ [] := fun hnil => by
    have hnext := h.next
    rw [decAdvance_next_of_nil hnil, h.start hnil] at hnext
    omega
  rw [← h.next, decAdvance_next_of_prev hprev] at hlt
  exact ⟨hlow, Nat.le_of_lt_succ hlt, hprev⟩

/-- The string the decoder takes for the encoder's code is the one the encoder has matched. -/
theorem InStep.decString (h : InStep e d c w) : decString d c = w := by
  have hstring := h.string
  unfold codeString at hstring
  unfold Machine.decString
  split at hstring
  next hlit => rw [if_pos hlit, hstring]
  next hlit =>
    obtain ⟨hlow, hle, hprev⟩ := h.code_le_next.resolve_left hlit
    have hroom := h.room hprev
    rw [if_neg hlit]
    rw [decAdvance_table_of_prev hprev, List.lookup_cons] at hstring
    by_cases hkwk : c.toNat = d.next
    · have hc : c = BitVec.ofNat 12 d.next := eq_ofNat_of_toNat_eq hkwk
      have hw : d.prev ++ w.take 1 = w := by simpa [← hc] using hstring
      have hfirst : w.take 1 = d.prev.take 1 := by
        rw [← hw, List.take_append_of_le_length (List.length_pos_iff.mpr hprev)]
      rw [if_neg (by omega), ← hfirst, hw]
    · have hne : c ≠ BitVec.ofNat 12 d.next := by bv_omega
      rw [if_pos (by omega), ← hstring, beq_false_of_ne hne]

/-- The decoder decodes the code the encoder puts out. -/
theorem InStep.decodeFrom_cons (h : InStep e d c w) (out : Str) (cs : List Code) :
    decodeFrom d out (c :: cs) = decodeFrom (decAdvance d w) (out ++ w) cs := by
  have hcode := h.code_le_next
  have hnotReset : c ≠ resetCode := by
    rintro rfl
    rcases hcode with hlit | ⟨hlow, -⟩
    · exact absurd hlit (by decide)
    · exact absurd hlow (by decide)
  have hnotFresh : ¬ (d.fresh = true ∧ 256 ≤ c.toNat) := fun ⟨hfresh, hc⟩ => by
    obtain ⟨-, -, hprev⟩ := hcode.resolve_left (by omega)
    exact hprev (h.fresh hfresh)
  have hinRange : ¬ (257 ≤ c.toNat ∧ (d.prev = [] ∨ d.next < c.toNat)) := fun ⟨hc, hrange⟩ => by
    obtain ⟨-, hle, hprev⟩ := hcode.resolve_left (by omega)
    exact hrange.elim hprev (Nat.not_lt.mpr hle)
  have hroom : ¬ (d.prev ≠ [] ∧ d.next = 4096) := fun ⟨hprev, hfull⟩ =>
    absurd (h.room hprev) (by omega)
  rw [decodeFrom, if_neg hnotFresh, if_neg hnotReset, if_neg hinRange, if_neg hroom, h.decString]

/-- In step, the decoder puts out the string matched and the symbols to come: by induction on the symbols. -/
theorem decodeFrom_encodeFrom (xs : List Byte) {e : EncState} {d : DecState} {c : Code} {w : Str}
    (h : InStep e d c w) (out : Str) : decodeFrom d out (encodeFrom e xs) = .ok (out ++ w ++ xs) := by
  induction xs generalizing e d c w out with
  | nil => simp [encodeFrom, h.cur, h.decodeFrom_cons, decodeFrom]
  | cons x xs ih =>
    cases hfind : e.dict.lookup (c, x) with
    | some k =>
      rw [encodeFrom_hit h.cur hfind, ih (h.hit hfind)]
      simp
    | none =>
      rcases Nat.lt_or_eq_of_le h.high with hroom | hfull
      · have hn : e.next ≤ 4095 := Nat.le_of_lt_succ hroom
        rw [encodeFrom_miss h.cur hfind hn, encodeFrom_root rfl, h.decodeFrom_cons, ih (h.miss hn x)]
        simp
      · have hreset : decodeFrom (decAdvance d w) (out ++ w) (resetCode :: encodeFrom (encAfterFirst x) xs) =
            decodeFrom decRestart (out ++ w) (encodeFrom (encAfterFirst x) xs) := by
          rw [decodeFrom, if_neg (by simp [decAdvance]), if_pos rfl]
        rw [encodeFrom_full h.cur hfind hfull, encodeFrom_root rfl, h.decodeFrom_cons]
        refine hreset.trans ((ih (inStep_literal rfl rfl x) _).trans ?_)
        simp

/-- R124: the whole of `encode`'s sequence decodes to the bytes it was made of. -/
theorem lzwDecode_lzwEncode (xs : List Byte) : lzwDecode (lzwEncode xs) = .ok xs := by
  cases xs with
  | nil => rfl
  | cons x xs =>
    rw [lzwEncode_cons]
    exact decodeFrom_encodeFrom xs (inStep_literal rfl rfl x) []

end Sys2Proof.Machine
end

section
/-! SUPPORT. The bit unpacker as a function of the bytes it reads (42_bitpack.md R91, R92): from an empty buffer it gives
the codes of the packed stream (R94). -/

namespace Sys2Proof.Machine

/-- The codes the unpacker latches from the buffer `(acc, nbits)` on, for the bytes it reads before END. -/
def unpackFrom (acc : BitBuf) (nbits : BitCount) : List Byte → List Code
  | [] => []
  | b :: bs =>
      if 12 ≤ (nbits + 8).toNat then
        unpackedCode (pushByte acc b) (nbits + 8) ::
          unpackFrom (keepLow (pushByte acc b) (nbits + 8 - 12)) (nbits + 8 - 12) bs
      else unpackFrom (pushByte acc b) (nbits + 8) bs

/-- The code READER has latched and not put (R91). -/
def Reader.latchedCode (r : Reader) : List Code := if r.state = .put then [r.latch] else []

/-- UNPACK.BYTE latches a code where its byte completes one. -/
theorem unpackFrom_cons (r : Reader) (b : Byte) (bs : List Byte) :
    unpackFrom r.acc r.nbits (b :: bs) =
      (r.unpacked b).latchedCode ++ unpackFrom (r.unpacked b).acc (r.unpacked b).nbits bs := by
  unfold Reader.unpacked
  by_cases h12 : 12 ≤ (r.nbits + 8).toNat
  · rw [unpackFrom, if_pos h12, if_pos h12]; rfl
  · rw [unpackFrom, if_neg h12, if_neg h12]; rfl

/-! ## The bits of the unpacker's words -/

theorem getLsbD_pushByte (acc : BitBuf) (b : Byte) {i : Nat} (hi : i < 16) :
    (pushByte acc b).getLsbD i = if i < 8 then b.getLsbD i else acc.getLsbD (i - 8) := by
  rw [pushByte, BitVec.getLsbD_or, BitVec.getLsbD_shiftLeft, BitVec.getLsbD_setWidth]
  by_cases h : i < 8
  · simp [h, hi]
  · simp only [h, hi, BitVec.getLsbD_of_ge b i (Nat.not_lt.mp h), decide_true, decide_false, Bool.not_false,
      Bool.true_and, Bool.and_false, Bool.or_false, if_false]

theorem getLsbD_unpackedCode (acc : BitBuf) (nbits : BitCount) (i : Nat) :
    (unpackedCode acc nbits).getLsbD i = (decide (i < 12) && acc.getLsbD ((nbits - 12).toNat + i)) := by
  rw [unpackedCode, BitVec.getLsbD_setWidth, BitVec.getLsbD_ushiftRight]

/-! ## The unpacker's codes -/

/-- A byte read into an empty buffer completes no code. -/
theorem unpackFrom_first (x : Byte) (bs : List Byte) : unpackFrom 0 0 (x :: bs) = unpackFrom (x.setWidth 16) 8 bs := by
  have hbuf : pushByte 0 x = x.setWidth 16 := by simp [pushByte]
  rw [unpackFrom, if_neg (by decide), hbuf]
  rfl

/-- A byte read onto a byte completes a code and leaves four bits over. -/
theorem unpackFrom_second (x y : Byte) (bs : List Byte) :
    unpackFrom (x.setWidth 16) 8 (y :: bs) =
      (x ++ y.extractLsb' 4 4) :: unpackFrom ((y.extractLsb' 0 4).setWidth 16) 4 bs := by
  have hcode : unpackedCode (pushByte (x.setWidth 16) y) 16 = x ++ y.extractLsb' 4 4 := by
    refine BitVec.eq_of_getLsbD_eq fun i hi => ?_
    rw [getLsbD_unpackedCode, show (16 - 12 : BitCount).toNat = 4 from rfl, getLsbD_pushByte _ _ (by omega),
      BitVec.getLsbD_append]
    by_cases h : i < 4
    · simp [h, hi, show 4 + i < 8 by omega]
    · simp [h, hi, show ¬ 4 + i < 8 by omega, show 4 + i - 8 = i - 4 by omega, show i - 4 < 16 by omega]
  have hrest : keepLow (pushByte (x.setWidth 16) y) 4 = (y.extractLsb' 0 4).setWidth 16 := by
    refine BitVec.eq_of_getLsbD_eq fun i hi => ?_
    rw [getLsbD_keepLow _ (by decide), getLsbD_pushByte _ _ hi]
    by_cases h : i < 4
    · simp [h, hi, show i < 8 by omega]
    · simp [h]
  rw [unpackFrom, if_pos (by decide)]
  exact congrArg₂ _ hcode (congrArg (unpackFrom · 4 bs) hrest)

/-- A byte read onto four bits completes a code and leaves an empty buffer. -/
theorem unpackFrom_third (low : BitVec 4) (z : Byte) (bs : List Byte) :
    unpackFrom (low.setWidth 16) 4 (z :: bs) = (low ++ z) :: unpackFrom 0 0 bs := by
  have hcode : unpackedCode (pushByte (low.setWidth 16) z) 12 = low ++ z := by
    refine BitVec.eq_of_getLsbD_eq fun i hi => ?_
    rw [getLsbD_unpackedCode, show (12 - 12 : BitCount).toNat + i = i from Nat.zero_add i,
      getLsbD_pushByte _ _ (by omega), BitVec.getLsbD_append]
    by_cases h : i < 8
    · simp [h, hi]
    · simp [h, hi, show i - 8 < 16 by omega]
  have hrest : keepLow (pushByte (low.setWidth 16) z) 0 = 0 := by
    refine BitVec.eq_of_toNat_eq ?_
    rw [keepLow_toNat _ (by decide)]
    exact Nat.mod_one _
  rw [unpackFrom, if_pos (by decide)]
  exact congrArg₂ _ hcode (congrArg (unpackFrom · 0 bs) hrest)

/-- From an empty buffer the unpacker gives R94's codes, by induction on the triples `unpackCodes` unpacks. -/
theorem unpackFrom_eq_unpackCodes (bs : List Byte) : unpackFrom 0 0 bs = unpackCodes bs := by
  induction bs using unpackCodes.induct with
  | case1 => rfl
  | case2 x => rw [unpackFrom_first]; rfl
  | case3 x y => rw [unpackFrom_first, unpackFrom_second]; rfl
  | case4 x y z rest ih => rw [unpackFrom_first, unpackFrom_second, unpackFrom_third, ih, unpackCodes]

end Sys2Proof.Machine
end

section
/-! SUPPORT. One code of `decode` (44_decompress.md R122) in ENGINE's registers: the class of the code (R62) says what
`decode` does with it, and decoding it keeps the string table in step with T. -/

namespace Sys2Proof.Machine

variable {s t : State}

/-- The variables of `decode` in ENGINE's registers, `table` standing for T. -/
def Engine.decState (e : Engine) (table : List (Code × Str)) : DecState :=
  { prev := e.prev, fresh := e.fresh, next := e.nextCode.toNat, table := table }

@[simp] theorem decState_prev (e : Engine) (table : List (Code × Str)) : (e.decState table).prev = e.prev := rfl
@[simp] theorem decState_next (e : Engine) (table : List (Code × Str)) :
    (e.decState table).next = e.nextCode.toNat := rfl
@[simp] theorem decState_table (e : Engine) (table : List (Code × Str)) : (e.decState table).table = table := rfl

/-- What `decode` does with a code of each class, `cs` being the codes after it; EOS ends the codes. -/
def classResult (st : DecState) (out : Str) (c : Code) (cs : List Code) : DClass → DecResult
  | .eosIn => .ok out
  | .errFresh => .corrupt .fresh c out
  | .reset => decodeFrom decRestart out cs
  | .errRange => .corrupt .range c out
  | .errOverflow => .corrupt .overflow c out
  | .lit | .seq | .kwk => decodeFrom (decAdvance st (decString st c)) (out ++ decString st c) cs

/-- R62's lines are `decode`'s tests, in the same order. -/
theorem decodeFrom_cons_eq_classResult {st : DecState} {n : Counter} (hn : n.toNat = st.next) (out : Str) (c : Code)
    (cs : List Code) :
    decodeFrom st out (c :: cs) = classResult st out c cs (classify (itemElem c) st.fresh st.prev.isEmpty n) := by
  have hreset : c = resetCode ↔ c.toNat = 256 := ⟨fun h => h ▸ rfl, fun h => BitVec.eq_of_toNat_eq h⟩
  rw [decodeFrom]
  simp only [classify, elemTag_itemElem, elemPayload_itemElem, hreset, List.isEmpty_iff, List.isEmpty_eq_false_iff,
    Bool.false_eq_true, if_false, hn]
  by_cases hfresh : st.fresh = true ∧ 256 ≤ c.toNat
  · rw [if_pos hfresh, if_pos hfresh, classResult]
  by_cases hmarker : c.toNat = 256
  · rw [if_neg hfresh, if_neg hfresh, if_pos hmarker, if_pos hmarker, classResult]
  by_cases hrange : 257 ≤ c.toNat ∧ (st.prev = [] ∨ st.next < c.toNat)
  · rw [if_neg hfresh, if_neg hfresh, if_neg hmarker, if_neg hmarker, if_pos hrange, if_pos hrange, classResult]
  by_cases hfull : st.prev ≠ [] ∧ st.next = 4096
  · rw [if_neg hfresh, if_neg hfresh, if_neg hmarker, if_neg hmarker, if_neg hrange, if_neg hrange, if_pos hfull,
      if_pos hfull, classResult]
  rw [if_neg hfresh, if_neg hfresh, if_neg hmarker, if_neg hmarker, if_neg hrange, if_neg hrange, if_neg hfull,
    if_neg hfull]
  split
  next => rfl
  next => split <;> rfl

/-- `decode` only adds to the bytes it has put out. -/
theorem decodeFrom_bytes_extend (st : DecState) (out : Str) (cs : List Code) :
    out <+: (decodeFrom st out cs).bytes := by
  induction cs generalizing st out with
  | nil => exact List.prefix_refl _
  | cons c cs ih =>
    unfold decodeFrom
    split
    next => exact List.prefix_refl _
    next =>
      split
      next => exact ih _ _
      next =>
        split
        next => exact List.prefix_refl _
        next =>
          split
          next => exact List.prefix_refl _
          next => exact (List.prefix_append _ _).trans (ih _ _)

/-! ## The string table -/

/-- `table` holds the strings of T below next_code (R108). -/
def TableMap (s : State) (table : List (Code × Str)) : Prop :=
  ∀ c : Code, 257 ≤ c.toNat → c.toNat < s.eng.nextCode.toNat → table.lookup c = some (s.tableAt c.toNat)

theorem TableMap.congr {table : List (Code × Str)} (h : TableMap s table) (ht : t.eng.table = s.eng.table)
    (hn : t.eng.nextCode = s.eng.nextCode) : TableMap t table := by
  intro c hlow hlt
  rw [State.tableAt, ht]
  exact h c hlow (hn ▸ hlt)

theorem tableMap_empty (hn : s.eng.nextCode.toNat = 257) : TableMap s [] := fun c hlow hlt => by omega

section
variable {table : List (Code × Str)} (hroom : s.eng.prev ≠ [] → s.eng.nextCode.toNat ≤ 4095) (first : Byte) (rest : Str)
include hroom

/-- Decoding a string is a step of `decode`'s variables (R119, R122). -/
theorem decState_decoded :
    (s.eng.decoded first rest).decState (decAdvance (s.eng.decState table) (first :: rest)).table =
      decAdvance (s.eng.decState table) (first :: rest) := by
  by_cases hprev : s.eng.prev = []
  · simp [Engine.decState, Engine.decoded, decAdvance, hprev]
  · have hnext := next_succ (n := s.eng.nextCode) (Nat.le_succ_of_le (hroom hprev))
    simp only [Engine.decState, Engine.decoded, decAdvance, hprev, if_false, hnext]

theorem TableMap.decoded (h : TableMap s table) :
    TableMap (s.setEng (s.eng.decoded first rest)) (decAdvance (s.eng.decState table) (first :: rest)).table := by
  have hnext : (s.eng.decoded first rest).nextCode.toNat = (decAdvance (s.eng.decState table) (first :: rest)).next :=
    congrArg DecState.next (decState_decoded hroom first rest)
  intro c hlow hlt
  rw [State.setEng_eng, hnext] at hlt
  rw [tableAt_decoded]
  by_cases hprev : s.eng.prev = []
  · rw [decAdvance_next_of_nil hprev, decState_next] at hlt
    rw [decAdvance_table_of_nil hprev, decState_table, if_neg fun hadd => hadd.1 hprev]
    exact h c hlow hlt
  · rw [decAdvance_next_of_prev hprev, decState_next] at hlt
    rw [decAdvance_table_of_prev hprev, decState_next, decState_prev, decState_table, List.lookup_cons]
    by_cases hc : c.toNat = s.eng.nextCode.toNat
    · rw [if_pos ⟨hprev, hc⟩, beq_iff_eq.mpr (eq_ofNat_of_toNat_eq hc)]
      rfl
    · have hne : c ≠ BitVec.ofNat 12 s.eng.nextCode.toNat := by
        have := hroom hprev
        bv_omega
      rw [if_neg fun hadd => hc hadd.2, beq_false_of_ne hne]
      exact h c hlow (Nat.lt_of_le_of_ne (Nat.le_of_lt_succ hlt) hc)

end

end Sys2Proof.Machine
end

section
/-! SUPPORT. A DECOMPRESS job as a refinement of `decode` (42_bitpack.md R94, 44_decompress.md R122): `decode`, gone on from
ENGINE's registers with the bytes sent and still held as its output and the codes still held as its input, has the
result of the whole job. -/

namespace Sys2Proof.Machine

/-! ## What the machine holds -/

/-- The codes ENGINE has still to fetch, `ys` being the bytes READER has still to read. -/
def State.codes (s : State) (ys : List Byte) : List Code :=
  s.queuedCodes .a ++ (s.rd.latchedCode ++ unpackFrom s.rd.acc s.rd.nbits ys)

/-- The bytes of the decoded string ENGINE has still to put (R120). -/
def Engine.unput (e : Engine) : Str := if e.state = .dEmit then e.obuf.drop e.oidx.toNat else []

/-- The byte WRITER has got and not written (R134). -/
def Writer.held (w : Writer) : Str := if w.state = .emit then [w.byte] else []

/-- The bytes decoded and not yet written. -/
def State.unsent (s : State) : Str := s.wr.held ++ ((s.queuedCodes .b).map payloadByte ++ s.eng.unput)

variable {j : Job} {s t : State}

@[simp] theorem codes_setRd (s : State) (r : Reader) (ys : List Byte) :
    (s.setRd r).codes ys = s.queuedCodes .a ++ (r.latchedCode ++ unpackFrom r.acc r.nbits ys) := by simp [State.codes]
@[simp] theorem codes_setEng (s : State) (e : Engine) (ys : List Byte) : (s.setEng e).codes ys = s.codes ys := by
  simp [State.codes]
@[simp] theorem codes_qPut_b (s : State) (e : Elem13) (ys : List Byte) : (s.qPut .b e).codes ys = s.codes ys := by
  simp [State.codes]
@[simp] theorem codes_detectDone (s : State) (ys : List Byte) : (detectDone s).codes ys = s.codes ys := by
  simp [State.codes]
@[simp] theorem unsent_detectDone (s : State) : (detectDone s).unsent = s.unsent := by simp [State.unsent]

theorem unsent_congr (hqb : t.qb = s.qb) (heng : t.eng = s.eng) (hwr : t.wr = s.wr) (hcap : t.qcap = s.qcap) :
    t.unsent = s.unsent := by
  rw [State.unsent, queuedCodes_congr (s := s) (id := .b) hqb hcap, heng, hwr, State.unsent]

theorem codes_congr (hqa : t.qa = s.qa) (hrd : t.rd = s.rd) (hcap : t.qcap = s.qcap) (ys : List Byte) :
    t.codes ys = s.codes ys := by
  rw [State.codes, queuedCodes_congr (s := s) (id := .a) hqa hcap, hrd, State.codes]

theorem codes_getItem (h : RunInv s) {c : Code} (hitem : s.holdsItem .a c) (ys : List Byte) :
    s.codes ys = c :: (s.qGet .a).codes ys := by
  simp [State.codes, queuedCodes_getItem (id := .a) h.qa hitem]

/-! ## The simulation -/

/-- What `decode` makes of the job's input. -/
def Job.decoded (j : Job) : DecResult := lzwDecode (unpackCodes j.bytes)

/-- The simulation: `decode` goes on from ENGINE's registers to the job's result. -/
structure DecompressSim (j : Job) (s : State) : Prop where
  mode : s.core.mode = .decompress
  live : s.core.status ≠ .aborted
  stream : ∃ ys table sent, SourceAt j s ys ∧ TableMap s table ∧ s.host.out = j.out ++ sent ∧
    decodeFrom (s.eng.decState table) (sent ++ s.unsent) (s.codes ys) = j.decoded

/-- Why a DECOMPRESS job may abort, and with what in the error registers (R150). -/
def AbortCause (j : Job) (code : ErrCode) (reason : ErrReason) (info : Code) : Prop :=
  code = .ioSink ∨ (code = .ioSource ∧ srcKind j.last = 2) ∨
    (code = .corrupt ∧ ∃ before, j.decoded = .corrupt reason info before)

/-- A DECOMPRESS job that has ended by abort (R150). -/
structure DecompressAborted (j : Job) (s : State) : Prop where
  status : s.core.status = .aborted
  sent : ∃ p, p <+: j.decoded.bytes ∧ s.host.out = j.out ++ p
  cause : AbortCause j s.core.errCode s.core.errReason s.core.errInfo

/-- A DECOMPRESS job, running or ended. -/
def DecompressJob (j : Job) (s : State) : Prop := DecompressSim j s ∨ DecompressAborted j s

theorem DecompressSim.sent_prefix (h : DecompressSim j s) :
    ∃ p, p <+: j.decoded.bytes ∧ s.host.out = j.out ++ p := by
  obtain ⟨ys, table, sent, -, -, hout, hstream⟩ := h.stream
  refine ⟨sent, ?_, hout⟩
  rw [← hstream]
  exact (List.prefix_append _ _).trans (decodeFrom_bytes_extend _ _ _)

/-! ## What ends a step: DONE detection, an abort -/

theorem DecompressSim.detectDone (h : DecompressSim j s) : DecompressSim j (detectDone s) := by
  obtain ⟨hmode, hlive, ys, table, sent, ⟨hahead, hended⟩, htable, hout, hstream⟩ := h
  refine ⟨by simpa using hmode, ?_, ys, table, sent, ⟨by simpa using hahead, by simpa using hended⟩,
    htable.congr (by simp) (by simp), by simpa using hout, by simpa using hstream⟩
  rw [detectDone_status]
  split <;> simp [hlive]

theorem DecompressSim.abort (h : DecompressSim j s) (side : HostSide) (hout : side.out = s.host.out) {code : ErrCode}
    {reason : ErrReason} {info : Code} (hcause : AbortCause j code reason info) :
    DecompressAborted j ((s.setHost side).abort code reason info) := by
  refine ⟨rfl, ?_, hcause⟩
  obtain ⟨p, hp, hs⟩ := h.sent_prefix
  exact ⟨p, hp, hout.trans hs⟩

/-! ## The three stages' steps -/

/-- A step of READER keeps the codes to come. -/
theorem DecompressSim.readerStep (h : DecompressSim j s) (hcore : t.core = s.core) (hqb : t.qb = s.qb)
    (heng : t.eng = s.eng) (hwr : t.wr = s.wr) (hcap : t.qcap = s.qcap) (hout : t.host.out = s.host.out)
    (hflow : ∀ ys, SourceAt j s ys → ∃ ys', SourceAt j t ys' ∧ t.codes ys' = s.codes ys) : DecompressSim j t := by
  obtain ⟨hmode, hlive, ys, table, sent, hsrc, htable, hsent, hstream⟩ := h
  obtain ⟨ys', hsrc', hcodes⟩ := hflow ys hsrc
  refine ⟨hcore ▸ hmode, hcore ▸ hlive, ys', table, sent, hsrc', htable.congr (by rw [heng]) (by rw [heng]),
    hout.trans hsent, ?_⟩
  rw [heng, unsent_congr hqb heng hwr hcap, hcodes, hstream]

/-- A step of ENGINE goes on as `decode` does. -/
theorem DecompressSim.engineStep (h : DecompressSim j s) (hcore : t.core = s.core) (hrd : t.rd = s.rd)
    (hhost : t.host = s.host)
    (hflow : ∀ ys table sent, TableMap s table → ∃ table', TableMap t table' ∧
      decodeFrom (t.eng.decState table') (sent ++ t.unsent) (t.codes ys) =
        decodeFrom (s.eng.decState table) (sent ++ s.unsent) (s.codes ys)) : DecompressSim j t := by
  obtain ⟨hmode, hlive, ys, table, sent, hsrc, htable, hsent, hstream⟩ := h
  obtain ⟨table', htable', hcont⟩ := hflow ys table sent htable
  refine ⟨hcore ▸ hmode, hcore ▸ hlive, ys, table', sent, ⟨?_, ?_⟩, htable', hhost ▸ hsent, hcont.trans hstream⟩
  · rw [hrd, hhost]; exact hsrc.ahead
  · rw [hrd]; exact hsrc.ended

/-- A step of ENGINE that leaves `decode`'s variables alone and keeps the bytes unsent and the codes to come. -/
theorem DecompressSim.engineMove (h : DecompressSim j s) (hcore : t.core = s.core) (hrd : t.rd = s.rd)
    (hhost : t.host = s.host) (hst : ∀ table, t.eng.decState table = s.eng.decState table)
    (htable : t.eng.table = s.eng.table) (hunsent : t.unsent = s.unsent) (hcodes : ∀ ys, t.codes ys = s.codes ys) :
    DecompressSim j t :=
  h.engineStep hcore hrd hhost fun ys table sent hmap =>
    ⟨table, hmap.congr htable (BitVec.eq_of_toNat_eq (congrArg DecState.next (hst table))), by
      rw [hst, hunsent, hcodes]⟩

/-- A step of WRITER keeps the bytes sent and unsent. -/
theorem DecompressSim.writerStep (h : DecompressSim j s) (hcore : t.core = s.core) (hqa : t.qa = s.qa)
    (hrd : t.rd = s.rd) (heng : t.eng = s.eng) (hcap : t.qcap = s.qcap) (hsrc : t.host.src = s.host.src)
    (hflow : ∀ sent, s.host.out = j.out ++ sent →
      ∃ sent', t.host.out = j.out ++ sent' ∧ sent' ++ t.unsent = sent ++ s.unsent) : DecompressSim j t := by
  obtain ⟨hmode, hlive, ys, table, sent, hsource, htable, hsent, hstream⟩ := h
  obtain ⟨sent', hsent', hbytes⟩ := hflow sent hsent
  refine ⟨hcore ▸ hmode, hcore ▸ hlive, ys, table, sent', ⟨?_, ?_⟩, htable.congr (by rw [heng]) (by rw [heng]),
    hsent', ?_⟩
  · rw [hrd, hsrc]; exact hsource.ahead
  · rw [hrd]; exact hsource.ended
  · rw [heng, hbytes, codes_congr hqa hrd hcap, hstream]

end Sys2Proof.Machine
end

section
/-! SUPPORT. READER's steps in a DECOMPRESS job: each is a step of the unpacker, or aborts with IO_SOURCE. -/

namespace Sys2Proof.Machine

variable {j : Job} {s t : State}

theorem latchedCode_of_ne_put {r : Reader} (h : r.state ≠ .put) : r.latchedCode = [] := if_neg h

section
variable (h : DecompressSim j s)
include h

theorem DecompressSim.unpackByte (hread : s.rd.state = .read) (hlast : srcKind j.last ≠ 0) {b : Byte}
    (hw : s.sourceNext = some (srcWord 0 b)) : DecompressSim j (s.sourceRead.setRd (s.rd.unpacked b)) := by
  refine h.readerStep rfl rfl rfl rfl rfl rfl fun ys hsrc => ?_
  obtain ⟨ys', rfl, hrest⟩ := hsrc.byte hread hlast hw
  have hnew : (s.rd.unpacked b).state = .read ∨ (s.rd.unpacked b).state = .put := by
    unfold Reader.unpacked
    split <;> simp
  refine ⟨ys', sourceAt_reading hnew hrest, ?_⟩
  rw [codes_setRd, queuedCodes_sourceRead, ← unpackFrom_cons, State.codes,
    latchedCode_of_ne_put (r := s.rd) (by simp [hread]), List.nil_append]

/-- At END the bits left over are discarded (R92). -/
theorem DecompressSim.unpackEnd (hread : s.rd.state = .read) (hw : s.sourceNext.map srcKind = some 1) :
    DecompressSim j (s.sourceRead.setRd { s.rd with acc := 0, nbits := 0, state := .eos }) := by
  refine h.readerStep rfl rfl rfl rfl rfl rfl fun ys hsrc => ?_
  obtain ⟨rfl, hlast⟩ := hsrc.atEnd hread (by decide) hw
  refine ⟨[], sourceAt_ended (.inl rfl) hlast, ?_⟩
  simp [State.codes, latchedCode_of_ne_put, hread, unpackFrom]

theorem DecompressSim.rdSrcError (hread : s.rd.state = .read) (hw : s.sourceNext.map srcKind = some 2) :
    DecompressAborted j (s.sourceRead.abort .ioSource .none 0) := by
  obtain ⟨_, _, _, hsrc, -⟩ := h.stream
  have hlast := (hsrc.atEnd hread (by decide) hw).2
  exact h.abort { s.host with src := s.host.src.tail } rfl (.inr (.inl ⟨rfl, hlast⟩))

theorem DecompressSim.rdPut (hinv : RunInv s) (hst : s.rd.state = .put) (hput : canPut s .a) :
    DecompressSim j ((s.qPut .a (itemElem s.rd.latch)).setRd { s.rd with state := .read }) := by
  refine h.readerStep rfl rfl rfl rfl rfl rfl fun ys hsrc => ?_
  refine ⟨ys, sourceAt_reading (.inl rfl) (hsrc.ahead (.inr hst)), ?_⟩
  simp [State.codes, Reader.latchedCode, hst, queuedCodes_putItem (id := .a) hinv.qa hput]

theorem DecompressSim.rdEos (hinv : RunInv s) (hst : s.rd.state = .eos) (hput : canPut s .a) :
    DecompressSim j ((s.qPut .a eosElem).setRd { s.rd with state := .done }) := by
  refine h.readerStep rfl rfl rfl rfl rfl rfl fun ys hsrc => ?_
  obtain ⟨rfl, hlast⟩ := hsrc.ended (.inl hst)
  refine ⟨[], sourceAt_ended (.inr rfl) hlast, ?_⟩
  simp [State.codes, Reader.latchedCode, hst, queuedCodes_putEos (id := .a) hinv.qa hput]

end

theorem readerOp_decompressJob {i : Instr} (hinv : RunInv s) (hlast : srcKind j.last ≠ 0) (h : DecompressSim j s)
    (hop : ReaderOp i) (hexec : exec i s = .next t) : DecompressJob j t := by
  have hunpack : s.core.mode ≠ .compress := by simp [h.mode]
  cases hop with
  | rawByte b =>
    rcases execRdRawByte_next hexec with rfl | ⟨⟨⟨-, hmode, -⟩, -⟩, -⟩
    · exact .inl h
    · exact absurd hmode hunpack
  | rawEnd =>
    rcases execRdRawEnd_next hexec with rfl | ⟨⟨⟨-, hmode, -⟩, -⟩, -⟩
    · exact .inl h
    · exact absurd hmode hunpack
  | srcError m =>
    rcases execRdSrcError_next hexec with rfl | ⟨⟨⟨-, -, hst⟩, hw⟩, rfl⟩
    · exact .inl h
    · exact .inr (h.rdSrcError hst hw)
  | unpackByte b =>
    rcases execUnpackByte_next hexec with rfl | ⟨⟨⟨-, -, hst⟩, hw⟩, rfl⟩
    · exact .inl h
    · exact .inl (h.unpackByte hst hlast hw).detectDone
  | unpackEnd =>
    rcases execUnpackEnd_next hexec with rfl | ⟨⟨⟨-, -, hst⟩, hw⟩, rfl⟩
    · exact .inl h
    · exact .inl (h.unpackEnd hst hw).detectDone
  | put m =>
    rcases execRdPut_next hexec with rfl | ⟨⟨⟨-, -, hst⟩, hput⟩, rfl⟩
    · exact .inl h
    · exact .inl (h.rdPut hinv hst hput).detectDone
  | eos m =>
    rcases execRdEos_next hexec with rfl | ⟨⟨⟨-, -, hst⟩, hput⟩, rfl⟩
    · exact .inl h
    · exact .inl (h.rdEos hinv hst hput).detectDone

end Sys2Proof.Machine
end

section
/-! SUPPORT. ENGINE's steps in a DECOMPRESS job: each is a step of `decode` (44_decompress.md R122), or aborts with
CORRUPT as `decode` does. -/

namespace Sys2Proof.Machine

variable {j : Job} {s t : State}

theorem unput_of_ne_emit {e : Engine} (h : e.state ≠ .dEmit) : e.unput = [] := if_neg h

theorem unput_decoded (e : Engine) (first : Byte) (rest : Str) : (e.decoded first rest).unput = first :: rest := rfl

/-- Outside D_EMIT a decoded string is what ENGINE has still to put. -/
theorem unsent_decoded (hst : s.eng.state ≠ .dEmit) (first : Byte) (rest : Str) :
    ((s.qGet .a).setEng (s.eng.decoded first rest)).unsent = s.unsent ++ first :: rest := by
  simp [State.unsent, unput_of_ne_emit hst, unput_decoded]

/-- D.EMIT puts the first of the bytes still to put, and leaves D_EMIT with the last (R120). -/
theorem unput_dEmit {e : Engine} (hst : e.state = .dEmit) (hnext : (e.oidx + 1).toNat = e.oidx.toNat + 1) {b : Byte}
    (hb : e.obuf[e.oidx.toNat]? = some b) :
    e.unput = b :: Engine.unput { e with
      oidx := e.oidx + 1, state := if (e.oidx + 1).toNat = e.obuf.length then .dFetch else .dEmit } := by
  obtain ⟨hlt, rfl⟩ := List.getElem?_eq_some_iff.mp hb
  have hold : e.unput = e.obuf[e.oidx.toNat] :: e.obuf.drop (e.oidx + 1).toNat := by
    rw [Engine.unput, if_pos hst, hnext, List.drop_eq_getElem_cons hlt]
  rw [hold]
  by_cases hlast : (e.oidx + 1).toNat = e.obuf.length
  · simp only [Engine.unput, hlast, if_true, List.drop_length, reduceCtorEq, if_false]
  · simp only [Engine.unput, hlast, if_false, if_true]

/-! ## What `decode` does with the code at QA's front -/

/-- The class of the code at QA's front says how `decode` goes on. -/
theorem decodeFrom_of_fetchesClass (hinv : RunInv s) {k : DClass} {c : Code} (hclass : fetchesClass s k)
    (hitem : s.holdsItem .a c) (table : List (Code × Str)) (out : Str) (ys : List Byte) :
    decodeFrom (s.eng.decState table) out (s.codes ys) =
      classResult (s.eng.decState table) out c ((s.qGet .a).codes ys) k := by
  rw [codes_getItem hinv hitem, decodeFrom_cons_eq_classResult (n := s.eng.nextCode) rfl]
  exact congrArg _ (classify_of_fetchesClass hclass hitem)

section
variable {table : List (Code × Str)}

theorem decString_lit (b : Byte) : decString (s.eng.decState table) (zextCode b) = [b] := by
  have := b.isLt
  rw [decString, if_pos (by rw [zextCode_toNat]; omega), payloadByte_zextCode]

theorem decString_seq (htable : TableMap s table) {c : Code} (hlow : 257 ≤ c.toNat)
    (hlt : c.toNat < s.eng.nextCode.toNat) : decString (s.eng.decState table) c = s.tableAt c.toNat := by
  rw [decString, if_neg (by omega), decState_next, if_pos hlt, decState_table, htable c hlow hlt, Option.getD_some]

theorem decString_kwk {c : Code} (hlow : 257 ≤ c.toNat) (hc : c.toNat = s.eng.nextCode.toNat) {first : Byte}
    {rest : Str} (hprev : s.eng.prev = first :: rest) :
    decString (s.eng.decState table) c = first :: (rest ++ [first]) := by
  rw [decString, if_neg (by omega), decState_next, if_neg (by omega), decState_prev, hprev]
  rfl

end

section
variable (h : DecompressSim j s) (hinv : RunInv s)
include h hinv

/-- A corrupt code aborts as `decode` stops (R112, R114, R115). -/
theorem DecompressSim.corrupt {k : DClass} {c : Code} {reason : ErrReason} (hclass : fetchesClass s k)
    (hitem : s.holdsItem .a c) (hk : ∀ st out cs, classResult st out c cs k = .corrupt reason c out) :
    DecompressAborted j (s.abort .corrupt reason c) := by
  obtain ⟨ys, table, sent, -, -, -, hstream⟩ := h.stream
  rw [decodeFrom_of_fetchesClass hinv hclass hitem, hk] at hstream
  exact h.abort s.host rfl (.inr (.inr ⟨rfl, _, hstream.symm⟩))

/-- A legal code other than the marker is decoded to the string `decode` decodes it to (R116 to R118). -/
theorem DecompressSim.dDecoded {k : DClass} {c : Code} {first : Byte} {rest : Str} (hclass : fetchesClass s k)
    (hitem : s.holdsItem .a c)
    (hk : ∀ st out cs, classResult st out c cs k =
      decodeFrom (decAdvance st (decString st c)) (out ++ decString st c) cs)
    (hroom : s.eng.prev ≠ [] → s.eng.nextCode.toNat ≤ 4095)
    (hstring : ∀ table, TableMap s table → decString (s.eng.decState table) c = first :: rest) :
    DecompressSim j ((s.qGet .a).dDecoded first rest) := by
  rw [dDecoded_eq, State.qGet_eng]
  refine h.engineStep rfl rfl rfl fun ys table sent htable => ⟨_, htable.decoded hroom first rest, ?_⟩
  have hst : s.eng.state ≠ .dEmit := by simp [hclass.1.2.2]
  rw [decodeFrom_of_fetchesClass hinv hclass hitem, hk, hstring table htable, unsent_decoded hst, codes_setEng,
    State.setEng_eng, decState_decoded hroom, List.append_assoc]

theorem DecompressSim.dReset (hclass : fetchesClass s .reset) :
    DecompressSim j ((s.qGet .a).setEng
      { s.eng with nextCode := 257, prev := [], fresh := true, state := .dFetch }) := by
  obtain ⟨hget, htag⟩ := item_of_dClass hclass.2 nofun
  have hitem : s.holdsItem .a (elemPayload (s.front .a)) := by
    rw [State.holdsItem, itemElem_of_tag htag, peek_of_canGet hget]
  refine h.engineStep rfl rfl rfl fun ys table sent _ => ⟨[], tableMap_empty rfl, ?_⟩
  have hunsent : ((s.qGet .a).setEng
      { s.eng with nextCode := 257, prev := [], fresh := true, state := .dFetch }).unsent = s.unsent := by
    simp [State.unsent, unput_of_ne_emit, hclass.1.2.2]
  rw [decodeFrom_of_fetchesClass hinv hclass hitem, hunsent, codes_setEng]
  rfl

/-- EOS is no code, and none is behind it. -/
theorem DecompressSim.dEosIn (hclass : fetchesClass s .eosIn) :
    DecompressSim j ((s.qGet .a).setEng { s.eng with state := .dEos }) := by
  obtain ⟨e, hpeek, hk⟩ := dClass_some hclass.2
  have hheld : s.holdsEos .a := by rw [State.holdsEos, hpeek, Option.map_some, classify_eosIn hk]
  refine h.engineMove rfl rfl rfl (fun _ => rfl) rfl ?_ fun ys => ?_
  · simp [State.unsent, unput_of_ne_emit, hclass.1.2.2]
  · simp [State.codes, queuedCodes_getEos (id := .a) hinv.qa hheld]

theorem DecompressSim.dEmit (hst : s.eng.state = .dEmit) (hput : canPut s .b) {b : Byte}
    (hb : s.eng.obuf[s.eng.oidx.toNat]? = some b) :
    DecompressSim j ((s.qPut .b (itemElem (zextCode b))).setEng
      { s.eng with oidx := s.eng.oidx + 1,
                   state := if (s.eng.oidx + 1).toNat = s.eng.obuf.length then .dFetch else .dEmit }) := by
  have hdec := hinv.engine.decompress h.mode
  have hnext := oidx_succ ((hdec.emitting hst).trans_le hdec.obufLength)
  refine h.engineMove rfl rfl rfl (fun _ => rfl) rfl ?_ fun ys => by simp
  simp only [State.unsent, queuedCodes_setEng, State.setEng_wr, State.setEng_eng, State.qPut_wr,
    queuedCodes_putItem (id := .b) hinv.qb hput, unput_dEmit hst hnext hb, List.map_append, List.map_cons,
    List.map_nil, payloadByte_zextCode, List.append_assoc, List.singleton_append]

theorem DecompressSim.dEosOut (hst : s.eng.state = .dEos) (hput : canPut s .b) :
    DecompressSim j ((s.qPut .b eosElem).setEng { s.eng with state := .done }) := by
  refine h.engineMove rfl rfl rfl (fun _ => rfl) rfl ?_ fun ys => by simp
  simp [State.unsent, unput_of_ne_emit, hst, queuedCodes_putEos (id := .b) hinv.qb hput]

end

/-- A class of a legal code leaves D_ADD room for its entry (R115). -/
theorem RunInv.room (hinv : RunInv s) (hn : s.eng.prev.isEmpty = true ∨ s.eng.nextCode.toNat ≠ 4096)
    (hprev : s.eng.prev ≠ []) : s.eng.nextCode.toNat ≤ 4095 := by
  have hhigh := hinv.engine.high
  have hne := hn.resolve_left (by simpa using hprev)
  omega

theorem decompressOp_decompressJob {i : Instr} (hinv : RunInv s) (h : DecompressSim j s) (hop : DecompressOp i)
    (hexec : exec i s = .next t) : DecompressJob j t := by
  cases hop with
  | eosIn =>
    rcases execDEosIn_next hexec with rfl | ⟨hclass, rfl⟩
    · exact .inl h
    · exact .inl (h.dEosIn hinv hclass).detectDone
  | errFresh c =>
    rcases execDErrFresh_next hexec with rfl | ⟨⟨hclass, hitem⟩, rfl⟩
    · exact .inl h
    · exact .inr (h.corrupt hinv hclass hitem fun _ _ _ => rfl)
  | reset =>
    rcases execDReset_next hexec with rfl | ⟨hclass, rfl⟩
    · exact .inl h
    · exact .inl (h.dReset hinv hclass).detectDone
  | errRange c =>
    rcases execDErrRange_next hexec with rfl | ⟨⟨hclass, hitem⟩, rfl⟩
    · exact .inl h
    · exact .inr (h.corrupt hinv hclass hitem fun _ _ _ => rfl)
  | errOverflow c =>
    rcases execDErrOverflow_next hexec with rfl | ⟨⟨hclass, hitem⟩, rfl⟩
    · exact .inl h
    · exact .inr (h.corrupt hinv hclass hitem fun _ _ _ => rfl)
  | lit b =>
    rcases execDLit_next hexec with rfl | ⟨⟨hclass, hitem⟩, rfl⟩
    · exact .inl h
    · have hroom := hinv.room (classify_lit (classify_of_fetchesClass hclass hitem)).1
      exact .inl (h.dDecoded hinv hclass hitem (fun _ _ _ => rfl) hroom fun _ _ => decString_lit b).detectDone
  | seq c =>
    rcases execDSeq_next hexec with rfl | ⟨first, rest, ⟨hclass, hitem, hn⟩, hstring, rfl⟩
    · exact .inl h
    · obtain ⟨-, -, hlow, hlt⟩ := classify_seq (classify_of_fetchesClass hclass hitem)
      rw [elemPayload_itemElem] at hlow hlt
      exact .inl (h.dDecoded hinv hclass hitem (fun _ _ _ => rfl) (fun _ => hn) fun _ htable =>
        (decString_seq htable hlow hlt).trans hstring).detectDone
  | kwk c =>
    rcases execDKwk_next hexec with rfl | ⟨first, rest, ⟨hclass, hitem⟩, hprev, rfl⟩
    · exact .inl h
    · obtain ⟨-, hn, hlow, hc⟩ := classify_kwk (classify_of_fetchesClass hclass hitem)
      rw [elemPayload_itemElem] at hlow hc
      exact .inl (h.dDecoded hinv hclass hitem (fun _ _ _ => rfl) (hinv.room (.inr hn)) fun _ _ =>
        decString_kwk hlow hc hprev).detectDone
  | emit =>
    rcases execDEmit_next hexec with rfl | ⟨b, ⟨⟨-, -, hst⟩, hput⟩, hb, rfl⟩
    · exact .inl h
    · exact .inl (h.dEmit hinv hst hput hb).detectDone
  | eosOut =>
    rcases execDEosOut_next hexec with rfl | ⟨⟨⟨-, -, hst⟩, hput⟩, rfl⟩
    · exact .inl h
    · exact .inl (h.dEosOut hinv hst hput).detectDone

end Sys2Proof.Machine
end

section
/-! SUPPORT. WRITER's steps in a DECOMPRESS job: each keeps the bytes sent and unsent, or aborts with IO_SINK. -/

namespace Sys2Proof.Machine

variable {j : Job} {s t : State}

theorem held_of_ne_emit {w : Writer} (h : w.state ≠ .emit) : w.held = [] := if_neg h

section
variable (h : DecompressSim j s)
include h

theorem DecompressSim.wrRawByte (hinv : RunInv s) (hst : s.wr.state = .get) {v : Code} (hitem : s.holdsItem .b v) :
    DecompressSim j ((s.qGet .b).setWr { s.wr with byte := payloadByte v, state := .emit }) := by
  refine h.writerStep rfl rfl rfl rfl rfl rfl fun sent hsent => ⟨sent, hsent, ?_⟩
  simp [State.unsent, Writer.held, hst, queuedCodes_getItem (id := .b) hinv.qb hitem]

theorem DecompressSim.wrRawEos (hinv : RunInv s) (hst : s.wr.state = .get) (hheld : s.holdsEos .b) :
    DecompressSim j ((s.qGet .b).setWr { s.wr with state := .done }) := by
  refine h.writerStep rfl rfl rfl rfl rfl rfl fun sent hsent => ⟨sent, hsent, ?_⟩
  simp [State.unsent, Writer.held, hst, queuedCodes_getEos (id := .b) hinv.qb hheld]

theorem DecompressSim.wrRawEmit (hst : s.wr.state = .emit) :
    DecompressSim j ((s.sinkWrite s.wr.byte .ok).setWr { s.wr with state := .get }) := by
  refine h.writerStep rfl rfl rfl rfl rfl rfl fun sent hsent => ⟨sent ++ [s.wr.byte], ?_, ?_⟩
  · rw [State.setWr_host, sinkWrite_ok_out, hsent, List.append_assoc]
  · simp [State.unsent, Writer.held, hst]

theorem DecompressSim.sinkError (b : Byte) :
    DecompressAborted j ((s.sinkWrite b .error).abort .ioSink .none 0) :=
  h.abort { s.host with snk := s.host.snk.tail } rfl (.inl rfl)

end

theorem writerOp_decompressJob {i : Instr} (hinv : RunInv s) (h : DecompressSim j s) (hop : WriterOp i)
    (hexec : exec i s = .next t) : DecompressJob j t := by
  have hraw : s.core.mode ≠ .compress := by simp [h.mode]
  cases hop with
  | packCode c =>
    rcases execPackCode_next hexec with rfl | ⟨⟨⟨-, hmode, -⟩, -⟩, -⟩
    · exact .inl h
    · exact absurd hmode hraw
  | packEos =>
    rcases execPackEos_next hexec with rfl | ⟨⟨⟨-, hmode, -⟩, -⟩, -⟩
    · exact .inl h
    · exact absurd hmode hraw
  | packEmit r =>
    rcases execPackEmit_next hexec with rfl | ⟨⟨⟨-, hmode, -⟩, -⟩, -⟩
    · exact .inl h
    · exact absurd hmode hraw
  | packFlush r =>
    rcases execPackFlush_next hexec with rfl | ⟨⟨⟨-, hmode, -⟩, -⟩, -⟩
    · exact .inl h
    · exact absurd hmode hraw
  | rawByte v =>
    rcases execWrRawByte_next hexec with rfl | ⟨⟨⟨-, -, hst⟩, hitem⟩, rfl⟩
    · exact .inl h
    · exact .inl (h.wrRawByte hinv hst hitem).detectDone
  | rawEos =>
    rcases execWrRawEos_next hexec with rfl | ⟨⟨⟨-, -, hst⟩, hheld⟩, rfl⟩
    · exact .inl h
    · exact .inl (h.wrRawEos hinv hst hheld).detectDone
  | rawEmit r =>
    rcases execWrRawEmit_next hexec with rfl | ⟨⟨⟨-, -, hst⟩, -⟩, ⟨-, rfl⟩ | ⟨-, rfl⟩⟩
    · exact .inl h
    · exact .inr (h.sinkError _)
    · exact .inl (h.wrRawEmit hst).detectDone

end Sys2Proof.Machine
end

section
/-! SUPPORT. A whole DECOMPRESS job, from START on, for every schedule of stage turns. -/

namespace Sys2Proof.Machine

variable {j : Job} {s t : State}

/-- A stage's operation keeps the job, in a state that meets the machine's invariant. -/
theorem DecompressJob.exec {i : Instr} (hinv : Inv s) (hlast : srcKind j.last ≠ 0) (h : DecompressJob j s)
    (hop : ModeOp s.core.mode i) (hexec : exec i s = .next t) : Inv t ∧ DecompressJob j t := by
  rcases stageOp_effect hop.stageOp hexec with rfl | ⟨hrun, hend⟩
  · exact ⟨hinv, h⟩
  refine ⟨hinv.stageEnd hrun hend, ?_⟩
  obtain ⟨hrunInv, -⟩ := hinv.run hrun
  rcases h with h | h
  · rw [h.mode] at hop
    cases hop with
    | reader hop => exact readerOp_decompressJob hrunInv hlast h hop hexec
    | decompress hop => exact decompressOp_decompressJob hrunInv h hop hexec
    | writer hop => exact writerOp_decompressJob hrunInv h hop hexec
  · exact absurd (hrun.symm.trans h.status) nofun

/-- The schedule carries no claim on the job. -/
theorem DecompressJob.withTurns (h : DecompressJob j s) (ts : List Turn) : DecompressJob j (s.withTurns ts) := by
  refine h.imp (fun h => ?_) fun h => ⟨h.status, h.sent, h.cause⟩
  obtain ⟨ys, table, sent, hsrc, htable, hstream⟩ := h.stream
  exact ⟨h.mode, h.live, ys, table, sent, ⟨hsrc.ahead, hsrc.ended⟩, htable.congr rfl rfl, hstream⟩

/-- START begins the job with the whole of `decode`'s input to come. -/
theorem decompressSim_startJob (j : Job) (hsrc : s.host.src = byteResponses j.bytes ++ j.last :: j.later)
    (hout : s.host.out = j.out) : DecompressSim j (s.startJob .decompress) := by
  refine ⟨rfl, nofun, j.bytes, [], [], sourceAt_reading (.inl rfl) hsrc, tableMap_empty rfl, ?_, ?_⟩
  · rw [List.append_nil]
    exact hout
  · have hunsent : (s.startJob .decompress).unsent = [] := rfl
    have hcodes : (s.startJob .decompress).codes j.bytes = unpackFrom 0 0 j.bytes := rfl
    rw [hunsent, hcodes, unpackFrom_eq_unpackCodes]
    rfl

theorem DecompressJob.aborted (h : DecompressJob j s) (habort : s.core.status = .aborted) : DecompressAborted j s :=
  h.resolve_left fun h => h.live habort

/-- In DONE the source has ended with END, no code is to come and no byte is held. -/
theorem DecompressJob.done (h : DecompressJob j s) (hinv : Inv s) (hdone : s.core.status = .done) :
    srcKind j.last = 1 ∧ ∃ out, j.decoded = .ok out ∧ s.host.out = j.out ++ out := by
  rcases h with h | h
  · have hjob : JobInv s := hinv.phase.resolve_left fun hidle => nomatch hdone.symm.trans hidle.status
    obtain ⟨hrd, heng, hwr⟩ := hjob.done.mp hdone
    obtain ⟨ys, table, sent, hsrc, -, hout, hstream⟩ := h.stream
    obtain ⟨rfl, hlast⟩ := hsrc.ended (.inr hrd)
    have hqa := queuedCodes_of_contents (hjob.qaEos.finished (.inr (.inr (.inr heng)))).2
    have hqb := queuedCodes_of_contents (hjob.qbEos.finished (.inr hwr)).2
    have hcodes : s.codes [] = [] := by simp [State.codes, hqa, latchedCode_of_ne_put, hrd, unpackFrom]
    have hunsent : s.unsent = [] := by simp [State.unsent, hqb, held_of_ne_emit, hwr, unput_of_ne_emit, heng]
    rw [hcodes, hunsent, List.append_nil, decodeFrom] at hstream
    exact ⟨hlast, sent, hstream.symm, hout⟩
  · exact absurd (hdone.symm.trans h.status) nofun

/-- A DECOMPRESS job after any run of stage turns from START: by induction on the run. -/
theorem decompressJob_of_run {ts : List Turn} {n : Nat} (hcap : 1 ≤ s.qcap) (hidle : s.core.status ≠ .running)
    (hturns : s.host.turns = .start .decompress :: ts) (hstage : ∀ u ∈ ts, stageTurn u) (hlast : srcKind j.last ≠ 0)
    (hsrc : s.host.src = byteResponses j.bytes ++ j.last :: j.later) (hout : s.host.out = j.out) (hn : n ≤ ts.length)
    (hrun : runSteps (n + 1) s = .next t) : Inv t ∧ DecompressJob j t := by
  obtain ⟨s₀, hstart, hrun⟩ := runSteps_succ hrun
  rw [step_start hcap hidle hturns] at hstart
  cases hstart
  refine runSteps_keeps (P := fun s => Inv s ∧ DecompressJob j s) (fun s ts h => ⟨h.1.setHost _, h.2.withTurns ts⟩)
    (fun s t i hop h hexec => h.2.exec h.1 hlast hop hexec) n _ t hstage hn ⟨?_, .inl ?_⟩ hrun
  · exact inv_startJob (s := s.withTurns ts) hcap _
  · exact decompressSim_startJob j hsrc hout

end Sys2Proof.Machine
end

section
/-! SUPPORT. The rows of ENGINE in DECOMPRESS mode and D_ADD run on its own (44_decompress.md R111 to R121): the class of
the element at QA's front (R62), and what each row answers, enabled and blocked. -/

namespace Sys2Proof.Machine

variable {s : State}

/-! ## The class of an item (R62): every line before its own fails -/

section
variable {c : Code} {fresh prevEmpty : Bool} {n : Counter}

theorem classify_itemElem_errFresh (hc : 256 ≤ c.toNat) (prevEmpty : Bool) (n : Counter) :
    classify (itemElem c) true prevEmpty n = .errFresh := by
  simp only [classify, elemTag_itemElem, elemPayload_itemElem]
  rw [if_neg (by decide), if_pos ⟨trivial, hc⟩]

theorem classify_itemElem_reset (prevEmpty : Bool) (n : Counter) :
    classify (itemElem 256) false prevEmpty n = .reset := by
  simp only [classify, elemTag_itemElem, elemPayload_itemElem]
  rw [if_neg (by decide), if_neg (by simp), if_pos (by decide)]

theorem classify_itemElem_errRange (hlow : 257 ≤ c.toNat) (hrange : prevEmpty = true ∨ n.toNat < c.toNat) :
    classify (itemElem c) false prevEmpty n = .errRange := by
  simp only [classify, elemTag_itemElem, elemPayload_itemElem]
  rw [if_neg (by decide), if_neg (by simp), if_neg (by omega), if_pos ⟨hlow, hrange⟩]

/-- A full table leaves no code above next_code. -/
theorem classify_itemElem_errOverflow (hfresh : fresh = false ∨ c.toNat ≤ 255) (hc : c.toNat ≠ 256)
    (hn : n.toNat = 4096) : classify (itemElem c) fresh false n = .errOverflow := by
  have hlt := c.isLt
  have hnotFresh : ¬ (fresh = true ∧ 256 ≤ c.toNat) := fun ⟨hf, hge⟩ =>
    hfresh.elim (fun hff => nomatch hf.symm.trans hff) (by omega)
  have hinRange : ¬ (257 ≤ c.toNat ∧ (false = true ∨ n.toNat < c.toNat)) := fun ⟨_, hr⟩ =>
    hr.elim nofun (by omega)
  simp only [classify, elemTag_itemElem, elemPayload_itemElem]
  rw [if_neg (by decide), if_neg hnotFresh, if_neg hc, if_neg hinRange, if_pos ⟨trivial, hn⟩]

theorem classify_itemElem_lit (b : Byte) (fresh : Bool) (hn : prevEmpty = true ∨ n.toNat ≠ 4096) :
    classify (itemElem (zextCode b)) fresh prevEmpty n = .lit := by
  have hb := b.isLt
  have hroom : ¬ (prevEmpty = false ∧ n.toNat = 4096) := fun ⟨hp, hfull⟩ =>
    hn.elim (fun he => nomatch he.symm.trans hp) fun hne => hne hfull
  simp only [classify, elemTag_itemElem, elemPayload_itemElem, zextCode_toNat]
  rw [if_neg (by decide), if_neg (by omega), if_neg (by omega), if_neg (by omega), if_neg hroom, if_pos (by omega)]

theorem classify_itemElem_kwk (hlow : 257 ≤ c.toNat) (hn : n.toNat = c.toNat) :
    classify (itemElem c) false false n = .kwk := by
  have hlt := c.isLt
  simp only [classify, elemTag_itemElem, elemPayload_itemElem]
  rw [if_neg (by decide), if_neg (by simp), if_neg (by omega), if_neg (by simp; omega), if_neg (by omega),
    if_neg (by omega), if_neg (by omega)]

end

/-! ## What D.FETCH finds -/

theorem holdsItem_of_slot (hfilled : 0 < s.qa.filled) {c : Code} (hslot : s.qa.slot .a s.qa.head = itemElem c) :
    s.holdsItem .a c :=
  (peek_of_canGet (id := .a) hfilled).trans (congrArg some hslot)

section
variable (hat : engineAt s .decompress .dFetch)
include hat

/-- Where an item is at QA's front, D.FETCH is the step of its class. -/
theorem fetchesClass_of_item {k : DClass} {c : Code} (hitem : s.holdsItem .a c)
    (hk : classify (itemElem c) s.eng.fresh s.eng.prev.isEmpty s.eng.nextCode = k) : fetchesClass s k :=
  ⟨hat, by rw [State.dClass, hitem, Option.map_some, hk]⟩

theorem fetchesClass_eosIn (hget : canGet s .a) (htag : elemTag (s.front .a) = true) : fetchesClass s .eosIn :=
  ⟨hat, by rw [dClass_of_canGet hget, classify, if_pos htag]⟩

end

/-! ## The rows of D.FETCH -/

theorem exec_dEosIn (hclass : fetchesClass s .eosIn) :
    exec .dEosIn s = .next { s with qa := s.qa.afterGet s.qcap, eng := { s.eng with state := .dEos } } :=
  (if_pos hclass).trans (congrArg _ (detectDone_of_eng nofun))

theorem exec_dReset (hclass : fetchesClass s .reset) :
    exec .dReset s = .next { s with
      qa := s.qa.afterGet s.qcap
      eng := { s.eng with nextCode := 257, prev := [], fresh := true, state := .dFetch } } :=
  (if_pos hclass).trans (congrArg _ (detectDone_of_eng nofun))

/-- Getting an element and decoding its string, which DONE detection leaves alone. -/
theorem detectDone_dDecoded (s : State) (first : Byte) (rest : Str) :
    detectDone ((s.qGet .a).dDecoded first rest) =
      { s with qa := s.qa.afterGet s.qcap, eng := s.eng.decoded first rest } := by
  rw [dDecoded_eq]
  exact detectDone_of_eng nofun

section
variable {c : Code} (hitem : s.holdsItem .a c)
include hitem

theorem exec_dErrFresh (hclass : fetchesClass s .errFresh) :
    exec (.dErrFresh c) s = .next { s with core := s.core.aborted .corrupt .fresh c } := if_pos ⟨hclass, hitem⟩

theorem exec_dErrRange (hclass : fetchesClass s .errRange) :
    exec (.dErrRange c) s = .next { s with core := s.core.aborted .corrupt .range c } := if_pos ⟨hclass, hitem⟩

theorem exec_dErrOverflow (hclass : fetchesClass s .errOverflow) :
    exec (.dErrOverflow c) s = .next { s with core := s.core.aborted .corrupt .overflow c } := if_pos ⟨hclass, hitem⟩

theorem exec_dSeq (hclass : fetchesClass s .seq) (hn : s.eng.nextCode.toNat ≤ 4095) {first : Byte} {rest : Str}
    (hstring : s.tableAt c.toNat = first :: rest) :
    exec (.dSeq c) s = .next { s with qa := s.qa.afterGet s.qcap, eng := s.eng.decoded first rest } := by
  have hstep : exec (.dSeq c) s = .next (detectDone ((s.qGet .a).dDecoded first rest)) := by
    rw [exec, execDSeq, if_pos ⟨hclass, hitem, hn⟩, hstring]
  rw [hstep, detectDone_dDecoded]

theorem exec_dKwk (hclass : fetchesClass s .kwk) {first : Byte} {rest : Str} (hprev : s.eng.prev = first :: rest) :
    exec (.dKwk c) s =
      .next { s with qa := s.qa.afterGet s.qcap, eng := s.eng.decoded first (rest ++ [first]) } := by
  have hstep : exec (.dKwk c) s = .next (detectDone ((s.qGet .a).dDecoded first (rest ++ [first]))) := by
    rw [exec, execDKwk, if_pos ⟨hclass, hitem⟩, hprev]
  rw [hstep, detectDone_dDecoded]

end

theorem exec_dLit {b : Byte} (hitem : s.holdsItem .a (zextCode b)) (hclass : fetchesClass s .lit) :
    exec (.dLit b) s = .next { s with qa := s.qa.afterGet s.qcap, eng := s.eng.decoded b [] } :=
  (if_pos ⟨hclass, hitem⟩).trans (congrArg _ (detectDone_dDecoded s b []))

/-- ENGINE after a decoded string, where D_ADD adds an entry. -/
theorem decoded_of_prev {e : Engine} (hprev : e.prev ≠ []) (first : Byte) (rest : Str) :
    e.decoded first rest = { e with
      table := e.table.write e.nextCode.toNat (e.prev ++ [first])
      nextCode := e.nextCode + 1
      prev := first :: rest, fresh := false, obuf := first :: rest, oidx := 0, state := .dEmit } := by
  simp only [Engine.decoded, hprev, if_false]

/-! ## The rows that put (R120, R121) -/

theorem exec_dEmit (hat : engineAt s .decompress .dEmit) (hput : canPut s .b) {b : Byte}
    (hb : s.eng.obuf[s.eng.oidx.toNat]? = some b) (hlen : s.eng.obuf.length ≤ obufDepth) :
    exec .dEmit s = .next { s with
      qb := s.qb.afterPut s.qcap (itemElem (zextCode b))
      eng := { s.eng with
        oidx := s.eng.oidx + 1
        state := if s.eng.oidx.toNat + 1 = s.eng.obuf.length then .dFetch else .dEmit } } := by
  have hlt := (List.getElem?_eq_some_iff.mp hb).1
  have hstep : execDEmit s = .next (detectDone ((s.qPut .b (itemElem (zextCode b))).setEng
      { s.eng with oidx := s.eng.oidx + 1,
                   state := if (s.eng.oidx + 1).toNat = s.eng.obuf.length then .dFetch else .dEmit })) := by
    rw [execDEmit, if_pos ⟨hat, hput⟩, hb]
  have hlive : (if s.eng.oidx.toNat + 1 = s.eng.obuf.length then EngState.dFetch else .dEmit) ≠ .done := by
    split <;> nofun
  rw [oidx_succ (hlt.trans_le hlen)] at hstep
  exact hstep.trans (congrArg _ (detectDone_of_eng hlive))

theorem exec_dEosOut (hat : engineAt s .decompress .dEos) (hput : canPut s .b) :
    exec .dEosOut s = .next { s with
      core := s.core.doneIf (s.rd.state = .done ∧ s.wr.state = .done)
      qb := s.qb.afterPut s.qcap eosElem, eng := { s.eng with state := .done } } := by
  have hstep : exec .dEosOut s = .next (detectDone ((s.qPut .b eosElem).setEng { s.eng with state := .done })) :=
    if_pos ⟨hat, hput⟩
  have hall : allDone ((s.qPut .b eosElem).setEng { s.eng with state := .done }) ↔
      s.rd.state = .done ∧ s.wr.state = .done := by simp [allDone]
  rw [hstep, detectDone_eq, doneIf_congr _ hall]
  rfl

theorem exec_dEmit_blocked (hfull : ¬ canPut s .b) : exec .dEmit s = .next s := if_neg fun h => hfull h.2

theorem exec_dEosOut_blocked (hfull : ¬ canPut s .b) : exec .dEosOut s = .next s := if_neg fun h => hfull h.2

/-! ## D_ADD run on its own (R119) -/

theorem exec_dAdd_of_nil (hprev : s.eng.prev = []) (first : Byte) (rest : Str) :
    exec (.dAdd first rest) s = .next s :=
  (if_pos (.inl hprev)).trans (congrArg _ (if_pos hprev))

theorem exec_dAdd_of_prev (hprev : s.eng.prev ≠ []) (hn : s.eng.nextCode.toNat ≤ 4095) (first : Byte) (rest : Str) :
    exec (.dAdd first rest) s = .next (s.setEng { s.eng with
      table := s.eng.table.write s.eng.nextCode.toNat (s.eng.prev ++ [first])
      nextCode := s.eng.nextCode + 1 }) :=
  (if_pos (.inr hn)).trans (congrArg _ (if_neg hprev))

end Sys2Proof.Machine
end

section
/-! The statements on the decompressor (44_decompress.md). -/

namespace Sys2Proof.Proofs

open Sys2Proof Sys2Proof.Machine

/-- Settles O54: decoder and encoder stay in step, by induction on the symbols. -/
theorem decodeInvertsEncode : Obligations.DecodeInvertsEncode := lzwDecode_lzwEncode

/-- Settles O56: every operation of a stage keeps the simulation, in which `decode`, gone on from what the machine holds,
has the job's result; in DONE nothing is held, and a corrupt code aborts as `decode` stops. -/
theorem decompressJobOutput : Obligations.DecompressJobOutput := by
  intro s t ys w later ts n hcap hidle hturns hstage hsrc hw hn hrun
  have hlast : srcKind w ≠ 0 := by rcases hw with hw | hw <;> rw [hw] <;> decide
  obtain ⟨hinv, hjob⟩ :=
    decompressJob_of_run (j := ⟨ys, w, later, s.host.out⟩) hcap hidle hturns hstage hlast hsrc rfl hn hrun
  refine ⟨hjob.done hinv, fun habort => ?_⟩
  obtain ⟨-, hsent, hcause⟩ := hjob.aborted habort
  exact ⟨hsent, hcause⟩

/-- Settles O57: the first job's output is the packed stream of encode(X) (O55), whose codes the second unpacks (R94) and
decodes to X (O54), so neither a source ERROR nor a corrupt code can abort it (O56). -/
theorem jobRoundTrip : Obligations.JobRoundTrip := by
  refine ⟨lzwDecode_lzwEncode, ?_⟩
  intro s t s' t' xs zs d d' later later' ts ts' n n' hcap hidle hturns hstage hsrc hn hrun hdone hout hcap' hidle'
    hturns' hstage' hsrc' hn' hrun' hended hsink
  have hlast (d : Byte) : srcKind (srcWord 1 d) = 1 := srcKind_srcWord 1 d
  have hpacked := ((compressJobOutput s t xs _ later ts n hcap hidle hturns hstage hsrc (.inl (hlast d)) hn hrun).1
    hdone).2
  have hzs : zs = packBytes (lzwEncode xs) := List.append_cancel_left (hout.symm.trans hpacked)
  have hdecode : lzwDecode (unpackCodes zs) = .ok xs := by rw [hzs, unpackCodes_packBytes, lzwDecode_lzwEncode]
  obtain ⟨hdoneOut, habortOut⟩ := decompressJobOutput s' t' zs _ later' ts' n' hcap' hidle' hturns' hstage' hsrc'
    (.inl (hlast d')) hn' hrun'
  rw [hdecode] at hdoneOut habortOut
  rcases hended with hdone' | haborted
  · obtain ⟨-, out, hok, hsent⟩ := hdoneOut hdone'
    cases hok
    exact ⟨hdone', hsent⟩
  · obtain ⟨-, hcause⟩ := habortOut haborted
    rcases hcause with hio | ⟨-, hkind⟩ | ⟨-, _, hcorrupt⟩
    · exact absurd hio hsink
    · exact absurd ((hlast d').symm.trans hkind) (by decide)
    · exact nomatch hcorrupt

/-- Settles O15: D_ADD's entry is the one slot written. -/
theorem dAddAppends : Obligations.DAddAppends := by
  intro s first rest
  refine ⟨fun hprev => exec_dAdd_of_nil hprev first rest, fun hprev hn => ?_⟩
  exact ⟨_, exec_dAdd_of_prev hprev hn first rest, rfl, next_succ (Nat.le_succ_of_le hn), fun k =>
    tableAt_write s _ k _ rfl⟩

/-- Settles O24: an element with TAG = 1 is of class EOS_IN whatever ENGINE's registers hold. -/
theorem decompressEnds : Obligations.DecompressEnds := by
  intro s hrun hmode
  refine ⟨fun hst hfilled htag => ?_, fun hst => ⟨fun hput => ?_, fun hfull => ?_⟩⟩
  · exact exec_dEosIn (fetchesClass_eosIn ⟨hrun, hmode, hst⟩ hfilled htag)
  · exact exec_dEosOut ⟨hrun, hmode, hst⟩ hput
  · exact exec_dEosOut_blocked (not_canPut_of_full (id := .b) hfull)

/-- Settles O25: each error class is selected by its line of R62, and its row aborts. -/
theorem corruptCodesAbort : Obligations.CorruptCodesAbort := by
  intro s c hrun hmode hst hfilled hslot
  have hat : engineAt s .decompress .dFetch := ⟨hrun, hmode, hst⟩
  have hitem := holdsItem_of_slot hfilled hslot
  refine ⟨fun hfresh hc => ?_, fun hfresh hlow hrange => ?_, fun hfresh hc hprev hn => ?_⟩
  · refine exec_dErrFresh hitem (fetchesClass_of_item hat hitem ?_)
    rw [hfresh, classify_itemElem_errFresh hc]
  · refine exec_dErrRange hitem (fetchesClass_of_item hat hitem ?_)
    rw [hfresh, classify_itemElem_errRange hlow (hrange.imp_left List.isEmpty_iff.mpr)]
  · refine exec_dErrOverflow hitem (fetchesClass_of_item hat hitem ?_)
    rw [List.isEmpty_eq_false_iff.mpr hprev, classify_itemElem_errOverflow hfresh hc (congrArg BitVec.toNat hn)]

/-- Settles O26: with fresh = 0 the marker is of class RESET at every next_code. -/
theorem decompressResets : Obligations.DecompressResets := by
  intro s hrun hmode hst hfilled hslot hfresh
  refine exec_dReset (fetchesClass_of_item ⟨hrun, hmode, hst⟩ (holdsItem_of_slot hfilled hslot) ?_)
  rw [hfresh, classify_itemElem_reset]

/-- Settles O27: a byte's code is of class LIT unless it is of class OVERFLOW. -/
theorem literalDecodes : Obligations.LiteralDecodes := by
  intro s b hrun hmode hst hfilled hslot hn
  have hitem := holdsItem_of_slot hfilled hslot
  refine exec_dLit hitem (fetchesClass_of_item ⟨hrun, hmode, hst⟩ hitem ?_)
  exact classify_itemElem_lit b _ (hn.imp_left List.isEmpty_iff.mpr)

/-- Settles O28: a code below next_code is of class SEQ, and T[c] is read before D_ADD writes. -/
theorem sequenceDecodes : Obligations.SequenceDecodes := by
  intro s c first rest hrun hmode hst hfilled hslot hlow hlt hn hprev hfresh hstring
  have hitem := holdsItem_of_slot hfilled hslot
  have hclass : fetchesClass s .seq := by
    refine fetchesClass_of_item ⟨hrun, hmode, hst⟩ hitem ?_
    rw [hfresh, List.isEmpty_eq_false_iff.mpr hprev, classify_itemElem_seq hlow hlt hn]
  rw [exec_dSeq hitem hclass hn hstring, decoded_of_prev hprev]

/-- Settles O29: a code equal to next_code is of class KWK, and D_ADD writes its own slot. -/
theorem kwkwkDecodes : Obligations.KwkwkDecodes := by
  intro s c first rest hrun hmode hst hfilled hslot hlow hn hprev hfresh
  have hitem := holdsItem_of_slot hfilled hslot
  have hne : s.eng.prev ≠ [] := by simp [hprev]
  have hclass : fetchesClass s .kwk := by
    refine fetchesClass_of_item ⟨hrun, hmode, hst⟩ hitem ?_
    rw [hfresh, List.isEmpty_eq_false_iff.mpr hne, classify_itemElem_kwk hlow hn]
  have hstring : first :: (rest ++ [first]) = s.eng.prev ++ [first] := by rw [hprev, List.cons_append]
  refine ⟨_, exec_dKwk hitem hclass hprev, ?_, ?_⟩
  · rw [decoded_of_prev hne, hstring, hn]
  · refine (tableAt_decoded first (rest ++ [first]) c.toNat).trans ?_
    rw [if_pos ⟨hne, hn.symm⟩]

/-- Settles O30: the row is enabled where QB has room and blocked where it has none. -/
theorem decompressEmits : Obligations.DecompressEmits := by
  intro s b hrun hmode hst hb hlen
  exact ⟨fun hput => exec_dEmit ⟨hrun, hmode, hst⟩ hput hb hlen,
    fun hfull => exec_dEmit_blocked (not_canPut_of_full (id := .b) hfull)⟩

end Sys2Proof.Proofs
end

section
/-! SUPPORT. The rows of READER, of the raw writer and of the HOST (45_pipeline.md R127 to R138): what each answers,
enabled and blocked. -/

namespace Sys2Proof.Machine

variable {s : State}

/-! ## READER reads its source (R129 to R131) -/

section
variable {w : SrcWord} {rest : List SrcWord}

theorem sourceNext_cons (hsrc : s.host.src = w :: rest) : s.sourceNext = some w := by
  rw [State.sourceNext, hsrc, List.head?_cons]

theorem sourceNext_nil (hsrc : s.host.src = []) : s.sourceNext = none := by
  rw [State.sourceNext, hsrc, List.head?_nil]

theorem exec_rdRawByte (hat : readerAt s .compress .read) {b : Byte} (hsrc : s.host.src = srcWord 0 b :: rest) :
    exec (.rdRawByte b) s = .next { s with
      rd := { s.rd with latch := zextCode b, state := .put }, host := { s.host with src := rest } } := by
  rw [← sourceRead_setRd hsrc, ← detectDone_eq_self (s := s.sourceRead.setRd _) (by simp [allDone])]
  exact if_pos ⟨hat, sourceNext_cons hsrc⟩

theorem exec_rdRawEnd (hat : readerAt s .compress .read) {d : Byte} (hsrc : s.host.src = srcWord 1 d :: rest) :
    exec .rdRawEnd s = .next { s with
      rd := { s.rd with state := .eos }, host := { s.host with src := rest } } := by
  rw [← sourceRead_setRd hsrc, ← detectDone_eq_self (s := s.sourceRead.setRd _) (by simp [allDone])]
  exact if_pos ⟨hat, by rw [sourceNext_cons hsrc, Option.map_some, srcKind_srcWord]⟩

theorem exec_rdSrcError {m : Mode} (hat : readerAt s m .read) {d : Byte} (hsrc : s.host.src = srcWord 2 d :: rest) :
    exec (.rdSrcError m) s = .next { s with
      core := s.core.aborted .ioSource .none 0, host := { s.host with src := rest } } := by
  have hnext : s.sourceNext.map srcKind = some 2 := by rw [sourceNext_cons hsrc, Option.map_some, srcKind_srcWord]
  refine (if_pos ⟨hat, hnext⟩).trans ?_
  simp [State.sourceRead, State.abort, State.setCore, State.setHost, CoreRegs.aborted, hsrc]

end

/-! ## READER puts on QA (R132, R133) -/

section
variable {m : Mode}

theorem exec_rdPut (hat : readerAt s m .put) (hput : canPut s .a) :
    exec (.rdPut m) s = .next { s with
      qa := s.qa.afterPut s.qcap (itemElem s.rd.latch), rd := { s.rd with state := .read } } :=
  (if_pos ⟨hat, hput⟩).trans (congrArg _ (detectDone_eq_self (by simp [allDone])))

theorem exec_rdEos (hat : readerAt s m .eos) (hput : canPut s .a) :
    exec (.rdEos m) s = .next { s with
      core := s.core.doneIf (s.eng.state = .done ∧ s.wr.state = .done)
      qa := s.qa.afterPut s.qcap eosElem, rd := { s.rd with state := .done } } := by
  have hstep : exec (.rdEos m) s = .next (detectDone ((s.qPut .a eosElem).setRd { s.rd with state := .done })) :=
    if_pos ⟨hat, hput⟩
  have hall : allDone ((s.qPut .a eosElem).setRd { s.rd with state := .done }) ↔
      s.eng.state = .done ∧ s.wr.state = .done := by simp [allDone]
  rw [hstep, detectDone_eq, doneIf_congr _ hall]
  rfl

theorem exec_rdPut_blocked (hfull : ¬ canPut s .a) : exec (.rdPut m) s = .next s := if_neg fun h => hfull h.2

theorem exec_rdEos_blocked (hfull : ¬ canPut s .a) : exec (.rdEos m) s = .next s := if_neg fun h => hfull h.2

end

/-! ## The raw writer (R134 to R136) -/

theorem exec_wrRawByte (hat : writerAt s .decompress .get) {v : Code} (hitem : s.holdsItem .b v) :
    exec (.wrRawByte v) s = .next { s with
      qb := s.qb.afterGet s.qcap, wr := { s.wr with byte := payloadByte v, state := .emit } } :=
  (if_pos ⟨hat, hitem⟩).trans (congrArg _ (detectDone_eq_self (by simp [allDone])))

theorem exec_wrRawEos (hat : writerAt s .decompress .get) (hheld : s.holdsEos .b) :
    exec .wrRawEos s = .next { s with
      core := s.core.doneIf (s.rd.state = .done ∧ s.eng.state = .done)
      qb := s.qb.afterGet s.qcap, wr := { s.wr with state := .done } } := by
  have hstep : exec .wrRawEos s = .next (detectDone ((s.qGet .b).setWr { s.wr with state := .done })) :=
    if_pos ⟨hat, hheld⟩
  have hall : allDone ((s.qGet .b).setWr { s.wr with state := .done }) ↔
      s.rd.state = .done ∧ s.eng.state = .done := by simp [allDone]
  rw [hstep, detectDone_eq, doneIf_congr _ hall]
  rfl

theorem exec_wrRawByte_blocked (hempty : s.qb.filled = 0) (v : Code) : exec (.wrRawByte v) s = .next s :=
  if_neg fun h => by simp [State.holdsItem, peek_of_empty (id := .b) hempty] at h

theorem exec_wrRawEos_blocked (hempty : s.qb.filled = 0) : exec .wrRawEos s = .next s :=
  if_neg fun h => by simp [State.holdsEos, peek_of_empty (id := .b) hempty] at h

section
variable {rest : List SinkAnswer}

theorem exec_wrRawEmit_ok (hat : writerAt s .decompress .emit) (hsnk : s.host.snk = .ok :: rest) :
    exec (.wrRawEmit .ok) s = .next { s with
      wr := { s.wr with state := .get }
      host := { s.host with snk := rest, out := s.host.out ++ [s.wr.byte] } } := by
  have hstep : exec (.wrRawEmit .ok) s =
      .next (detectDone ((s.sinkWrite s.wr.byte .ok).setWr { s.wr with state := .get })) :=
    if_pos ⟨hat, sinkNext_cons hsnk⟩
  rw [hstep, detectDone_eq_self (by simp [allDone]), sinkWrite_ok_setWr hsnk]

theorem exec_wrRawEmit_error (hat : writerAt s .decompress .emit) (hsnk : s.host.snk = .error :: rest) :
    exec (.wrRawEmit .error) s = .next { s with
      core := s.core.aborted .ioSink .none 0, host := { s.host with snk := rest } } := by
  rw [← sinkWrite_error_abort hsnk s.wr.byte]
  exact if_pos ⟨hat, sinkNext_cons hsnk⟩

end

theorem exec_wrRawEmit_blocked (hsnk : s.host.snk = []) (r : SinkAnswer) : exec (.wrRawEmit r) s = .next s :=
  if_neg fun h => by simp [sinkNext_nil hsnk] at h

/-! ## START and DONE (R127, R128) -/

theorem exec_start (hcap : 1 ≤ s.qcap) (hidle : s.core.status ≠ .running) (m : Mode) :
    exec (.start m) s = .next (s.startJob m) :=
  (if_neg (Nat.ne_of_gt hcap)).trans (if_neg hidle)

theorem exec_start_running (hcap : 1 ≤ s.qcap) (hrun : s.core.status = .running) (m : Mode) :
    exec (.start m) s = .next s :=
  (if_neg (Nat.ne_of_gt hcap)).trans (if_pos hrun)

theorem exec_done (hrun : s.core.status = .running) :
    exec .done s = .next { s with core := s.core.doneIf (allDone s) } :=
  (if_pos hrun).trans (congrArg _ (detectDone_eq s))

/-! ## The host's answers (R137, R138): the stage's own step, the answer being ahead of those still to come -/

section
variable (hrun : s.core.status = .running) (hread : s.rd.state = .read)
include hrun hread

/-- An answer whose kind selects an operation of READER has that operation's effect. -/
theorem exec_hostSrcAnswer {k : BitVec 2} {d : Byte} {i : Instr}
    (hdec : decodeSource s.core.mode (srcWord k d) = .ok i) :
    exec (.hostSrcAnswer k d) s = exec i (s.offerSource (srcWord k d)) := by
  unfold decodeSource at hdec
  rw [srcKind_srcWord, srcData_srcWord] at hdec
  simp only [exec, execHostSrcAnswer, if_pos (And.intro hrun hread)]
  split at hdec
  next hk => rw [hk]; cases hmode : s.core.mode <;> rw [hmode] at hdec <;> cases hdec <;> rfl
  next hk => rw [hk]; cases hmode : s.core.mode <;> rw [hmode] at hdec <;> cases hdec <;> rfl
  next hk => rw [hk]; cases hdec; rfl
  next => cases hdec

/-- Kind 3 has no step (R64c). -/
theorem exec_hostSrcAnswer_unused (d : Byte) : exec (.hostSrcAnswer 3 d) s = .next s := by
  simp only [exec, execHostSrcAnswer, if_pos (And.intro hrun hread)]
  rfl

end

/-- Where READER makes no request there is nothing to answer. -/
theorem exec_hostSrcAnswer_unasked (h : s.core.status ≠ .running ∨ s.rd.state ≠ .read) (k : BitVec 2) (d : Byte) :
    exec (.hostSrcAnswer k d) s = .next s :=
  if_neg fun ⟨hrun, hread⟩ => h.elim (absurd hrun) (absurd hread)

/-- Where WRITER offers no byte there is nothing to answer. -/
theorem exec_hostSnkAnswer_unasked
    (h : s.core.status ≠ .running ∨
      (s.wr.state ≠ .emit ∧ (s.wr.state ≠ .pad ∨ s.core.mode = .decompress))) (r : SinkAnswer) :
    exec (.hostSnkAnswer r) s = .next s := by
  simp only [exec, execHostSnkAnswer]
  split
  next hrun =>
    obtain ⟨hemit, hpad⟩ := h.resolve_left (absurd hrun)
    split
    next hst => exact absurd hst hemit
    next hmode hst => exact absurd hst (hpad.resolve_right (by simp [hmode]))
    next hst => exact absurd hst hemit
    next => rfl
  next => rfl

section
variable (hrun : s.core.status = .running) (r : SinkAnswer)
include hrun

theorem exec_hostSnkAnswer_packEmit (hmode : s.core.mode = .compress) (hst : s.wr.state = .emit) :
    exec (.hostSnkAnswer r) s = exec (.packEmit r) (s.offerSink r) := by
  simp only [exec, execHostSnkAnswer, if_pos hrun, hmode, hst]

theorem exec_hostSnkAnswer_packFlush (hmode : s.core.mode = .compress) (hst : s.wr.state = .pad) :
    exec (.hostSnkAnswer r) s = exec (.packFlush r) (s.offerSink r) := by
  simp only [exec, execHostSnkAnswer, if_pos hrun, hmode, hst]

theorem exec_hostSnkAnswer_wrRawEmit (hmode : s.core.mode = .decompress) (hst : s.wr.state = .emit) :
    exec (.hostSnkAnswer r) s = exec (.wrRawEmit r) (s.offerSink r) := by
  simp only [exec, execHostSnkAnswer, if_pos hrun, hmode, hst]

end

/-- The answer given now is used up, and with OK the byte is appended. -/
theorem offerSink_sinkWrite_host (b : Byte) (r : SinkAnswer) :
    ((s.offerSink r).sinkWrite b r).host =
      { s.host with out := if r = .ok then s.host.out ++ [b] else s.host.out } := by
  cases r <;> rfl

section
variable {r : SinkAnswer} (hnext : s.sinkNext = some r)
include hnext

theorem exec_packEmit_host (hat : writerAt s .compress .emit) :
    ∃ t, exec (.packEmit r) s = .next t ∧ t.host = (s.sinkWrite (packedByte s.wr.acc s.wr.nbits) r).host := by
  cases r with
  | ok => exact ⟨_, if_pos ⟨hat, hnext⟩, detectDone_host _⟩
  | error => exact ⟨_, if_pos ⟨hat, hnext⟩, rfl⟩

theorem exec_packFlush_host (hat : writerAt s .compress .pad) :
    ∃ t, exec (.packFlush r) s = .next t ∧ t.host = (s.sinkWrite (paddedByte s.wr.acc s.wr.nbits) r).host := by
  cases r with
  | ok => exact ⟨_, if_pos ⟨hat, hnext⟩, detectDone_host _⟩
  | error => exact ⟨_, if_pos ⟨hat, hnext⟩, rfl⟩

theorem exec_wrRawEmit_host (hat : writerAt s .decompress .emit) :
    ∃ t, exec (.wrRawEmit r) s = .next t ∧ t.host = (s.sinkWrite s.wr.byte r).host := by
  cases r with
  | ok => exact ⟨_, if_pos ⟨hat, hnext⟩, detectDone_host _⟩
  | error => exact ⟨_, if_pos ⟨hat, hnext⟩, rfl⟩

end

end Sys2Proof.Machine
end

section
/-! The statements on job control, READER, the raw writer and the host's answers (45_pipeline.md). -/

namespace Sys2Proof.Proofs

open Sys2Proof Sys2Proof.Machine

/-- Settles O4: the values are those of `startJob`, which keeps the host's side. -/
theorem startBeginsJob : Obligations.StartBeginsJob := by
  intro s m hcap
  refine ⟨fun hidle => ⟨s.startJob m, exec_start hcap hidle m, ?_⟩, fun hrun => exec_start_running hcap hrun m⟩
  have hst : (s.startJob m).eng.state = if m = .compress then .cFetch else .dFetch := by cases m <;> rfl
  exact ⟨rfl, ⟨rfl, rfl, rfl, rfl⟩, ⟨rfl, rfl, rfl, rfl⟩, ⟨rfl, rfl, rfl⟩, hst, ⟨rfl, rfl, rfl, rfl, rfl, rfl⟩,
    ⟨rfl, rfl, rfl⟩, rfl, rfl⟩

/-- Settles O5: in a running job the row is DONE detection. -/
theorem doneRow : Obligations.DoneRow :=
  fun _ hrun => exec_done hrun

/-- Settles O16: the kind of the next response enables one row, whatever END's and ERROR's data. -/
theorem sourceReads : Obligations.SourceReads :=
  fun _ _ hrun hst =>
    ⟨fun _ hmode hsrc => exec_rdRawByte ⟨hrun, hmode, hst⟩ hsrc,
      fun _ hmode hsrc => exec_rdRawEnd ⟨hrun, hmode, hst⟩ hsrc,
      fun _ _ hmode hsrc => exec_rdSrcError ⟨hrun, hmode, hst⟩ hsrc⟩

/-- Settles O18: both rows are enabled where QA has room and blocked where it has none. -/
theorem readerPuts : Obligations.ReaderPuts := by
  intro s m hrun hmode
  refine ⟨fun hst => ⟨fun hput => ?_, fun hfull => ?_⟩, fun hst => ⟨fun hput => ?_, fun hfull => ?_⟩⟩
  · exact exec_rdPut ⟨hrun, hmode, hst⟩ hput
  · exact exec_rdPut_blocked (not_canPut_of_full (id := .a) hfull)
  · exact exec_rdEos ⟨hrun, hmode, hst⟩ hput
  · exact exec_rdEos_blocked (not_canPut_of_full (id := .a) hfull)

/-- Settles O33: a get finds the item or EOS at QB's head, or nothing; the sink's answer, or none, selects the
branch. -/
theorem rawWriterSteps : Obligations.RawWriterSteps := by
  intro s hrun hmode
  refine ⟨fun hst => ⟨fun hfilled v hslot => ?_, fun hfilled htag => ?_, fun hempty => ?_⟩, fun hst => ?_⟩
  · exact exec_wrRawByte ⟨hrun, hmode, hst⟩ ((peek_of_canGet (id := .b) hfilled).trans (congrArg some hslot))
  · refine exec_wrRawEos ⟨hrun, hmode, hst⟩ ?_
    rw [State.holdsEos, peek_of_canGet (id := .b) hfilled]
    exact congrArg some htag
  · exact ⟨exec_wrRawByte_blocked hempty, exec_wrRawEos_blocked hempty⟩
  · have hat : writerAt s .decompress .emit := ⟨hrun, hmode, hst⟩
    exact ⟨fun _ => exec_wrRawEmit_ok hat, fun _ => exec_wrRawEmit_error hat, exec_wrRawEmit_blocked⟩

/-- Settles O34: READER's step on the answer uses it up, and so leaves the host's list as it was. -/
theorem sourceAnswerIsReaderStep : Obligations.SourceAnswerIsReaderStep := by
  intro s d
  refine ⟨fun hrun hread => ⟨fun hmode => ⟨?_, ?_⟩, fun hmode => ⟨?_, ?_⟩, ?_, ?_⟩,
    fun h k => exec_hostSrcAnswer_unasked h k d⟩
  · rw [exec_hostSrcAnswer (i := .rdRawByte d) hrun hread (by simp [decodeSource, hmode])]
    exact exec_rdRawByte (s := s.offerSource _) ⟨hrun, hmode, hread⟩ rfl
  · rw [exec_hostSrcAnswer (i := .rdRawEnd) hrun hread (by simp [decodeSource, hmode])]
    exact exec_rdRawEnd (s := s.offerSource _) ⟨hrun, hmode, hread⟩ rfl
  · have hstep := exec_unpackByte (s := s.offerSource (srcWord 0 d)) ⟨hrun, hmode, hread⟩ rfl
    refine ⟨_, hstep, ?_, rfl⟩
    rw [exec_hostSrcAnswer (i := .unpackByte d) hrun hread (by simp [decodeSource, hmode])]
    exact hstep
  · rw [exec_hostSrcAnswer (i := .unpackEnd) hrun hread (by simp [decodeSource, hmode])]
    exact exec_unpackEnd (s := s.offerSource _) ⟨hrun, hmode, hread⟩ rfl
  · rw [exec_hostSrcAnswer (i := .rdSrcError s.core.mode) hrun hread (by simp [decodeSource])]
    exact exec_rdSrcError (s := s.offerSource _) ⟨hrun, rfl, hread⟩ rfl
  · exact exec_hostSrcAnswer_unused hrun hread d

/-- Settles O35: WRITER's step on the answer uses it up and offers the byte of its row. -/
theorem sinkAnswerIsWriterStep : Obligations.SinkAnswerIsWriterStep := by
  intro s r
  refine ⟨fun hrun hmode hst => ?_, fun hrun hmode hst => ?_, fun hrun hmode hst => ?_,
    fun h => exec_hostSnkAnswer_unasked h r⟩
  · obtain ⟨t, hstep, hhost⟩ := exec_packEmit_host (s := s.offerSink r) rfl ⟨hrun, hmode, hst⟩
    exact ⟨t, hstep, (exec_hostSnkAnswer_packEmit hrun r hmode hst).trans hstep,
      hhost.trans (offerSink_sinkWrite_host _ r)⟩
  · obtain ⟨t, hstep, hhost⟩ := exec_packFlush_host (s := s.offerSink r) rfl ⟨hrun, hmode, hst⟩
    exact ⟨t, hstep, (exec_hostSnkAnswer_packFlush hrun r hmode hst).trans hstep,
      hhost.trans (offerSink_sinkWrite_host _ r)⟩
  · obtain ⟨t, hstep, hhost⟩ := exec_wrRawEmit_host (s := s.offerSink r) rfl ⟨hrun, hmode, hst⟩
    exact ⟨t, hstep, (exec_hostSnkAnswer_wrRawEmit hrun r hmode hst).trans hstep,
      hhost.trans (offerSink_sinkWrite_host _ r)⟩

end Sys2Proof.Proofs
end

section
/-! SUPPORT. The isolation of the stages (45_pipeline.md R126): what a stage's effective step is made of, and what it
leaves alone. -/

namespace Sys2Proof.Machine

variable {s t : State}

/-! ## A turn, once it is taken out of the schedule -/

/-- The step of the agent of turn `u`, which passes where its tuple decodes to no operation. -/
def runTurn (u : Turn) (s : State) : Out :=
  match decode (s.opcode u) with
  | .ok i => exec i s
  | .error _ => noStep s

theorem step_eq_runTurn (hcap : s.qcap ≠ 0) : step s = runTurn s.nextTurn.1 s.nextTurn.2 := if_neg hcap

theorem step_runTurn (h : step s = .next t) : runTurn s.nextTurn.1 s.nextTurn.2 = .next t :=
  (step_eq_runTurn (step_next h).1).symm.trans h

theorem runTurn_of_decode {u : Turn} {i : Instr} (hdec : decode (s.opcode u) = .ok i) : runTurn u s = exec i s := by
  rw [runTurn, hdec]

theorem runTurn_of_error {u : Turn} {e : NoOperation} (hdec : decode (s.opcode u) = .error e) :
    runTurn u s = .next s := by
  rw [runTurn, hdec, noStep]

theorem runTurn_next {u : Turn} (h : runTurn u s = .next t) :
    t = s ∨ ∃ i, decode (s.opcode u) = .ok i ∧ exec i s = .next t := by
  unfold runTurn at h
  split at h
  · exact .inr ⟨_, ‹_›, h⟩
  · exact .inl (Host.Outcome.next.inj h).symm

/-- Taking the turn out of the schedule leaves the lists of both host ports alone. -/
theorem nextTurn_ports (s : State) :
    s.nextTurn.2.host.src = s.host.src ∧ s.nextTurn.2.host.snk = s.host.snk ∧ s.nextTurn.2.host.out = s.host.out := by
  unfold State.nextTurn; split <;> exact ⟨rfl, rfl, rfl⟩

/-! ## What an effective step is made of -/

/-- READER reads its source, puts one element on QA, or aborts. -/
inductive ReaderMove (s : State) : State → Prop where
  | reads {r : Reader} (hold : s.rd.state = .read)
      (hnew : r.state = .eos ∨ ∃ b, s.sourceNext = some (srcWord 0 b)) :
      ReaderMove s (detectDone (s.sourceRead.setRd r))
  | puts {e : Elem13} {r : Reader} (hput : canPut s .a)
      (hnew : r.state = .done ∨ (s.rd.state = .put ∧ r.state = .read)) :
      ReaderMove s (detectDone ((s.qPut .a e).setRd r))
  | aborts (code : ErrCode) (reason : ErrReason) (info : Code) : ReaderMove s (s.sourceRead.abort code reason info)

/-- ENGINE works on its own registers, gets one element from QA, puts one on QB, or aborts. -/
inductive EngineMove (s : State) : State → Prop where
  | works (e : Engine) : EngineMove s (detectDone (s.setEng e))
  | gets (e : Engine) (hget : canGet s .a) : EngineMove s (detectDone ((s.qGet .a).setEng e))
  | puts (x : Elem13) (e : Engine) (hput : canPut s .b) : EngineMove s (detectDone ((s.qPut .b x).setEng e))
  | aborts (code : ErrCode) (reason : ErrReason) (info : Code) : EngineMove s (s.abort code reason info)

/-- WRITER gets one element from QB, writes one byte, or aborts on the sink's answer. -/
inductive WriterMove (s : State) : State → Prop where
  | gets (w : Writer) (hget : canGet s .b) : WriterMove s (detectDone ((s.qGet .b).setWr w))
  | writes (b : Byte) (w : Writer) : WriterMove s (detectDone ((s.sinkWrite b .ok).setWr w))
  | aborts (b : Byte) (code : ErrCode) (reason : ErrReason) (info : Code) :
      WriterMove s ((s.sinkWrite b .error).abort code reason info)

theorem readerOp_move {i : Instr} (hop : ReaderOp i) (h : exec i s = .next t) : t = s ∨ ReaderMove s t := by
  cases hop with
  | rawByte b =>
    exact (execRdRawByte_next h).imp_right fun ⟨⟨hat, hnext⟩, ht⟩ => ht ▸ .reads hat.2.2 (.inr ⟨b, hnext⟩)
  | rawEnd => exact (execRdRawEnd_next h).imp_right fun ⟨⟨hat, _⟩, ht⟩ => ht ▸ .reads hat.2.2 (.inl rfl)
  | srcError m => exact (execRdSrcError_next h).imp_right fun ⟨_, ht⟩ => ht ▸ .aborts _ _ _
  | unpackByte b =>
    exact (execUnpackByte_next h).imp_right fun ⟨⟨hat, hnext⟩, ht⟩ => ht ▸ .reads hat.2.2 (.inr ⟨b, hnext⟩)
  | unpackEnd => exact (execUnpackEnd_next h).imp_right fun ⟨⟨hat, _⟩, ht⟩ => ht ▸ .reads hat.2.2 (.inl rfl)
  | put m => exact (execRdPut_next h).imp_right fun ⟨⟨hat, hput⟩, ht⟩ => ht ▸ .puts hput (.inr ⟨hat.2.2, rfl⟩)
  | eos m => exact (execRdEos_next h).imp_right fun ⟨⟨_, hput⟩, ht⟩ => ht ▸ .puts hput (.inl rfl)

theorem compressOp_move {i : Instr} (hop : CompressOp i) (h : exec i s = .next t) : t = s ∨ EngineMove s t := by
  cases hop with
  | fetchSym v =>
    exact (execCFetchSym_next h).imp_right fun ⟨⟨_, hitem⟩, ht⟩ => ht ▸ .gets _ (canGet_of_peek hitem).1
  | fetchEos =>
    exact (execCFetchEos_next h).imp_right fun ⟨⟨_, hheld⟩, ht⟩ => ht ▸ .gets _ (canGet_of_holdsEos hheld).1
  | matchHit => exact (execCMatchHit_next h).imp_right fun ⟨_, _, ht⟩ => ht ▸ .works _
  | matchMiss => exact (execCMatchMiss_next h).imp_right fun ⟨_, ht⟩ => ht ▸ .works _
  | emitAdd => exact (execCEmitAdd_next h).imp_right fun ⟨c, ⟨_, _, hput⟩, _, ht⟩ => ht ▸ .puts (itemElem c) _ hput
  | emitFull => exact (execCEmitFull_next h).imp_right fun ⟨_, ⟨_, _, hput⟩, _, ht⟩ => ht ▸ .puts _ _ hput
  | reset => exact (execCReset_next h).imp_right fun ⟨⟨_, hput⟩, ht⟩ => ht ▸ .puts (itemElem resetCode) _ hput
  | final => exact (execCFinal_next h).imp_right fun ⟨_, ⟨_, hput⟩, _, ht⟩ => ht ▸ .puts _ _ hput
  | eos => exact (execCEos_next h).imp_right fun ⟨⟨_, hput⟩, ht⟩ => ht ▸ .puts _ _ hput

/-- An element of some class is there to be got. -/
theorem canGet_of_fetchesClass {k : DClass} (h : fetchesClass s k) : canGet s .a := by
  obtain ⟨_, hpeek, _⟩ := dClass_some h.2
  exact (canGet_of_peek hpeek).1

theorem EngineMove.decodes (hget : canGet s .a) (first : Byte) (rest : Str) :
    EngineMove s (detectDone ((s.qGet .a).dDecoded first rest)) :=
  dDecoded_eq (s.qGet .a) first rest ▸ .gets _ hget

theorem decompressOp_move {i : Instr} (hop : DecompressOp i) (h : exec i s = .next t) : t = s ∨ EngineMove s t := by
  cases hop with
  | eosIn =>
    exact (execDEosIn_next h).imp_right fun ⟨hclass, ht⟩ => ht ▸ .gets _ (canGet_of_fetchesClass hclass)
  | errFresh c => exact (execDErrFresh_next h).imp_right fun ⟨_, ht⟩ => ht ▸ .aborts _ _ _
  | reset =>
    exact (execDReset_next h).imp_right fun ⟨hclass, ht⟩ => ht ▸ .gets _ (canGet_of_fetchesClass hclass)
  | errRange c => exact (execDErrRange_next h).imp_right fun ⟨_, ht⟩ => ht ▸ .aborts _ _ _
  | errOverflow c => exact (execDErrOverflow_next h).imp_right fun ⟨_, ht⟩ => ht ▸ .aborts _ _ _
  | lit b =>
    exact (execDLit_next h).imp_right fun ⟨⟨hclass, _⟩, ht⟩ => ht ▸ .decodes (canGet_of_fetchesClass hclass) _ _
  | seq c =>
    exact (execDSeq_next h).imp_right fun ⟨_, _, ⟨hclass, _⟩, _, ht⟩ =>
      ht ▸ .decodes (canGet_of_fetchesClass hclass) _ _
  | kwk c =>
    exact (execDKwk_next h).imp_right fun ⟨_, _, ⟨hclass, _⟩, _, ht⟩ =>
      ht ▸ .decodes (canGet_of_fetchesClass hclass) _ _
  | emit => exact (execDEmit_next h).imp_right fun ⟨_, ⟨_, hput⟩, _, ht⟩ => ht ▸ .puts _ _ hput
  | eosOut => exact (execDEosOut_next h).imp_right fun ⟨⟨_, hput⟩, ht⟩ => ht ▸ .puts _ _ hput

/-- A sink write is accepted or aborts. -/
theorem WriterMove.ofAnswer {b : Byte} {w : Writer} {r : SinkAnswer} {code : ErrCode} {reason : ErrReason} {info : Code}
    (h : (r = .error ∧ t = (s.sinkWrite b .error).abort code reason info) ∨
      (r = .ok ∧ t = detectDone ((s.sinkWrite b .ok).setWr w))) : WriterMove s t := by
  rcases h with ⟨-, rfl⟩ | ⟨-, rfl⟩
  · exact .aborts _ _ _ _
  · exact .writes _ _

theorem writerOp_move {i : Instr} (hop : WriterOp i) (h : exec i s = .next t) : t = s ∨ WriterMove s t := by
  cases hop with
  | packCode c =>
    exact (execPackCode_next h).imp_right fun ⟨⟨_, hitem⟩, ht⟩ => ht ▸ .gets _ (canGet_of_peek hitem).1
  | packEos =>
    exact (execPackEos_next h).imp_right fun ⟨⟨_, hheld⟩, ht⟩ => ht ▸ .gets _ (canGet_of_holdsEos hheld).1
  | packEmit r => exact (execPackEmit_next h).imp_right fun ⟨_, hcase⟩ => .ofAnswer hcase
  | packFlush r => exact (execPackFlush_next h).imp_right fun ⟨_, hcase⟩ => .ofAnswer hcase
  | rawByte v =>
    exact (execWrRawByte_next h).imp_right fun ⟨⟨_, hitem⟩, ht⟩ => ht ▸ .gets _ (canGet_of_peek hitem).1
  | rawEos =>
    exact (execWrRawEos_next h).imp_right fun ⟨⟨_, hheld⟩, ht⟩ => ht ▸ .gets _ (canGet_of_holdsEos hheld).1
  | rawEmit r => exact (execWrRawEmit_next h).imp_right fun ⟨_, hcase⟩ => .ofAnswer hcase

/-! ## The stages' turns -/

theorem readerTurn_move (h : runTurn .reader s = .next t) : t = s ∨ ReaderMove s t := by
  rcases runTurn_next h with rfl | ⟨i, hdec, hexec⟩
  · exact .inl rfl
  · rw [decode_opcode_reader] at hdec
    exact readerOp_move (decodeReader_readerOp hdec) hexec

theorem engineTurn_move (h : runTurn .engine s = .next t) : t = s ∨ EngineMove s t := by
  rcases runTurn_next h with rfl | ⟨i, hdec, hexec⟩
  · exact .inl rfl
  · rw [decode_opcode_engine] at hdec
    split at hdec
    · exact compressOp_move (decodeCompress_compressOp hdec) hexec
    · exact decompressOp_move (decodeDecompress_decompressOp hdec) hexec

theorem writerTurn_move (h : runTurn .writer s = .next t) : t = s ∨ WriterMove s t := by
  rcases runTurn_next h with rfl | ⟨i, hdec, hexec⟩
  · exact .inl rfl
  · rw [decode_opcode_writer] at hdec
    exact writerOp_move (decodeWriter_writerOp hdec) hexec

/-! ## What a move leaves alone (R126) -/

/-- READER leaves ENGINE, WRITER, QB and the sink's port alone, and touches QA by one put. -/
structure ReaderFrame (s t : State) : Prop where
  eng : t.eng = s.eng
  wr : t.wr = s.wr
  qb : t.qb = s.qb
  snk : t.host.snk = s.host.snk
  out : t.host.out = s.host.out
  qa : t.qa = s.qa ∨ (canPut s .a ∧ ∃ e, t.qa = s.qa.afterPut s.qcap e)
  qcap : t.qcap = s.qcap

/-- ENGINE leaves READER, WRITER and both ports alone, and touches QA by one get and QB by one put. -/
structure EngineFrame (s t : State) : Prop where
  rd : t.rd = s.rd
  wr : t.wr = s.wr
  host : t.host = s.host
  qa : t.qa = s.qa ∨ (canGet s .a ∧ t.qa = s.qa.afterGet s.qcap)
  qb : t.qb = s.qb ∨ (canPut s .b ∧ ∃ e, t.qb = s.qb.afterPut s.qcap e)
  qcap : t.qcap = s.qcap

/-- WRITER leaves READER, ENGINE, QA and the source's port alone, and touches QB by one get. -/
structure WriterFrame (s t : State) : Prop where
  rd : t.rd = s.rd
  eng : t.eng = s.eng
  qa : t.qa = s.qa
  src : t.host.src = s.host.src
  qb : t.qb = s.qb ∨ (canGet s .b ∧ t.qb = s.qb.afterGet s.qcap)
  qcap : t.qcap = s.qcap

theorem ReaderMove.frame (h : ReaderMove s t) : ReaderFrame s t := by
  cases h with
  | reads _ _ => constructor <;> simp [State.sourceRead]
  | @puts e r hput _ => exact ⟨by simp, by simp, by simp, by simp, by simp, .inr ⟨hput, e, detectDone_qa _⟩, by simp⟩
  | aborts _ _ _ => exact ⟨rfl, rfl, rfl, rfl, rfl, .inl rfl, rfl⟩

theorem EngineMove.frame (h : EngineMove s t) : EngineFrame s t := by
  cases h with
  | works e => constructor <;> simp
  | gets e hget => exact ⟨by simp, by simp, by simp, .inr ⟨hget, detectDone_qa _⟩, .inl (by simp), by simp⟩
  | puts x e hput => exact ⟨by simp, by simp, by simp, .inl (by simp), .inr ⟨hput, x, detectDone_qb _⟩, by simp⟩
  | aborts _ _ _ => exact ⟨rfl, rfl, rfl, .inl rfl, .inl rfl, rfl⟩

theorem WriterMove.frame (h : WriterMove s t) : WriterFrame s t := by
  cases h with
  | gets w hget => exact ⟨by simp, by simp, by simp, by simp, .inr ⟨hget, detectDone_qb _⟩, by simp⟩
  | writes b w => constructor <;> simp [State.sinkWrite]
  | aborts b _ _ _ => exact ⟨rfl, rfl, rfl, rfl, .inl rfl, rfl⟩

theorem readerTurn_frame (h : runTurn .reader s = .next t) : ReaderFrame s t := by
  rcases readerTurn_move h with rfl | hmove
  · exact ⟨rfl, rfl, rfl, rfl, rfl, .inl rfl, rfl⟩
  · exact hmove.frame

theorem engineTurn_frame (h : runTurn .engine s = .next t) : EngineFrame s t := by
  rcases engineTurn_move h with rfl | hmove
  · exact ⟨rfl, rfl, rfl, .inl rfl, .inl rfl, rfl⟩
  · exact hmove.frame

theorem writerTurn_frame (h : runTurn .writer s = .next t) : WriterFrame s t := by
  rcases writerTurn_move h with rfl | hmove
  · exact ⟨rfl, rfl, rfl, rfl, .inl rfl, rfl⟩
  · exact hmove.frame

/-! ## No turn changes QCAP (R27, R73; log 26) -/

theorem stageOp_qcap {i : Instr} (hop : StageOp i) (h : exec i s = .next t) : t.qcap = s.qcap := by
  cases hop with
  | reader hop => rcases readerOp_move hop h with rfl | hmove; exacts [rfl, hmove.frame.qcap]
  | compress hop => rcases compressOp_move hop h with rfl | hmove; exacts [rfl, hmove.frame.qcap]
  | decompress hop => rcases decompressOp_move hop h with rfl | hmove; exacts [rfl, hmove.frame.qcap]
  | writer hop => rcases writerOp_move hop h with rfl | hmove; exacts [rfl, hmove.frame.qcap]

theorem hostSrcAnswer_qcap {k : BitVec 2} {d : Byte} (h : exec (.hostSrcAnswer k d) s = .next t) :
    t.qcap = s.qcap := by
  rcases execHostSrcAnswer_eq k d s with heq | ⟨-, i, hdec, heq⟩
  · cases heq.symm.trans h; rfl
  · exact stageOp_qcap (s := s.offerSource _) (.reader (decodeSource_readerOp hdec)) (heq.symm.trans h)

theorem hostSnkAnswer_qcap {r : SinkAnswer} (h : exec (.hostSnkAnswer r) s = .next t) : t.qcap = s.qcap := by
  rcases execHostSnkAnswer_eq r s with heq | ⟨-, -, i, hdec, heq⟩
  · cases heq.symm.trans h; rfl
  · exact stageOp_qcap (s := s.offerSink r) (.writer (decodeWriter_writerOp hdec)) (heq.symm.trans h)

theorem turnOp_qcap {u : Turn} {i : Instr} (hop : TurnOp u i) (h : exec i s = .next t) : t.qcap = s.qcap := by
  cases hop with
  | stage _ hop => exact stageOp_qcap hop h
  | start m => rcases execStart_next h with ⟨-, rfl⟩ | ⟨-, rfl⟩ <;> rfl
  | rst => cases h; rfl
  | srcAnswer _ _ _ => exact hostSrcAnswer_qcap h
  | snkAnswer _ _ => exact hostSnkAnswer_qcap h

theorem runTurn_qcap {u : Turn} (h : runTurn u s = .next t) : t.qcap = s.qcap := by
  rcases runTurn_next h with rfl | ⟨i, hdec, hexec⟩
  · rfl
  · exact turnOp_qcap (decode_opcode_turnOp hdec) hexec

/-! ## DONE detection (R128) -/

/-- A stage's turn that is not blocked and does not abort ends with DONE detection. -/
theorem stageTurn_status {u : Turn} (hu : stageTurn u) (hrun : s.core.status = .running)
    (h : runTurn u s = .next t) (hmoved : t ≠ s) (hlive : t.core.status ≠ .aborted) :
    t.core.status = if allDone t then .done else .running := by
  rcases runTurn_next h with ht | ⟨i, hdec, hexec⟩
  · exact absurd ht hmoved
  · rcases stageOp_effect (decode_opcode_modeOp hu hdec).stageOp hexec with ht | ⟨-, hend⟩
    · exact absurd ht hmoved
    · cases hend with
      | finished hcore _ =>
        simp only [detectDone_status, allDone, detectDone_rd, detectDone_eng, detectDone_wr, hcore, hrun]
      | aborted => exact absurd rfl hlive

end Sys2Proof.Machine
end

section
/-! SUPPORT. Noninterference (45_pipeline.md R126): what a stage's turn writes depends on that stage's side of the state
alone. Two runs are compared, of `s` and of a state that has the stage's side of `s` and is free elsewhere. -/

namespace Sys2Proof.Machine

/-! ## A stage's side, put into another state -/

/-- `r` with READER's side of `s`: its registers, QA, the source's port, and what every stage reads. -/
def State.takeReader (r s : State) : State :=
  { r with
    core := { r.core with status := s.core.status, mode := s.core.mode }
    qa := s.qa, rd := s.rd, qcap := s.qcap, host := { r.host with src := s.host.src } }

/-- `r` with ENGINE's side of `s`: its registers and tables, both queues, and what every stage reads. -/
def State.takeEngine (r s : State) : State :=
  { r with
    core := { r.core with status := s.core.status, mode := s.core.mode }
    qa := s.qa, qb := s.qb, eng := s.eng, qcap := s.qcap }

/-- `r` with WRITER's side of `s`: its registers, QB, the sink's port, and what every stage reads. -/
def State.takeWriter (r s : State) : State :=
  { r with
    core := { r.core with status := s.core.status, mode := s.core.mode }
    qb := s.qb, wr := s.wr, qcap := s.qcap, host := { r.host with snk := s.host.snk, out := s.host.out } }

/-- What READER's turn writes. -/
abbrev SameReader (s s' : State) : Prop := s'.rd = s.rd ∧ s'.qa = s.qa ∧ s'.host.src = s.host.src

/-- What ENGINE's turn writes. -/
abbrev SameEngine (s s' : State) : Prop := s'.eng = s.eng ∧ s'.qa = s.qa ∧ s'.qb = s.qb

/-- What WRITER's turn writes. -/
abbrev SameWriter (s s' : State) : Prop :=
  s'.wr = s.wr ∧ s'.qb = s.qb ∧ s'.host.snk = s.host.snk ∧ s'.host.out = s.host.out

variable {s r : State}

theorem takeReader_eq (hstatus : r.core.status = s.core.status) (hmode : r.core.mode = s.core.mode)
    (hcap : r.qcap = s.qcap) (h : SameReader s r) : r.takeReader s = r := by
  obtain ⟨hrd, hqa, hsrc⟩ := h
  rw [State.takeReader, ← hstatus, ← hmode, ← hcap, ← hrd, ← hqa, ← hsrc]

theorem takeEngine_eq (hstatus : r.core.status = s.core.status) (hmode : r.core.mode = s.core.mode)
    (hcap : r.qcap = s.qcap) (h : SameEngine s r) : r.takeEngine s = r := by
  obtain ⟨heng, hqa, hqb⟩ := h
  rw [State.takeEngine, ← hstatus, ← hmode, ← hcap, ← heng, ← hqa, ← hqb]

theorem takeWriter_eq (hstatus : r.core.status = s.core.status) (hmode : r.core.mode = s.core.mode)
    (hcap : r.qcap = s.qcap) (h : SameWriter s r) : r.takeWriter s = r := by
  obtain ⟨hwr, hqb, hsnk, hout⟩ := h
  rw [State.takeWriter, ← hstatus, ← hmode, ← hcap, ← hwr, ← hqb, ← hsnk, ← hout]

theorem SameReader.detectDone {u u' : State} (h : SameReader u u') : SameReader (detectDone u) (detectDone u') := by
  simpa [SameReader] using h

theorem SameEngine.detectDone {u u' : State} (h : SameEngine u u') : SameEngine (detectDone u) (detectDone u') := by
  simpa [SameEngine] using h

theorem SameWriter.detectDone {u u' : State} (h : SameWriter u u') : SameWriter (detectDone u) (detectDone u') := by
  simpa [SameWriter] using h

/-! ## Two runs -/

/-- Where both runs answer a next state, `R` holds of the two. -/
def BothNext (R : State → State → Prop) (o o' : Out) : Prop := ∀ t t', o = .next t → o' = .next t' → R t t'

section
variable {R : State → State → Prop} {u u' : State}

theorem BothNext.next (h : R u u') : BothNext R (.next u) (.next u') := by
  intro t t' ht ht'
  cases ht
  cases ht'
  exact h

theorem BothNext.fault {f f' : Fault} : BothNext R (.fault f) (.fault f') := fun _ _ ht => nomatch ht

/-- A guarded step whose condition is the same in both runs. -/
theorem BothNext.guarded {c : Prop} [Decidable c] {o o' : Out} (hblocked : R s r) (henabled : BothNext R o o') :
    BothNext R (if c then o else noStep s) (if c then o' else noStep r) := by
  split
  · exact henabled
  · exact .next hblocked

end

/-! ## READER -/

theorem readerOp_reads {i : Instr} (hop : ReaderOp i) (s r : State) :
    BothNext SameReader (exec i s) (exec i (r.takeReader s)) := by
  cases hop with
  | srcError m => exact .guarded ⟨rfl, rfl, rfl⟩ (.next ⟨rfl, rfl, rfl⟩)
  | _ => exact .guarded ⟨rfl, rfl, rfl⟩ (.next (.detectDone ⟨rfl, rfl, rfl⟩))

/-! ## ENGINE -/

theorem takeEngine_eng (r s : State) : (r.takeEngine s).eng = s.eng := rfl

theorem takeEngine_dictFind (r s : State) : (r.takeEngine s).dictFind = s.dictFind := rfl

theorem takeEngine_tableAt (r s : State) : (r.takeEngine s).tableAt = s.tableAt := rfl

theorem SameEngine.dDecoded {u u' : State} (h : SameEngine u u') (first : Byte) (rest : Str) :
    SameEngine (u.dDecoded first rest) (u'.dDecoded first rest) := by
  obtain ⟨heng, hqa, hqb⟩ := h
  rw [dDecoded_eq, dDecoded_eq, heng]
  exact ⟨rfl, hqa, hqb⟩

theorem compressOp_reads {i : Instr} (hop : CompressOp i) (s r : State) :
    BothNext SameEngine (exec i s) (exec i (r.takeEngine s)) := by
  have hsame : SameEngine s (r.takeEngine s) := ⟨rfl, rfl, rfl⟩
  cases hop with
  | matchHit =>
    simp only [exec, execCMatchHit, takeEngine_eng, takeEngine_dictFind]
    refine .guarded hsame ?_
    cases s.dictFind s.eng.cur s.eng.sym with
    | none => exact .next hsame
    | some k => exact .next (.detectDone ⟨rfl, rfl, rfl⟩)
  | emitAdd | emitFull | final =>
    simp only [exec, execCEmitAdd, execCEmitFull, execCFinal, takeEngine_eng]
    refine .guarded hsame ?_
    cases s.eng.cur with
    | root => exact .fault
    | code c => exact .next (.detectDone ⟨rfl, rfl, rfl⟩)
  | _ => exact .guarded hsame (.next (.detectDone ⟨rfl, rfl, rfl⟩))

theorem decompressOp_reads {i : Instr} (hop : DecompressOp i) (s r : State) :
    BothNext SameEngine (exec i s) (exec i (r.takeEngine s)) := by
  have hsame : SameEngine s (r.takeEngine s) := ⟨rfl, rfl, rfl⟩
  have hgot : SameEngine (s.qGet .a) ((r.takeEngine s).qGet .a) := ⟨rfl, rfl, rfl⟩
  cases hop with
  | errFresh c | errRange c | errOverflow c => exact .guarded hsame (.next ⟨rfl, rfl, rfl⟩)
  | lit b => exact .guarded hsame (.next (.detectDone (hgot.dDecoded b [])))
  | seq c =>
    simp only [exec, execDSeq, takeEngine_eng, takeEngine_tableAt]
    refine .guarded hsame ?_
    cases s.tableAt c.toNat with
    | nil => exact .fault
    | cons first rest => exact .next (.detectDone (hgot.dDecoded first rest))
  | kwk c =>
    simp only [exec, execDKwk, takeEngine_eng]
    refine .guarded hsame ?_
    cases s.eng.prev with
    | nil => exact .next hsame
    | cons first rest => exact .next (.detectDone (hgot.dDecoded first (rest ++ [first])))
  | emit =>
    simp only [exec, execDEmit, takeEngine_eng]
    refine .guarded hsame ?_
    cases s.eng.obuf[s.eng.oidx.toNat]? with
    | none => exact .fault
    | some b => exact .next (.detectDone ⟨rfl, rfl, rfl⟩)
  | _ => exact .guarded hsame (.next (.detectDone ⟨rfl, rfl, rfl⟩))

/-! ## WRITER -/

theorem writerOp_reads {i : Instr} (hop : WriterOp i) (s r : State) :
    BothNext SameWriter (exec i s) (exec i (r.takeWriter s)) := by
  have hsame : SameWriter s (r.takeWriter s) := ⟨rfl, rfl, rfl, rfl⟩
  cases hop with
  | packEmit a | packFlush a | rawEmit a =>
    cases a with
    | ok => exact .guarded hsame (.next (.detectDone ⟨rfl, rfl, rfl, rfl⟩))
    | error => exact .guarded hsame (.next ⟨rfl, rfl, rfl, rfl⟩)
  | _ => exact .guarded hsame (.next (.detectDone ⟨rfl, rfl, rfl, rfl⟩))

/-! ## The stages' turns: the same tuple selects the same operation -/

theorem BothNext.runTurn {R : State → State → Prop} {u : Turn} (hop : r.opcode u = s.opcode u) (hblocked : R s r)
    (hrun : ∀ i, decode (s.opcode u) = .ok i → BothNext R (exec i s) (exec i r)) :
    BothNext R (runTurn u s) (runTurn u r) := by
  unfold Machine.runTurn
  rw [hop]
  split
  next i hdec => exact hrun i hdec
  next => exact .next hblocked

theorem readerTurn_reads (s r : State) :
    BothNext SameReader (runTurn .reader s) (runTurn .reader (r.takeReader s)) := by
  refine .runTurn rfl ⟨rfl, rfl, rfl⟩ fun i hdec => ?_
  rw [decode_opcode_reader] at hdec
  exact readerOp_reads (decodeReader_readerOp hdec) s r

theorem engineTurn_reads (s r : State) :
    BothNext SameEngine (runTurn .engine s) (runTurn .engine (r.takeEngine s)) := by
  refine .runTurn rfl ⟨rfl, rfl, rfl⟩ fun i hdec => ?_
  rw [decode_opcode_engine] at hdec
  split at hdec
  · exact compressOp_reads (decodeCompress_compressOp hdec) s r
  · exact decompressOp_reads (decodeDecompress_decompressOp hdec) s r

theorem writerTurn_reads (s r : State) :
    BothNext SameWriter (runTurn .writer s) (runTurn .writer (r.takeWriter s)) := by
  refine .runTurn rfl ⟨rfl, rfl, rfl, rfl⟩ fun i hdec => ?_
  rw [decode_opcode_writer] at hdec
  exact writerOp_reads (decodeWriter_writerOp hdec) s r

end Sys2Proof.Machine
end

section
/-! The statements on the isolation of the stages and on DONE (45_pipeline.md R126, R128). -/

namespace Sys2Proof.Proofs

open Sys2Proof Sys2Proof.Machine

/-- Settles O45: a stage's turn passes or is one of its moves, each of which writes the stage's own part. -/
theorem stagesWriteTheirOwn : Obligations.StagesWriteTheirOwn := by
  intro s t hstep
  have hrun := step_runTurn hstep
  obtain ⟨-, hqa, hqb, hrd, heng, hwr, hcap⟩ := nextTurn_same s
  obtain ⟨hsrc, hsnk, hout⟩ := nextTurn_ports s
  refine ⟨(runTurn_qcap hrun).trans hcap, fun hu => ?_, fun hu => ?_, fun hu => ?_⟩ <;> rw [hu] at hrun
  · have hframe := readerTurn_frame hrun
    refine ⟨hframe.eng.trans heng, hframe.wr.trans hwr, hframe.qb.trans hqb, hframe.snk.trans hsnk,
      hframe.out.trans hout, ?_⟩
    simpa only [canPut, State.queue_a, hqa, hcap] using hframe.qa
  · have hframe := engineTurn_frame hrun
    refine ⟨hframe.rd.trans hrd, hframe.wr.trans hwr, ?_, ?_, ?_, ?_, ?_⟩
    · rw [hframe.host, hsrc]
    · rw [hframe.host, hsnk]
    · rw [hframe.host, hout]
    · simpa only [canGet, State.queue_a, hqa, hcap] using hframe.qa
    · simpa only [canPut, State.queue_b, hqb, hcap] using hframe.qb
  · have hframe := writerTurn_frame hrun
    refine ⟨hframe.rd.trans hrd, hframe.eng.trans heng, hframe.qa.trans hqa, hframe.src.trans hsrc, ?_⟩
    simpa only [canGet, State.queue_b, hqb, hcap] using hframe.qb

/-- Settles O46: the second state is itself with the first one's side of the stage put in, and every operation of the
stage does the same on both. -/
theorem stagesReadTheirOwn : Obligations.StagesReadTheirOwn := by
  intro s s' t t' hstep hstep' hturn hstatus hmode hcap
  have hrun := step_runTurn hstep
  have hrun' := step_runTurn hstep'
  obtain ⟨hcore, hqa, hqb, hrd, heng, hwr, hn⟩ := nextTurn_same s
  obtain ⟨hcore', hqa', hqb', hrd', heng', hwr', hn'⟩ := nextTurn_same s'
  obtain ⟨hsrc, hsnk, hout⟩ := nextTurn_ports s
  obtain ⟨hsrc', hsnk', hout'⟩ := nextTurn_ports s'
  have hstatus : s'.nextTurn.2.core.status = s.nextTurn.2.core.status := by rw [hcore, hcore', hstatus]
  have hmode : s'.nextTurn.2.core.mode = s.nextTurn.2.core.mode := by rw [hcore, hcore', hmode]
  have hcap : s'.nextTurn.2.qcap = s.nextTurn.2.qcap := by rw [hn, hn', hcap]
  rw [hturn] at hrun'
  refine ⟨fun hu h1 h2 h3 => ?_, fun hu h1 h2 h3 => ?_, fun hu h1 h2 h3 h4 => ?_⟩ <;> rw [hu] at hrun hrun'
  · have hsame : SameReader s.nextTurn.2 s'.nextTurn.2 := by
      rw [SameReader, hrd, hrd', hqa, hqa', hsrc, hsrc']; exact ⟨h1, h2, h3⟩
    rw [← takeReader_eq hstatus hmode hcap hsame] at hrun'
    exact readerTurn_reads _ _ t t' hrun hrun'
  · have hsame : SameEngine s.nextTurn.2 s'.nextTurn.2 := by
      rw [SameEngine, heng, heng', hqa, hqa', hqb, hqb']; exact ⟨h1, h2, h3⟩
    rw [← takeEngine_eq hstatus hmode hcap hsame] at hrun'
    exact engineTurn_reads _ _ t t' hrun hrun'
  · have hsame : SameWriter s.nextTurn.2 s'.nextTurn.2 := by
      rw [SameWriter, hwr, hwr', hqb, hqb', hsnk, hsnk', hout, hout']; exact ⟨h1, h2, h3, h4⟩
    rw [← takeWriter_eq hstatus hmode hcap hsame] at hrun'
    exact writerTurn_reads _ _ t t' hrun hrun'

/-- Settles O48: an effective step of a stage that does not abort ends with DONE detection. -/
theorem doneIsDetected : Obligations.DoneIsDetected := by
  intro s t hstep hu hrun hmoved hlive
  have hnext : s.nextTurn.2.core.status = .running := (congrArg CoreRegs.status (nextTurn_same s).1).trans hrun
  exact stageTurn_status hu hnext (step_runTurn hstep) hmoved hlive

end Sys2Proof.Proofs
end

section
/-! SUPPORT. The bound on a job's work (45_pipeline.md R143, 70_reset_and_hazards.md R172; log 22): where a stage's step
is enabled its turn aborts the job or lowers `jobWork`, and elsewhere its turn passes. -/

namespace Sys2Proof.Machine

variable {s t : State}

/-! ## When a stage has a step -/

/-- READER has a step: a response is ready where it reads, QA has room where it puts. -/
def readerReady (s : State) : Prop :=
  match s.rd.state with
  | .read => ∃ w rest, s.host.src = w :: rest ∧ srcKind w ≠ 3
  | .put => canPut s .a
  | .eos => canPut s .a
  | .idle => False
  | .done => False

/-- ENGINE has a step: QA holds an element where it fetches, QB has room where it puts. -/
def engineReady (s : State) : Prop :=
  match s.eng.state with
  | .cFetch => canGet s .a
  | .dFetch => canGet s .a
  | .cMatch => True
  | .idle => False
  | .done => False
  | _ => canPut s .b

/-- WRITER has a step: QB holds an element where it gets, an answer is ready where it writes. -/
def writerReady (s : State) : Prop :=
  match s.wr.state with
  | .get => canGet s .b
  | .emit => s.host.snk ≠ []
  | .pad => s.host.snk ≠ []
  | .idle => False
  | .done => False

/-- The stage of turn `u` has a step. -/
def stageReady (s : State) : Turn → Prop
  | .reader => readerReady s
  | .engine => engineReady s
  | .writer => writerReady s
  | _ => False

/-- The job is aborted, or less of its work is left. -/
abbrev Progress (s t : State) : Prop := t.core.status = .aborted ∨ jobWork t < jobWork s

/-! ## Each stage's share of the work -/

theorem readerWork_congr (hrd : t.rd = s.rd) (hsrc : t.host.src = s.host.src) : readerWork t = readerWork s := by
  simp only [readerWork, hrd, hsrc]

theorem engineWork_congr (heng : t.eng = s.eng) : engineWork t = engineWork s := by
  simp only [engineWork, heng]

theorem writerWork_congr (hwr : t.wr = s.wr) : writerWork t = writerWork s := by
  simp only [writerWork, hwr]

/-- The work depends on the stages, the queues and the source's port. -/
theorem jobWork_congr (hrd : t.rd = s.rd) (heng : t.eng = s.eng) (hwr : t.wr = s.wr) (hqa : t.qa = s.qa)
    (hqb : t.qb = s.qb) (hsrc : t.host.src = s.host.src) : jobWork t = jobWork s := by
  rw [jobWork, jobWork, readerWork_congr hrd hsrc, engineWork_congr heng, writerWork_congr hwr, hqa, hqb]

theorem jobWork_lt_of_reader (heng : t.eng = s.eng) (hwr : t.wr = s.wr) (hqb : t.qb = s.qb)
    (h : readerWork t + 20000 * t.qa.filled < readerWork s + 20000 * s.qa.filled) : jobWork t < jobWork s := by
  rw [jobWork, jobWork, engineWork_congr heng, writerWork_congr hwr, hqb]
  omega

theorem jobWork_lt_of_engine (hrd : t.rd = s.rd) (hwr : t.wr = s.wr) (hsrc : t.host.src = s.host.src)
    (h : 20000 * t.qa.filled + engineWork t + 4 * t.qb.filled <
      20000 * s.qa.filled + engineWork s + 4 * s.qb.filled) : jobWork t < jobWork s := by
  rw [jobWork, jobWork, readerWork_congr hrd hsrc, writerWork_congr hwr]
  omega

theorem jobWork_lt_of_writer (hrd : t.rd = s.rd) (heng : t.eng = s.eng) (hqa : t.qa = s.qa)
    (hsrc : t.host.src = s.host.src)
    (h : 4 * t.qb.filled + writerWork t < 4 * s.qb.filled + writerWork s) : jobWork t < jobWork s := by
  rw [jobWork, jobWork, readerWork_congr hrd hsrc, engineWork_congr heng, hqa]
  omega

/-! ## READER's turn -/

/-- A response read pays for all that it can cause. -/
theorem jobWork_lt_of_read {w : SrcWord} {rest : List SrcWord} (hsrc : s.host.src = w :: rest) (r : Reader) :
    jobWork { s with rd := r, host := { s.host with src := rest } } < jobWork s := by
  refine jobWork_lt_of_reader rfl rfl rfl ?_
  simp only [readerWork, hsrc, List.length_cons]
  cases r.state <;> simp <;> omega

theorem jobWork_lt_of_readerPut {core : CoreRegs} {e : Elem13} {st : RdState}
    (hold : s.rd.state = .put ∨ s.rd.state = .eos) (hnew : st = .read ∨ st = .done) :
    jobWork { s with core := core, qa := s.qa.afterPut s.qcap e, rd := { s.rd with state := st } } < jobWork s := by
  refine jobWork_lt_of_reader rfl rfl rfl ?_
  simp only [readerWork, Queue.afterPut]
  rcases hold with h | h <;> rcases hnew with h' | h' <;> simp only [h, h'] <;> omega

/-- A response of a used kind is an answer to READER's request (R137). -/
theorem readerTurn_reads_progress (hrun : s.core.status = .running) (hst : s.rd.state = .read) {w : SrcWord}
    {rest : List SrcWord} (hsrc : s.host.src = w :: rest) (hkind : srcKind w ≠ 3) :
    ∃ t, runTurn .reader s = .next t ∧ Progress s t := by
  have hdec := decode_opcode_rdRead (w := w) hst (by rw [hsrc, List.head?_cons])
  have hkinds : ∀ k : BitVec 2, k ≠ 3 → k = 0 ∨ k = 1 ∨ k = 2 := by decide
  obtain ⟨k, d, rfl⟩ : ∃ k d, w = srcWord k d := ⟨_, _, (srcWord_eta w).symm⟩
  rw [srcKind_srcWord] at hkind
  obtain rfl | rfl | rfl := hkinds k hkind
  · cases hmode : s.core.mode with
    | compress =>
      rw [runTurn_of_decode (i := .rdRawByte d) (hdec.trans (by simp [decodeSource, hmode])),
        exec_rdRawByte ⟨hrun, hmode, hst⟩ hsrc]
      exact ⟨_, rfl, .inr (jobWork_lt_of_read hsrc _)⟩
    | decompress =>
      rw [runTurn_of_decode (i := .unpackByte d) (hdec.trans (by simp [decodeSource, hmode])),
        exec_unpackByte ⟨hrun, hmode, hst⟩ hsrc]
      exact ⟨_, rfl, .inr (jobWork_lt_of_read hsrc _)⟩
  · cases hmode : s.core.mode with
    | compress =>
      rw [runTurn_of_decode (i := .rdRawEnd) (hdec.trans (by simp [decodeSource, hmode])),
        exec_rdRawEnd ⟨hrun, hmode, hst⟩ hsrc]
      exact ⟨_, rfl, .inr (jobWork_lt_of_read hsrc _)⟩
    | decompress =>
      rw [runTurn_of_decode (i := .unpackEnd) (hdec.trans (by simp [decodeSource, hmode])),
        exec_unpackEnd ⟨hrun, hmode, hst⟩ hsrc]
      exact ⟨_, rfl, .inr (jobWork_lt_of_read hsrc _)⟩
  · rw [runTurn_of_decode (i := .rdSrcError s.core.mode) (hdec.trans (by simp [decodeSource])),
      exec_rdSrcError ⟨hrun, rfl, hst⟩ hsrc]
    exact ⟨_, rfl, .inl rfl⟩

theorem readerTurn_progress (hrun : s.core.status = .running) (hready : readerReady s) :
    ∃ t, runTurn .reader s = .next t ∧ Progress s t := by
  unfold readerReady at hready
  split at hready
  next hst =>
    obtain ⟨w, rest, hsrc, hkind⟩ := hready
    exact readerTurn_reads_progress hrun hst hsrc hkind
  next hst =>
    rw [runTurn_of_decode (decode_opcode_rdAt hst), exec_rdPut ⟨hrun, rfl, hst⟩ hready]
    exact ⟨_, rfl, .inr (jobWork_lt_of_readerPut (.inl hst) (.inl rfl))⟩
  next hst =>
    rw [runTurn_of_decode (decode_opcode_rdAt hst), exec_rdEos ⟨hrun, rfl, hst⟩ hready]
    exact ⟨_, rfl, .inr (jobWork_lt_of_readerPut (.inr hst) (.inr rfl))⟩
  next => exact hready.elim
  next => exact hready.elim

theorem readerTurn_passes (hready : ¬ readerReady s) : runTurn .reader s = .next s := by
  unfold readerReady at hready
  cases hst : s.rd.state with
  | read =>
    cases hsrc : s.host.src with
    | nil => exact runTurn_of_error ((decode_opcode_rdAt hst).trans (by rw [sourceNext_nil hsrc]; rfl))
    | cons w rest =>
      have hkind : srcKind w = 3 := by simpa [hst, hsrc] using hready
      have hdec := decode_opcode_rdRead (w := w) hst (by rw [hsrc, List.head?_cons])
      exact runTurn_of_error (hdec.trans (by simp [decodeSource, hkind]; rfl))
  | put =>
    rw [runTurn_of_decode (decode_opcode_rdAt hst)]
    exact exec_rdPut_blocked (by simpa [hst] using hready)
  | eos =>
    rw [runTurn_of_decode (decode_opcode_rdAt hst)]
    exact exec_rdEos_blocked (by simpa [hst] using hready)
  | idle => exact runTurn_of_error (decode_opcode_rdNoStep (.inl hst))
  | done => exact runTurn_of_error (decode_opcode_rdNoStep (.inr hst))

/-! ## What an enabled get finds -/

theorem holds_of_canGet {id : QueueId} (hget : canGet s id) :
    (elemTag (s.front id) = true ∧ s.holdsEos id) ∨
      (elemTag (s.front id) = false ∧ s.holdsItem id (elemPayload (s.front id))) := by
  have hpeek := peek_of_canGet hget
  cases htag : elemTag (s.front id) with
  | true => exact .inl ⟨rfl, by rw [State.holdsEos, hpeek, Option.map_some, htag]⟩
  | false => exact .inr ⟨rfl, by rw [State.holdsItem, hpeek, itemElem_of_tag htag]⟩

/-! ## ENGINE's turn in COMPRESS mode -/

/-- An element got pays for all that it can cause. -/
theorem jobWork_lt_of_engineGet {e : Engine} (hget : canGet s .a) (h : engineWork (s.setEng e) < 20000) :
    jobWork { s with qa := s.qa.afterGet s.qcap, eng := e } < jobWork s := by
  have hget : 0 < s.qa.filled := hget
  have hwork : engineWork { s with qa := s.qa.afterGet s.qcap, eng := e } = engineWork (s.setEng e) := rfl
  refine jobWork_lt_of_engine rfl rfl rfl ?_
  rw [hwork]
  simp only [Queue.afterGet]
  omega

theorem jobWork_lt_of_engineWork {e : Engine} (h : engineWork (s.setEng e) < engineWork s) :
    jobWork { s with eng := e } < jobWork s := by
  have hwork : engineWork { s with eng := e } = engineWork (s.setEng e) := rfl
  refine jobWork_lt_of_engine rfl rfl rfl ?_
  rw [hwork]
  exact Nat.add_lt_add_right (Nat.add_lt_add_left h _) _

theorem jobWork_lt_of_enginePut {core : CoreRegs} {x : Elem13} {e : Engine}
    (h : engineWork (s.setEng e) + 4 < engineWork s) :
    jobWork { s with core := core, qb := s.qb.afterPut s.qcap x, eng := e } < jobWork s := by
  have hwork : engineWork { s with core := core, qb := s.qb.afterPut s.qcap x, eng := e } =
      engineWork (s.setEng e) := rfl
  refine jobWork_lt_of_engine rfl rfl rfl ?_
  rw [hwork]
  simp only [Queue.afterPut]
  omega

section
variable (hinv : RunInv s) (hmode : s.core.mode = .compress)
include hinv hmode

theorem cFetchTurn_progress (hst : s.eng.state = .cFetch) (hget : canGet s .a) :
    ∃ t, runTurn .engine s = .next t ∧ Progress s t := by
  have hat : engineAt s .compress .cFetch := ⟨hinv.running, hmode, hst⟩
  have hdec := decode_opcode_compressAt hmode hst
  rw [peek_of_canGet hget, decodeCompress] at hdec
  rcases holds_of_canGet hget with ⟨htag, hheld⟩ | ⟨htag, hitem⟩
  · rw [runTurn_of_decode (i := .cFetchEos) (by rw [hdec, htag]; rfl), exec_cFetchEos hat hheld]
    refine ⟨_, rfl, .inr (jobWork_lt_of_engineGet hget ?_)⟩
    by_cases hcur : s.eng.cur = .root <;> simp [engineWork, hcur]
  · rw [runTurn_of_decode (i := .cFetchSym _) (by rw [hdec, htag]; rfl), exec_cFetchSym hat hitem]
    refine ⟨_, rfl, .inr (jobWork_lt_of_engineGet hget ?_)⟩
    by_cases hcur : s.eng.cur = .root <;> simp [engineWork, hcur]

/-- A MISS is a match put off: the root hits every symbol (R81). -/
theorem cMatchTurn_progress (hst : s.eng.state = .cMatch) : ∃ t, runTurn .engine s = .next t ∧ Progress s t := by
  have hat : engineAt s .compress .cMatch := ⟨hinv.running, hmode, hst⟩
  have hdec := decode_opcode_compressAt hmode hst
  cases hfind : s.dictFind s.eng.cur s.eng.sym with
  | some k =>
    rw [runTurn_of_decode (i := .cMatchHit) (by rw [hdec]; simp [decodeCompress, State.guard, hfind]),
      exec_cMatchHit hat hfind]
    refine ⟨_, rfl, .inr (jobWork_lt_of_engineWork ?_)⟩
    simp only [engineWork, State.setEng_eng, hst]
    split <;> decide
  | none =>
    have hcur : s.eng.cur ≠ .root := fun hroot => by simp [hroot, State.dictFind] at hfind
    rw [runTurn_of_decode (i := .cMatchMiss) (by rw [hdec]; simp [decodeCompress, State.guard, hfind]),
      exec_cMatchMiss hat hfind]
    exact ⟨_, rfl, .inr (jobWork_lt_of_engineWork (by simp [engineWork, hst, hcur]))⟩

theorem cEmitTurn_progress (hst : s.eng.state = .cEmit) (hput : canPut s .b) :
    ∃ t, runTurn .engine s = .next t ∧ Progress s t := by
  have hat : engineAt s .compress .cEmit := ⟨hinv.running, hmode, hst⟩
  have hdec := decode_opcode_compressAt hmode hst
  have hhigh := hinv.engine.high
  cases hcur : s.eng.cur with
  | root => exact absurd hcur ((hinv.engine.compress hmode).pending (.inl hst))
  | code c =>
    by_cases hn : s.eng.nextCode.toNat ≤ 4095
    · rw [runTurn_of_decode (i := .cEmitAdd) (by rw [hdec]; simp [decodeCompress, State.guard, hn]),
        exec_cEmitAdd hput hat hn hcur]
      exact ⟨_, rfl, .inr (jobWork_lt_of_enginePut (by simp [engineWork, hst]))⟩
    · rw [runTurn_of_decode (i := .cEmitFull) (by rw [hdec]; simp [decodeCompress, State.guard, hn]),
        exec_cEmitFull hput hat (by omega) hcur]
      exact ⟨_, rfl, .inr (jobWork_lt_of_enginePut (by simp [engineWork, hst]))⟩

theorem compressTurn_progress (hready : engineReady s) : ∃ t, runTurn .engine s = .next t ∧ Progress s t := by
  have hstate := (hinv.engine.compress hmode).state
  unfold engineReady at hready
  cases hst : s.eng.state with
  | cFetch => exact cFetchTurn_progress hinv hmode hst (by simpa [hst] using hready)
  | cMatch => exact cMatchTurn_progress hinv hmode hst
  | cEmit => exact cEmitTurn_progress hinv hmode hst (by simpa [hst] using hready)
  | cReset =>
    rw [runTurn_of_decode (decode_opcode_compressAt hmode hst),
      exec_cReset (by simpa [hst] using hready) ⟨hinv.running, hmode, hst⟩]
    exact ⟨_, rfl, .inr (jobWork_lt_of_enginePut (by simp [engineWork, hst]))⟩
  | cFinal =>
    cases hcur : s.eng.cur with
    | root => exact absurd hcur ((hinv.engine.compress hmode).pending (.inr (.inr hst)))
    | code c =>
      rw [runTurn_of_decode (decode_opcode_compressAt hmode hst),
        exec_cFinal (by simpa [hst] using hready) ⟨hinv.running, hmode, hst⟩ hcur]
      exact ⟨_, rfl, .inr (jobWork_lt_of_enginePut (by simp [engineWork, hst]))⟩
  | cEos =>
    rw [runTurn_of_decode (decode_opcode_compressAt hmode hst),
      exec_cEos (by simpa [hst] using hready) ⟨hinv.running, hmode, hst⟩]
    exact ⟨_, rfl, .inr (jobWork_lt_of_enginePut (by simp [engineWork, hst]))⟩
  | done => simp [hst] at hready
  | _ => simp [compressState, hst] at hstate

end

/-! ## ENGINE's turn in DECOMPRESS mode -/

/-- A decoded string is no longer than its code allows (R109), so its element pays for its bytes. -/
theorem jobWork_lt_of_decoded (hget : canGet s .a) {first : Byte} {rest : Str} (hlen : rest.length + 1 ≤ 3840) :
    jobWork { s with qa := s.qa.afterGet s.qcap, eng := s.eng.decoded first rest } < jobWork s := by
  refine jobWork_lt_of_engineGet hget ?_
  simp only [engineWork, State.setEng_eng, Engine.decoded, List.length_cons]
  omega

section
variable (hinv : RunInv s) (hmode : s.core.mode = .decompress)
include hinv hmode

theorem dFetchTurn_progress (hst : s.eng.state = .dFetch) (hget : canGet s .a) :
    ∃ t, runTurn .engine s = .next t ∧ Progress s t := by
  have hat : engineAt s .decompress .dFetch := ⟨hinv.running, hmode, hst⟩
  have hd := hinv.engine.decompress hmode
  have hhigh := hinv.engine.high
  have hdec := decode_opcode_dFetch hmode hst (peek_of_canGet hget)
  have hclass := dClass_of_canGet hget
  rw [runTurn_of_decode hdec]
  generalize hk : classify (s.front .a) s.eng.fresh s.eng.prev.isEmpty s.eng.nextCode = k at hclass
  have hclass : fetchesClass s k := ⟨hat, hclass⟩
  rcases holds_of_canGet hget with ⟨htag, hheld⟩ | ⟨htag, hitem⟩
  · have hk : k = .eosIn := by rw [← hk, classify, if_pos htag]
    subst hk
    exact ⟨_, exec_dEosIn hclass, .inr (jobWork_lt_of_engineGet hget (by simp [engineWork]))⟩
  · generalize elemPayload (s.front .a) = c at hitem
    have hkc := classify_of_fetchesClass hclass hitem
    cases k with
    | eosIn => exact absurd (classify_eosIn hkc) (by simp)
    | errFresh => exact ⟨_, exec_dErrFresh hitem hclass, .inl rfl⟩
    | reset => exact ⟨_, exec_dReset hclass, .inr (jobWork_lt_of_engineGet hget (by simp [engineWork]))⟩
    | errRange => exact ⟨_, exec_dErrRange hitem hclass, .inl rfl⟩
    | errOverflow => exact ⟨_, exec_dErrOverflow hitem hclass, .inl rfl⟩
    | lit =>
      have hbyte := zextCode_payloadByte (elemPayload_itemElem c ▸ (classify_lit hkc).2)
      exact ⟨_, exec_dLit (hbyte.symm ▸ hitem) hclass, .inr (jobWork_lt_of_decoded hget (by decide))⟩
    | seq =>
      obtain ⟨-, hn, hlow, hlt⟩ := classify_seq hkc
      rw [elemPayload_itemElem] at hlow hlt
      have hlen := hd.length c.toNat hlow hlt
      cases hstring : s.tableAt c.toNat with
      | nil => simp [hstring] at hlen
      | cons first rest =>
        rw [hstring, List.length_cons] at hlen
        exact ⟨_, exec_dSeq hitem hclass (by omega) hstring,
          .inr (jobWork_lt_of_decoded hget (by omega))⟩
    | kwk =>
      obtain ⟨hne, hn, -, -⟩ := classify_kwk hkc
      have hlen := hd.prevLength
      cases hprev : s.eng.prev with
      | nil => simp [hprev] at hne
      | cons first rest =>
        rw [hprev, List.length_cons] at hlen
        refine ⟨_, exec_dKwk hitem hclass hprev, .inr (jobWork_lt_of_decoded hget ?_)⟩
        rw [List.length_append, List.length_singleton]
        omega

theorem dEmitTurn_progress (hst : s.eng.state = .dEmit) (hput : canPut s .b) :
    ∃ t, runTurn .engine s = .next t ∧ Progress s t := by
  have hd := hinv.engine.decompress hmode
  have hlt := hd.emitting hst
  rw [runTurn_of_decode (decode_opcode_decompressAt hmode hst),
    exec_dEmit ⟨hinv.running, hmode, hst⟩ hput (List.getElem?_eq_getElem hlt) hd.obufLength]
  refine ⟨_, rfl, .inr (jobWork_lt_of_enginePut ?_)⟩
  simp only [engineWork, State.setEng_eng, hst, oidx_succ (hlt.trans_le hd.obufLength)]
  split_ifs <;> simp only <;> omega

theorem decompressTurn_progress (hready : engineReady s) : ∃ t, runTurn .engine s = .next t ∧ Progress s t := by
  have hstate := (hinv.engine.decompress hmode).state
  unfold engineReady at hready
  cases hst : s.eng.state with
  | dFetch => exact dFetchTurn_progress hinv hmode hst (by simpa [hst] using hready)
  | dEmit => exact dEmitTurn_progress hinv hmode hst (by simpa [hst] using hready)
  | dEos =>
    rw [runTurn_of_decode (decode_opcode_decompressAt hmode hst),
      exec_dEosOut ⟨hinv.running, hmode, hst⟩ (by simpa [hst] using hready)]
    exact ⟨_, rfl, .inr (jobWork_lt_of_enginePut (by simp [engineWork, hst]))⟩
  | done => simp [hst] at hready
  | _ => simp [decompressState, hst] at hstate

end

theorem engineTurn_progress (hinv : RunInv s) (hready : engineReady s) :
    ∃ t, runTurn .engine s = .next t ∧ Progress s t := by
  cases hmode : s.core.mode with
  | compress => exact compressTurn_progress hinv hmode hready
  | decompress => exact decompressTurn_progress hinv hmode hready

/-! ## ENGINE's turn where it is blocked -/

theorem peek_of_not_canGet {id : QueueId} (h : ¬ canGet s id) : s.peek id = none := if_neg h

theorem compressTurn_passes (hmode : s.core.mode = .compress) (hready : ¬ engineReady s) :
    runTurn .engine s = .next s := by
  unfold engineReady at hready
  cases hst : s.eng.state with
  | cFetch =>
    have hget : ¬ canGet s .a := by simpa [hst] using hready
    exact runTurn_of_error ((decode_opcode_compressAt hmode hst).trans (by rw [peek_of_not_canGet hget]; rfl))
  | cMatch => simp [hst] at hready
  | cEmit =>
    have hfull : ¬ canPut s .b := by simpa [hst] using hready
    rw [runTurn_of_decode (decode_opcode_compressAt hmode hst)]
    split
    · exact exec_cEmitAdd_blocked hfull
    · exact exec_cEmitFull_blocked hfull
  | cReset =>
    rw [runTurn_of_decode (decode_opcode_compressAt hmode hst)]
    exact exec_cReset_blocked (by simpa [hst] using hready)
  | cFinal =>
    rw [runTurn_of_decode (decode_opcode_compressAt hmode hst)]
    exact exec_cFinal_blocked (by simpa [hst] using hready)
  | cEos =>
    rw [runTurn_of_decode (decode_opcode_compressAt hmode hst)]
    exact exec_cEos_blocked (by simpa [hst] using hready)
  | _ => exact runTurn_of_error (decode_opcode_compressAt hmode hst)

theorem decompressTurn_passes (hmode : s.core.mode = .decompress) (hready : ¬ engineReady s) :
    runTurn .engine s = .next s := by
  unfold engineReady at hready
  cases hst : s.eng.state with
  | dFetch =>
    have hget : ¬ canGet s .a := by simpa [hst] using hready
    exact runTurn_of_error ((decode_opcode_decompressAt hmode hst).trans (by rw [peek_of_not_canGet hget]; rfl))
  | dEmit =>
    rw [runTurn_of_decode (decode_opcode_decompressAt hmode hst)]
    exact exec_dEmit_blocked (by simpa [hst] using hready)
  | dEos =>
    rw [runTurn_of_decode (decode_opcode_decompressAt hmode hst)]
    exact exec_dEosOut_blocked (by simpa [hst] using hready)
  | _ => exact runTurn_of_error (decode_opcode_decompressAt hmode hst)

theorem engineTurn_passes (hready : ¬ engineReady s) : runTurn .engine s = .next s := by
  cases hmode : s.core.mode with
  | compress => exact compressTurn_passes hmode hready
  | decompress => exact decompressTurn_passes hmode hready

/-! ## WRITER's turn -/

theorem jobWork_lt_of_writerGet {core : CoreRegs} {w : Writer} (hget : canGet s .b)
    (h : writerWork (s.setWr w) < 4) :
    jobWork { s with core := core, qb := s.qb.afterGet s.qcap, wr := w } < jobWork s := by
  have hget : 0 < s.qb.filled := hget
  have hwork : writerWork { s with core := core, qb := s.qb.afterGet s.qcap, wr := w } = writerWork (s.setWr w) := rfl
  refine jobWork_lt_of_writer rfl rfl rfl rfl ?_
  rw [hwork]
  simp only [Queue.afterGet]
  omega

theorem jobWork_lt_of_write {core : CoreRegs} {w : Writer} {snk : List SinkAnswer} {out : List Byte}
    (h : writerWork (s.setWr w) < writerWork s) :
    jobWork { s with core := core, wr := w, host := { s.host with snk := snk, out := out } } < jobWork s :=
  jobWork_lt_of_writer rfl rfl rfl rfl (Nat.add_lt_add_left h _)

section
variable (hinv : RunInv s)
include hinv

/-- A code got makes at most two bytes (R87), EOS at most one. -/
theorem packGetTurn_progress (hmode : s.core.mode = .compress) (hst : s.wr.state = .get) (hget : canGet s .b) :
    ∃ t, runTurn .writer s = .next t ∧ Progress s t := by
  have hat : writerAt s .compress .get := ⟨hinv.running, hmode, hst⟩
  have hdec := decode_opcode_wrGet hmode hst (peek_of_canGet hget)
  rw [decodeWriter] at hdec
  have hnbits := hinv.writer.get hmode (.inl hst)
  rcases holds_of_canGet hget with ⟨htag, hheld⟩ | ⟨htag, hitem⟩
  · rw [runTurn_of_decode (i := .packEos) (by rw [hdec, htag]; rfl), exec_packEos hat hheld]
    refine ⟨_, rfl, .inr (jobWork_lt_of_writerGet hget ?_)⟩
    rcases hnbits with hn | hn <;> simp [writerWork, hn]
  · have hacc := hinv.writer.bits
    rw [runTurn_of_decode (i := .packCode _) (by rw [hdec, htag]; rfl)]
    rcases hnbits with hn | hn <;> rw [hn] at hacc
    · rw [exec_packCode hat hitem (by simp [hn]) (hacc.trans_le (by decide))]
      exact ⟨_, rfl, .inr (jobWork_lt_of_writerGet hget (by simp [writerWork, hn]))⟩
    · rw [exec_packCode hat hitem (by simp [hn]) hacc]
      exact ⟨_, rfl, .inr (jobWork_lt_of_writerGet hget (by simp [writerWork, hn]))⟩

theorem rawGetTurn_progress (hmode : s.core.mode = .decompress) (hst : s.wr.state = .get) (hget : canGet s .b) :
    ∃ t, runTurn .writer s = .next t ∧ Progress s t := by
  have hat : writerAt s .decompress .get := ⟨hinv.running, hmode, hst⟩
  have hdec := decode_opcode_wrGet hmode hst (peek_of_canGet hget)
  rw [decodeWriter] at hdec
  rcases holds_of_canGet hget with ⟨htag, hheld⟩ | ⟨htag, hitem⟩
  · rw [runTurn_of_decode (i := .wrRawEos) (by rw [hdec, htag]; rfl), exec_wrRawEos hat hheld]
    exact ⟨_, rfl, .inr (jobWork_lt_of_writerGet hget (by simp [writerWork]))⟩
  · obtain ⟨-, hn, -⟩ := hinv.writer.raw hmode
    rw [runTurn_of_decode (i := .wrRawByte _) (by rw [hdec, htag]; rfl), exec_wrRawByte hat hitem]
    exact ⟨_, rfl, .inr (jobWork_lt_of_writerGet hget (by simp [writerWork, hn]))⟩

variable {a : SinkAnswer} {rest : List SinkAnswer} (hsnk : s.host.snk = a :: rest)
include hsnk

theorem packEmitTurn_progress (hmode : s.core.mode = .compress) (hst : s.wr.state = .emit) :
    ∃ t, runTurn .writer s = .next t ∧ Progress s t := by
  have hat : writerAt s .compress .emit := ⟨hinv.running, hmode, hst⟩
  have hdec := decode_opcode_wrAnswered hmode hst (by rw [hsnk, List.head?_cons])
  rw [runTurn_of_decode (i := .packEmit a) (by rw [hdec, decodeWriter, sinkOfBit_sinkBit])]
  cases a with
  | error => exact ⟨_, exec_packEmit_error hat hsnk, .inl rfl⟩
  | ok =>
    have hnbits := hinv.writer.emit hmode hst
    refine ⟨_, exec_packEmit_ok hat hinv.writer.bits ?_ ?_ hsnk, .inr (jobWork_lt_of_write ?_)⟩ <;>
      rcases hnbits with hn | hn | hn <;> simp [writerWork, hst, hn]

theorem packFlushTurn_progress (hmode : s.core.mode = .compress) (hst : s.wr.state = .pad) :
    ∃ t, runTurn .writer s = .next t ∧ Progress s t := by
  have hat : writerAt s .compress .pad := ⟨hinv.running, hmode, hst⟩
  have hdec := decode_opcode_wrAnswered hmode hst (by rw [hsnk, List.head?_cons])
  rw [runTurn_of_decode (i := .packFlush a) (by rw [hdec, decodeWriter, sinkOfBit_sinkBit])]
  cases a with
  | error => exact ⟨_, exec_packFlush_error hat hsnk, .inl rfl⟩
  | ok =>
    have hn := hinv.writer.pad hst
    have hacc := hinv.writer.bits
    rw [hn] at hacc
    exact ⟨_, exec_packFlush_ok hat hn hacc hsnk, .inr (jobWork_lt_of_write (by simp [writerWork, hst]))⟩

theorem rawEmitTurn_progress (hmode : s.core.mode = .decompress) (hst : s.wr.state = .emit) :
    ∃ t, runTurn .writer s = .next t ∧ Progress s t := by
  have hat : writerAt s .decompress .emit := ⟨hinv.running, hmode, hst⟩
  have hdec := decode_opcode_wrAnswered hmode hst (by rw [hsnk, List.head?_cons])
  rw [runTurn_of_decode (i := .wrRawEmit a) (by rw [hdec, decodeWriter, sinkOfBit_sinkBit])]
  cases a with
  | error => exact ⟨_, exec_wrRawEmit_error hat hsnk, .inl rfl⟩
  | ok => exact ⟨_, exec_wrRawEmit_ok hat hsnk, .inr (jobWork_lt_of_write (by simp [writerWork, hst]))⟩

end

theorem writerTurn_progress (hinv : RunInv s) (hready : writerReady s) :
    ∃ t, runTurn .writer s = .next t ∧ Progress s t := by
  unfold writerReady at hready
  split at hready
  next hst =>
    cases hmode : s.core.mode with
    | compress => exact packGetTurn_progress hinv hmode hst hready
    | decompress => exact rawGetTurn_progress hinv hmode hst hready
  next hst =>
    obtain ⟨a, rest, hsnk⟩ := List.exists_cons_of_ne_nil hready
    cases hmode : s.core.mode with
    | compress => exact packEmitTurn_progress hinv hsnk hmode hst
    | decompress => exact rawEmitTurn_progress hinv hsnk hmode hst
  next hst =>
    obtain ⟨a, rest, hsnk⟩ := List.exists_cons_of_ne_nil hready
    cases hmode : s.core.mode with
    | compress => exact packFlushTurn_progress hinv hsnk hmode hst
    | decompress => exact absurd hst (hinv.writer.raw hmode).2.2
  next => exact hready.elim
  next => exact hready.elim

theorem writerTurn_passes (hready : ¬ writerReady s) : runTurn .writer s = .next s := by
  unfold writerReady at hready
  cases hst : s.wr.state with
  | get =>
    have hget : ¬ canGet s .b := by simpa [hst] using hready
    exact runTurn_of_error ((decode_opcode_wrAt hst).trans (by rw [peek_of_not_canGet hget]; rfl))
  | emit =>
    have hsnk : s.host.snk = [] := by simpa [hst] using hready
    exact runTurn_of_error ((decode_opcode_wrAt hst).trans (by rw [sinkNext_nil hsnk]; rfl))
  | pad =>
    have hsnk : s.host.snk = [] := by simpa [hst] using hready
    cases hmode : s.core.mode with
    | compress =>
      exact runTurn_of_error ((decode_opcode_wrAt hst).trans (by rw [sinkNext_nil hsnk, hmode]; rfl))
    | decompress => exact runTurn_of_error ((decode_opcode_wrAt hst).trans (by rw [hmode]; rfl))
  | idle => exact runTurn_of_error (decode_opcode_wrNoStep (.inl hst))
  | done => exact runTurn_of_error (decode_opcode_wrNoStep (.inr hst))

/-! ## Any stage's turn -/

theorem stageTurn_progress {u : Turn} (hinv : RunInv s) (hready : stageReady s u) :
    ∃ t, runTurn u s = .next t ∧ Progress s t := by
  cases u with
  | reader => exact readerTurn_progress hinv.running hready
  | engine => exact engineTurn_progress hinv hready
  | writer => exact writerTurn_progress hinv hready
  | _ => exact hready.elim

theorem stageTurn_passes {u : Turn} (hu : stageTurn u) (hready : ¬ stageReady s u) : runTurn u s = .next s := by
  rcases hu with rfl | rfl | rfl
  · exact readerTurn_passes hready
  · exact engineTurn_passes hready
  · exact writerTurn_passes hready

end Sys2Proof.Machine
end

section
/-! SUPPORT. No deadlock, and the end of a job under a fair finite schedule (45_pipeline.md R140, R143; log 22). -/

namespace Sys2Proof.Machine

variable {s t : State}

/-! ## Some stage has a step (R143, R71) -/

/-- A queue of capacity at least 1 has room or holds an element (R71). -/
theorem canPut_of_not_canGet {id : QueueId} (hcap : 1 ≤ s.qcap) (hq : QueueInv s.qcap (s.queue id))
    (hget : ¬ canGet s id) : canPut s id := by
  have hcounts := hq.counts
  unfold canGet at hget
  show 0 < (s.queue id).free
  omega

/-- EOS, once put, is in the queue until it is got (R74). -/
theorem canGet_of_eos {id : QueueId} {bytes put got : Prop} (h : EosInv (s.contents id) bytes put got) (hput : put)
    (hgot : ¬ got) : canGet s id := by
  obtain ⟨items, hcontents, -⟩ := h.after hput hgot
  have hlen := congrArg List.length hcontents
  rw [contents_length, List.length_append, List.length_singleton] at hlen
  show 0 < (s.queue id).filled
  omega

/-- The host has an answer ready for each stage that waits for one. -/
structure HostReady (s : State) : Prop where
  source : s.rd.state = .read → ∃ w rest, s.host.src = w :: rest ∧ srcKind w ≠ 3
  sink : s.wr.state = .emit ∨ s.wr.state = .pad → s.host.snk ≠ []

section
variable (hinv : RunInv s)
include hinv

/-- Where WRITER has no step and is not done it waits for an element from ENGINE. -/
theorem writer_waits (hhost : HostReady s) (hready : ¬ writerReady s) :
    s.wr.state = .done ∨ (s.wr.state = .get ∧ ¬ canGet s .b) := by
  unfold writerReady at hready
  cases hst : s.wr.state with
  | get => exact .inr ⟨rfl, by simpa [hst] using hready⟩
  | emit => exact absurd (hhost.sink (.inl hst)) (by simpa [hst] using hready)
  | pad => exact absurd (hhost.sink (.inr hst)) (by simpa [hst] using hready)
  | done => exact .inl rfl
  | idle => exact absurd hst hinv.writer.notIdle

/-- Where ENGINE has no step though QB has room, and is not done, it waits for an element from READER. -/
theorem engine_waits (hput : canPut s .b) (hready : ¬ engineReady s) :
    s.eng.state = .done ∨ (¬ engineGotEos s ∧ ¬ canGet s .a) := by
  have hnotIdle : s.eng.state ≠ .idle := fun hidle => by
    cases hmode : s.core.mode with
    | compress => simpa [compressState, hidle] using (hinv.engine.compress hmode).state
    | decompress => simpa [decompressState, hidle] using (hinv.engine.decompress hmode).state
  unfold engineReady at hready
  cases hst : s.eng.state with
  | cFetch => exact .inr ⟨by simp [engineGotEos, hst], by simpa [hst] using hready⟩
  | dFetch => exact .inr ⟨by simp [engineGotEos, hst], by simpa [hst] using hready⟩
  | cMatch => simp [hst] at hready
  | done => exact .inl rfl
  | idle => exact absurd hst hnotIdle
  | _ => exact absurd hput (by simpa [hst] using hready)

/-- READER has a step, where QA has room and its source an answer, until it has put EOS. -/
theorem reader_ready (hhost : HostReady s) (hput : canPut s .a) (hrd : s.rd.state ≠ .done) : readerReady s := by
  unfold readerReady
  cases hst : s.rd.state with
  | read => exact hhost.source hst
  | put => exact hput
  | eos => exact hput
  | done => exact absurd hst hrd
  | idle => exact absurd hst hinv.reader.notIdle

/-- A stage that waits at an empty queue waits for a producer that has room and has not put EOS; so the last of them has
a step. -/
theorem someStage_ready (hhost : HostReady s) (hnot : ¬ allDone s) : ∃ u, stageTurn u ∧ stageReady s u := by
  by_cases hwr : writerReady s
  · exact ⟨.writer, .inr (.inr rfl), hwr⟩
  by_cases heng : engineReady s
  · exact ⟨.engine, .inr (.inl rfl), heng⟩
  refine ⟨.reader, .inl rfl, ?_⟩
  rcases writer_waits hinv hhost hwr with hdone | ⟨hget, hempty⟩
  · have hengDone := (hinv.qbEos.finished (.inr hdone)).1
    have hrdDone := (hinv.qaEos.finished (.inr (.inr (.inr hengDone)))).1
    exact absurd ⟨hrdDone, hengDone, hdone⟩ hnot
  · have hqb := canPut_of_not_canGet (id := .b) hinv.capacity hinv.qb hempty
    rcases engine_waits hinv hqb heng with hengDone | ⟨hgot, hqa⟩
    · exact absurd (canGet_of_eos hinv.qbEos hengDone (by simp [writerGotEos, hget])) hempty
    · have hput := canPut_of_not_canGet (id := .a) hinv.capacity hinv.qa hqa
      exact reader_ready hinv hhost hput fun hrd => hqa (canGet_of_eos hinv.qaEos hrd hgot)

end

/-! ## The turns of a running job -/

/-- The schedule is read by no stage. -/
theorem stageReady_withTurns (s : State) (ts : List Turn) (u : Turn) :
    stageReady (s.withTurns ts) u = stageReady s u := by
  cases u <;> rfl

theorem jobWork_withTurns (s : State) (ts : List Turn) : jobWork (s.withTurns ts) = jobWork s := rfl

theorem Inv.withTurns (h : Inv s) (ts : List Turn) : Inv (s.withTurns ts) := h.setHost _

theorem Inv.runTurn {u : Turn} (hinv : Inv s) (h : runTurn u s = .next t) : Inv t := by
  rcases runTurn_next h with rfl | ⟨i, hdec, hexec⟩
  · exact hinv
  · exact (turnEffect_of_exec (decode_opcode_turnOp hdec) hexec).inv hinv

theorem step_of_turns {u : Turn} {rest : List Turn} (hinv : Inv s) (hturns : s.host.turns = u :: rest) :
    step s = runTurn u (s.withTurns rest) := by
  rw [step_eq_runTurn (Nat.ne_of_gt hinv.capacity), nextTurn_cons hturns]
  rfl

/-! ## What a fair job keeps -/

/-- The source, where it is still read, gives bytes and then END or ERROR. -/
def SourceEnds (s : State) : Prop :=
  s.rd.state = .read ∨ s.rd.state = .put →
    ∃ bs w later, s.host.src = byteResponses bs ++ w :: later ∧ (srcKind w = 1 ∨ srcKind w = 2)

/-- A running job whose host answers until it ends. -/
structure FairJob (s : State) : Prop where
  inv : Inv s
  running : s.core.status = .running
  source : SourceEnds s
  sink : jobWork s ≤ s.host.snk.length

/-- The job has ended. -/
abbrev JobEnded (s : State) : Prop := s.core.status = .done ∨ s.core.status = .aborted

theorem FairJob.withTurns (h : FairJob s) (ts : List Turn) : FairJob (s.withTurns ts) :=
  ⟨h.inv.withTurns ts, h.running, h.source, h.sink⟩

/-- A byte read leaves the rest of the bytes, and END or ERROR behind them. -/
theorem SourceEnds.afterByte (h : SourceEnds s) (hst : s.rd.state = .read) {b : Byte}
    (hnext : s.sourceNext = some (srcWord 0 b)) :
    ∃ bs w later, s.host.src.tail = byteResponses bs ++ w :: later ∧ (srcKind w = 1 ∨ srcKind w = 2) := by
  obtain ⟨bs, w, later, hsrc, hkind⟩ := h (.inl hst)
  rw [State.sourceNext, hsrc] at hnext
  cases bs with
  | nil =>
    obtain rfl : w = srcWord 0 b := by simpa [byteResponses] using hnext
    simp at hkind
  | cons b' bs => exact ⟨bs, w, later, by rw [hsrc]; rfl, hkind⟩

theorem ReaderMove.sourceEnds (h : ReaderMove s t) (hsource : SourceEnds s) (hlive : t.core.status ≠ .aborted) :
    SourceEnds t := by
  intro hst
  cases h with
  | @reads r hold hnew =>
    rw [detectDone_rd, State.setRd_rd] at hst
    rw [detectDone_host]
    rcases hnew with hnew | ⟨b, hnext⟩
    · simp [hnew] at hst
    · exact hsource.afterByte hold hnext
  | @puts e r _ hnew =>
    rw [detectDone_rd, State.setRd_rd] at hst
    rw [detectDone_host, State.setRd_host, State.qPut_host]
    rcases hnew with hnew | ⟨hold, -⟩
    · simp [hnew] at hst
    · exact hsource (.inr hold)
  | aborts _ _ _ => exact absurd rfl hlive

/-- READER's port depends on READER's registers and the host's list. -/
theorem SourceEnds.congr (h : SourceEnds s) (hrd : t.rd = s.rd) (hsrc : t.host.src = s.host.src) : SourceEnds t := by
  unfold SourceEnds
  rw [hrd, hsrc]
  exact h

theorem stageTurn_sourceEnds {u : Turn} (hu : stageTurn u) (h : runTurn u s = .next t) (hsource : SourceEnds s)
    (hlive : t.core.status ≠ .aborted) : SourceEnds t := by
  rcases hu with rfl | rfl | rfl
  · rcases readerTurn_move h with rfl | hmove
    · exact hsource
    · exact hmove.sourceEnds hsource hlive
  · have hframe := engineTurn_frame h
    exact hsource.congr hframe.rd (by rw [hframe.host])
  · have hframe := writerTurn_frame h
    exact hsource.congr hframe.rd hframe.src

/-- A stage's turn uses up at most one sink answer. -/
theorem stageTurn_snk_length {u : Turn} (hu : stageTurn u) (h : runTurn u s = .next t) :
    s.host.snk.length ≤ t.host.snk.length + 1 := by
  rcases hu with rfl | rfl | rfl
  · rw [(readerTurn_frame h).snk]; exact Nat.le_succ _
  · rw [(engineTurn_frame h).host]; exact Nat.le_succ _
  · rcases writerTurn_move h with rfl | hmove
    · exact Nat.le_succ _
    · cases hmove with
      | gets w _ => simp
      | writes b w => simp [State.sinkWrite]; omega
      | aborts b _ _ _ => simp [State.sinkWrite]; omega

/-- A stage's turn leaves the schedule alone. -/
theorem stageTurn_turns {u : Turn} (hu : stageTurn u) (h : runTurn u s = .next t) : t.host.turns = s.host.turns := by
  rcases runTurn_next h with rfl | ⟨i, hdec, hexec⟩
  · rfl
  · exact stageOp_turns (decode_opcode_modeOp hu hdec).stageOp hexec

/-- A turn of a stage that has a step ends the fair job, or lowers its bound and keeps it fair. -/
theorem FairJob.turn {u : Turn} (h : FairJob s) (hu : stageTurn u) (hready : stageReady s u) :
    ∃ t, runTurn u s = .next t ∧
      (JobEnded t ∨ (FairJob t ∧ t.host.turns = s.host.turns ∧ jobWork t < jobWork s)) := by
  obtain ⟨hrun, -⟩ := h.inv.run h.running
  obtain ⟨t, hturn, hprogress⟩ := stageTurn_progress hrun hready
  refine ⟨t, hturn, ?_⟩
  by_cases hlive : t.core.status = .aborted
  · exact .inl (.inr hlive)
  have hwork := hprogress.resolve_left hlive
  have hmoved : t ≠ s := fun he => Nat.lt_irrefl _ (he ▸ hwork)
  have hstatus := stageTurn_status hu h.running hturn hmoved hlive
  by_cases hall : allDone t
  · exact .inl (.inl (by rw [hstatus, if_pos hall]))
  rw [if_neg hall] at hstatus
  have hsnk := stageTurn_snk_length hu hturn
  have hsink := h.sink
  have hfair : FairJob t :=
    ⟨h.inv.runTurn hturn, hstatus, stageTurn_sourceEnds hu hturn h.source hlive, by omega⟩
  exact .inr ⟨hfair, stageTurn_turns hu hturn, hwork⟩

/-- In a fair job some stage has a step. -/
theorem FairJob.someStage_ready (h : FairJob s) : ∃ u, stageTurn u ∧ stageReady s u := by
  obtain ⟨hrun, hnot⟩ := h.inv.run h.running
  refine Machine.someStage_ready hrun ⟨fun hst => ?_, fun hst hsnk => ?_⟩ hnot
  · obtain ⟨bs, w, later, hsrc, hkind⟩ := h.source (.inl hst)
    cases bs with
    | nil => exact ⟨w, later, hsrc, by rcases hkind with hk | hk <;> rw [hk] <;> decide⟩
    | cons b bs => exact ⟨_, _, hsrc, by rw [srcKind_srcWord]; decide⟩
  · have hsink := h.sink
    have hwork : 1 ≤ writerWork s := by rcases hst with hst | hst <;> simp [writerWork, hst]
    rw [hsnk, List.length_nil, jobWork] at hsink
    omega

/-! ## Rounds -/

/-- The job ends within `n` steps. -/
def EndsWithin (n : Nat) (s : State) : Prop := ∃ k t, k ≤ n ∧ runSteps k s = .next t ∧ JobEnded t

theorem EndsWithin.of_step {n : Nat} (hstep : step s = .next t) (h : EndsWithin n t) : EndsWithin (n + 1) s := by
  obtain ⟨k, v, hk, hrun, hended⟩ := h
  exact ⟨k + 1, v, Nat.succ_le_succ hk, by rw [runSteps, hstep]; exact hrun, hended⟩

theorem EndsWithin.of_ended (h : JobEnded s) (n : Nat) : EndsWithin n s := ⟨0, s, Nat.zero_le n, rfl, h⟩

/-- A stretch of stage turns either ends a fair job, or leaves it fair with a lower bound, or as it was if no stage that
has a turn in it has a step; by induction on the stretch. `hcont` is what follows it. -/
theorem FairJob.stretch {ts rest : List Turn} {n : Nat} (hts : ∀ u ∈ ts, stageTurn u) (h : FairJob s)
    (hturns : s.host.turns = ts ++ rest)
    (hcont : ∀ t, FairJob t → t.host.turns = rest →
      jobWork t < jobWork s ∨ (jobWork t = jobWork s ∧ ∀ u ∈ ts, ¬ stageReady s u) → EndsWithin n t) :
    EndsWithin (ts.length + n) s := by
  induction ts generalizing s with
  | nil => simpa using hcont s h hturns (.inr ⟨rfl, nofun⟩)
  | cons u ts ih =>
    have hu := hts u List.mem_cons_self
    have hts : ∀ v ∈ ts, stageTurn v := fun v hv => hts v (List.mem_cons_of_mem u hv)
    have hstep := step_of_turns (rest := ts ++ rest) h.inv hturns
    have hfair := h.withTurns (ts ++ rest)
    rw [List.length_cons, Nat.add_right_comm]
    by_cases hready : stageReady s u
    · obtain ⟨t, hturn, hended | ⟨htfair, htturns, hwork⟩⟩ :=
        hfair.turn hu (by rwa [stageReady_withTurns])
      · exact .of_step (hstep.trans hturn) (.of_ended hended _)
      · rw [jobWork_withTurns] at hwork
        refine .of_step (hstep.trans hturn) (ih hts htfair htturns fun v hv hvturns hvwork => ?_)
        refine hcont v hv hvturns (.inl ?_)
        rcases hvwork with hlt | ⟨heq, -⟩
        · exact hlt.trans hwork
        · exact heq.trans_lt hwork
    · have hpass := stageTurn_passes (s := s.withTurns (ts ++ rest)) hu (by rwa [stageReady_withTurns])
      refine .of_step (hstep.trans hpass) (ih hts hfair rfl fun v hv hvturns hvwork => hcont v hv hvturns ?_)
      refine hvwork.imp_right fun ⟨heq, hblocked⟩ => ⟨heq, fun w hw => ?_⟩
      rcases List.mem_cons.mp hw with rfl | hw
      · exact hready
      · exact stageReady_withTurns s _ w ▸ hblocked w hw

/-- Each full round gives the stage that has a step its turn, and so lowers the bound; by induction on the rounds. -/
theorem FairJob.ends {rounds : List (List Turn)} {rest : List Turn} (hrounds : ∀ r ∈ rounds, fullRound r)
    (h : FairJob s) (hwork : jobWork s < rounds.length) (hturns : s.host.turns = rounds.flatten ++ rest) :
    EndsWithin rounds.flatten.length s := by
  induction rounds generalizing s with
  | nil => exact absurd hwork (Nat.not_lt_zero _)
  | cons r rounds ih =>
    obtain ⟨hr, hreader, hengine, hwriter⟩ := hrounds r List.mem_cons_self
    obtain ⟨u, hu, hready⟩ := h.someStage_ready
    have hmem : u ∈ r := by
      rcases hu with rfl | rfl | rfl
      · exact hreader
      · exact hengine
      · exact hwriter
    rw [List.flatten_cons, List.append_assoc] at hturns
    rw [List.flatten_cons, List.length_append]
    rw [List.length_cons] at hwork
    refine h.stretch hr hturns fun t ht htturns htwork => ?_
    have hlt : jobWork t < jobWork s := htwork.resolve_right fun ⟨_, hblocked⟩ => hblocked u hmem hready
    exact ih (fun r' hr' => hrounds r' (List.mem_cons_of_mem r hr')) ht (by omega) htturns

end Sys2Proof.Machine
end

section
/-! The statements on the end of a job (45_pipeline.md R143). -/

namespace Sys2Proof.Proofs

open Sys2Proof Sys2Proof.Machine

/-- Settles O59: where the stage has a step its turn makes progress, and elsewhere it passes. -/
theorem stepsAreBounded : Obligations.StepsAreBounded := by
  intro s t hinv hrun hu hstep
  have hturn := step_runTurn hstep
  obtain ⟨hcore, hqa, hqb, hrd, heng, hwr, -⟩ := nextTurn_same s
  by_cases hready : stageReady s.nextTurn.2 s.nextTurn.1
  · obtain ⟨hnext, -⟩ := hinv.nextTurn.run ((congrArg CoreRegs.status hcore).trans hrun)
    obtain ⟨t', hturn', hprogress⟩ := stageTurn_progress hnext hready
    cases hturn.symm.trans hturn'
    exact .inr (jobWork_congr hrd heng hwr hqa hqb (nextTurn_ports s).1 ▸ hprogress)
  · exact .inl (Host.Outcome.next.inj (hturn.symm.trans (stageTurn_passes hu hready)))

/-- Settles O58: the stage that has a step, given the next turn, makes progress. -/
theorem noDeadlock : Obligations.NoDeadlock := by
  intro s hinv hrun hsource hsink
  obtain ⟨hrunInv, hnot⟩ := hinv.run hrun
  obtain ⟨u, hu, hready⟩ := someStage_ready hrunInv ⟨hsource, hsink⟩ hnot
  have hnext := ((hinv.withTurns []).run hrun).1
  obtain ⟨t, hturn, hprogress⟩ := stageTurn_progress hnext ((stageReady_withTurns s [] u).mpr hready)
  exact ⟨u, t, hu, (step_of_turns (s := s.withTurns [u]) (hinv.withTurns [u]) rfl).trans hturn, hprogress⟩

/-- Settles O60: each round lowers the bound or ends the job. -/
theorem fairJobsEnd : Obligations.FairJobsEnd := by
  intro s rounds rest hinv hrun hrounds hwork hturns hsource hsink
  exact FairJob.ends hrounds ⟨hinv, hrun, hsource, hsink⟩ hwork hturns

end Sys2Proof.Proofs
end

section
/-! SUPPORT. The one abort (60_exceptions.md R149): what a turn that ends a running job by abort leaves as it was, and
that outside RUNNING every stage's turn passes. -/

namespace Sys2Proof.Machine

variable {s t : State}

/-! ## A turn that aborts -/

/-- `t` is the abort of `s`, with a host's side in which the sink has accepted what it had: an answer may be used up
(log 14). -/
inductive PreciseAbort (s : State) : State → Prop where
  | intro (side : HostSide) (hout : side.out = s.host.out) (code : ErrCode) (reason : ErrReason) (info : Code) :
      PreciseAbort s ((s.setHost side).abort code reason info)

/-- The abort of a state that differs in the host's side alone, the output excepted. -/
theorem PreciseAbort.ofSetHost {side : HostSide} (h : PreciseAbort (s.setHost side) t) (hout : side.out = s.host.out) :
    PreciseAbort s t := by
  cases h with
  | intro side' hout' code reason info => exact .intro side' (hout'.trans hout) code reason info

section
variable (hrun : s.core.status = .running) (habort : t.core.status = .aborted)
include hrun habort

theorem ne_self_of_abort : t ≠ s := by
  rintro rfl
  rw [hrun] at habort
  cases habort

/-- A running job's state after DONE detection is no abort. -/
theorem ne_detectDone_of_abort {u : State} (hcore : u.core = s.core) : t ≠ detectDone u := by
  rintro rfl
  rw [detectDone_status, hcore, hrun] at habort
  split at habort <;> cases habort

theorem ReaderMove.preciseAbort (h : ReaderMove s t) : PreciseAbort s t := by
  cases h with
  | reads _ _ => exact absurd rfl (ne_detectDone_of_abort hrun habort rfl)
  | puts _ _ => exact absurd rfl (ne_detectDone_of_abort hrun habort rfl)
  | aborts code reason info => exact .intro { s.host with src := s.host.src.tail } rfl code reason info

theorem EngineMove.preciseAbort (h : EngineMove s t) : PreciseAbort s t := by
  cases h with
  | works _ => exact absurd rfl (ne_detectDone_of_abort hrun habort rfl)
  | gets _ _ => exact absurd rfl (ne_detectDone_of_abort hrun habort rfl)
  | puts _ _ _ => exact absurd rfl (ne_detectDone_of_abort hrun habort rfl)
  | aborts code reason info => exact .intro s.host rfl code reason info

theorem WriterMove.preciseAbort (h : WriterMove s t) : PreciseAbort s t := by
  cases h with
  | gets _ _ => exact absurd rfl (ne_detectDone_of_abort hrun habort rfl)
  | writes _ _ => exact absurd rfl (ne_detectDone_of_abort hrun habort rfl)
  | aborts _ code reason info => exact .intro { s.host with snk := s.host.snk.tail } rfl code reason info

theorem stageOp_preciseAbort {i : Instr} (hop : StageOp i) (h : exec i s = .next t) : PreciseAbort s t := by
  have hmoved := ne_self_of_abort hrun habort
  cases hop with
  | reader hop => exact ((readerOp_move hop h).resolve_left hmoved).preciseAbort hrun habort
  | compress hop => exact ((compressOp_move hop h).resolve_left hmoved).preciseAbort hrun habort
  | decompress hop => exact ((decompressOp_move hop h).resolve_left hmoved).preciseAbort hrun habort
  | writer hop => exact ((writerOp_move hop h).resolve_left hmoved).preciseAbort hrun habort

/-- An answer the HOST gives is used up by the operation it enables (log 17). -/
theorem hostSrcAnswer_preciseAbort {k : BitVec 2} {d : Byte} (h : exec (.hostSrcAnswer k d) s = .next t) :
    PreciseAbort s t := by
  rcases execHostSrcAnswer_eq k d s with heq | ⟨-, i, hdec, heq⟩
  · exact absurd (Host.Outcome.next.inj (heq.symm.trans h)).symm (ne_self_of_abort hrun habort)
  · exact (stageOp_preciseAbort (s := s.offerSource _) hrun habort (.reader (decodeSource_readerOp hdec))
      (heq.symm.trans h)).ofSetHost rfl

theorem hostSnkAnswer_preciseAbort {r : SinkAnswer} (h : exec (.hostSnkAnswer r) s = .next t) : PreciseAbort s t := by
  rcases execHostSnkAnswer_eq r s with heq | ⟨-, -, i, hdec, heq⟩
  · exact absurd (Host.Outcome.next.inj (heq.symm.trans h)).symm (ne_self_of_abort hrun habort)
  · exact (stageOp_preciseAbort (s := s.offerSink r) hrun habort (.writer (decodeWriter_writerOp hdec))
      (heq.symm.trans h)).ofSetHost rfl

theorem turnOp_preciseAbort {u : Turn} {i : Instr} (hop : TurnOp u i) (h : exec i s = .next t) : PreciseAbort s t := by
  cases hop with
  | stage _ hop => exact stageOp_preciseAbort hrun habort hop h
  | start m =>
    rcases execStart_next h with ⟨-, ht⟩ | ⟨hidle, -⟩
    · exact absurd ht (ne_self_of_abort hrun habort)
    · exact absurd hrun hidle
  | rst => cases h; cases habort
  | srcAnswer _ _ _ => exact hostSrcAnswer_preciseAbort hrun habort h
  | snkAnswer _ _ => exact hostSnkAnswer_preciseAbort hrun habort h

theorem runTurn_preciseAbort {u : Turn} (h : runTurn u s = .next t) : PreciseAbort s t := by
  obtain ⟨i, hdec, hexec⟩ := (runTurn_next h).resolve_left (ne_self_of_abort hrun habort)
  exact turnOp_preciseAbort hrun habort (decode_opcode_turnOp hdec) hexec

end

/-! ## Outside RUNNING (R16, R21) -/

/-- Every operation of a stage is enabled in a running job alone. -/
theorem exec_stageOp_of_not_running {i : Instr} (hop : StageOp i) (hidle : s.core.status ≠ .running) :
    exec i s = .next s := by
  obtain ⟨t, ht⟩ := stageOp_answers (fun hrun => absurd hrun hidle) hop
  rcases stageOp_effect hop ht with rfl | ⟨hrun, -⟩
  · exact ht
  · exact absurd hrun hidle

theorem stageTurn_passes_of_not_running {u : Turn} (hu : stageTurn u) (hidle : s.core.status ≠ .running) :
    runTurn u s = .next s := by
  cases hdec : decode (s.opcode u) with
  | error e => exact runTurn_of_error hdec
  | ok i =>
    rw [runTurn_of_decode hdec]
    exact exec_stageOp_of_not_running (decode_opcode_modeOp hu hdec).stageOp hidle

theorem step_withTurns_of_not_running {u : Turn} {ts : List Turn} (hcap : s.qcap ≠ 0) (hu : stageTurn u)
    (hidle : s.core.status ≠ .running) : step (s.withTurns (u :: ts)) = .next (s.withTurns ts) := by
  have hnext : (s.withTurns (u :: ts)).nextTurn = (u, s.withTurns ts) := nextTurn_cons rfl
  rw [step_eq_runTurn (s := s.withTurns (u :: ts)) hcap, hnext]
  exact stageTurn_passes_of_not_running (s := s.withTurns ts) hu hidle

theorem step_qcap (h : step s = .next t) : t.qcap = s.qcap := by
  obtain ⟨-, -, -, -, -, -, hcap⟩ := nextTurn_same s
  exact (runTurn_qcap (step_runTurn h)).trans hcap

end Sys2Proof.Machine
end

section
/-! The statements on exceptions (60_exceptions.md R148, R149). -/

namespace Sys2Proof.Proofs

open Sys2Proof Sys2Proof.Machine

/-- Settles O6: a step, START and Q.INIT each look at QCAP before anything else. -/
theorem zeroCapacityRefused : Obligations.ZeroCapacityRefused :=
  fun _ _ _ hcap => ⟨if_pos hcap, if_pos hcap, if_pos hcap⟩

/-- Settles O47: of the ways a turn can end only the abort of R149 leaves ABORTED, and it writes the core registers and
the host's answers alone; and no operation of a stage is enabled outside RUNNING. -/
theorem abortIsPrecise : Obligations.AbortIsPrecise := by
  intro s t hstep hrun habort
  obtain ⟨hcore, hqa, hqb, hrd, heng, hwr, -⟩ := nextTurn_same s
  obtain ⟨-, -, hports⟩ := nextTurn_ports s
  have hmode : s.nextTurn.2.core.mode = s.core.mode := congrArg CoreRegs.mode hcore
  constructor
  · cases runTurn_preciseAbort ((congrArg CoreRegs.status hcore).trans hrun) habort (step_runTurn hstep) with
    | intro side hout _ _ _ => exact ⟨hqa, hqb, hrd, heng, hwr, hmode, hout.trans hports⟩
  · intro u hu
    have hcap : t.qcap ≠ 0 := step_qcap hstep ▸ (step_next hstep).1
    exact step_withTurns_of_not_running hcap hu (by rw [habort]; decide)

end Sys2Proof.Proofs
end


section
/-! SUPPORT and the statement on RST (70_reset_and_hazards.md R161). -/

namespace Sys2Proof.Machine

variable (s : State)

/-- RST is enabled in every state (R161). -/
theorem exec_rst : exec .rst s = .next s.hardReset := rfl

/-- R37's values. -/
theorem hardReset_registers :
    s.hardReset.core = { status := .idle, mode := .compress, errCode := .none, errReason := .none, errInfo := 0 } ∧
      s.hardReset.rd.state = .idle ∧ s.hardReset.eng.state = .idle ∧ s.hardReset.wr.state = .idle :=
  ⟨rfl, rfl, rfl, rfl⟩

/-- Every slot of every array reads a free value (log 5, log 6). -/
theorem hardReset_cells :
    s.hardReset.qa.buf.cells = [] ∧ s.hardReset.qb.buf.cells = [] ∧ s.hardReset.eng.dict.cells = [] ∧
      s.hardReset.eng.table.cells = [] :=
  ⟨rfl, rfl, rfl, rfl⟩

/-- The capacity and the HOST's side are not the block's to reset (R161, log 26). -/
theorem hardReset_keeps : s.hardReset.qcap = s.qcap ∧ s.hardReset.host = s.host :=
  ⟨rfl, rfl⟩

end Sys2Proof.Machine

namespace Sys2Proof.Proofs

open Sys2Proof Sys2Proof.Machine

/-- Settles O3: RST answers `State.hardReset`, which sets R37's values, forgets the arrays and keeps the host's side. -/
theorem rstResets : Obligations.RstResets := by
  intro s
  obtain ⟨hcore, hrd, heng, hwr⟩ := hardReset_registers s
  obtain ⟨hqa, hqb, hdict, htable⟩ := hardReset_cells s
  obtain ⟨hcap, hhost⟩ := hardReset_keeps s
  exact ⟨s.hardReset, exec_rst s, hcore, hrd, heng, hwr, hqa, hqb, hdict, htable, hcap, congrArg HostSide.out hhost⟩

end Sys2Proof.Proofs
end
